-- ==== Sys2Proof/Word.lean ====
section
/-! DEFINITION. The widths of what the CORE moves: bytes, codes, symbols, command and status words. -/

namespace Sys2Proof

/-- One byte of the byte streams (20_memory R43). -/
abbrev Byte := BitVec 8

/-- A code of the code space `0..4095`, in 12 bits (20_memory R37). -/
abbrev Code := BitVec 12

/-- A symbol on the symbol datapath, `SYMW = 10` bits (00_scope R6, 30_encoding R73). -/
abbrev Sym := BitVec 10

/-- A host command word (30_encoding R59). -/
abbrev CmdWord := BitVec 16

/-- A `(width, code)` pair as the internal interface carries it (30_encoding R57). -/
abbrev PairWord := BitVec 16

/-- A word of the status port (10_state R27). -/
abbrev StatusWord := BitVec 32

end Sys2Proof
end

