-- ==== Sys2Proof/Config.lean ====
section
/-! DEFINITION. The fixed constants of the hardware (00_scope R5, R6) and its open parameters (92 P1 to P3). -/

namespace Sys2Proof.Config

/-- `MAXW`, the largest code width (00_scope R6). -/
abbrev maxw : Nat := 12

/-- `CODES`, the size of the code space (00_scope R6). -/
abbrev codes : Nat := 4096

/-- The smallest legal root size (00_scope R5). -/
abbrev minRoot : Nat := 2

/-- The largest legal root size (00_scope R5). -/
abbrev maxRoot : Nat := 10

/-- P1 `OUT_FIFO_DEPTH`: an open parameter that no rule reads (70 R166, log 12). -/
opaque outFifoDepth : Nat

/-- P2 `CMD_LATENCY`, for each operation code: an open parameter that no rule reads (70 R168, log 12). -/
opaque cmdLatency : Nat → Nat

/-- P3 `NUM_CORES`: an open parameter; every claim is about one CORE (20 R52, log 13). -/
opaque numCores : Nat

end Sys2Proof.Config
end

