-- ==== Sys2Proof/Syntax.lean ====
section
/-! DEFINITION. The instructions of the CORE: one constructor per row of `spec/opcode_table.json`. -/

namespace Sys2Proof

/-- The rows of the opcode table, in the table's order.
The command words (30_encoding R60, R65) arrive on the command port.
The code words (30_encoding R55) arrive packed in the bytes of DEC_BYTE, and the pair (30_encoding R57) goes from the
encoder to the packer, so both run inside a command (log 8). -/
inductive Instr where
  /-- START_ENC `r`: begin an encode session (42_encoder R100). -/
  | startEnc (r : BitVec 4)
  /-- START_DEC `r`: begin a decode session (43_decoder R115). -/
  | startDec (r : BitVec 4)
  /-- ENC_SYM `x`: feed one input symbol (42_encoder R101). -/
  | encSym (x : BitVec 12)
  /-- ENC_END: the end of the encode input (42_encoder R107). -/
  | encEnd
  /-- DEC_BYTE `b`: feed one input byte (43_decoder R116). -/
  | decByte (b : Byte)
  /-- DEC_END: the end of the decode input (43_decoder R129). -/
  | decEnd
  /-- The reserved operation 0, with any argument (30_encoding R65). -/
  | reservedOp0 (arg : BitVec 12)
  /-- The reserved operations 7 to 15, with any argument (30_encoding R65). -/
  | reservedOps (op : BitVec 4) (arg : BitVec 12)
  /-- LIT: a literal code (43_decoder R120, R122). -/
  | lit (c : Code)
  /-- CLR: the Clear Code (43_decoder R118). -/
  | clr
  /-- EOI: the End-of-Information code (43_decoder R119). -/
  | eoi
  /-- DIC: a present dictionary code (43_decoder R122). -/
  | dic (c : Code)
  /-- KWK: the code of the entry about to be inserted (43_decoder R123). -/
  | kwk (c : Code)
  /-- BAD: a corrupt code (43_decoder R121, R128). -/
  | bad (c : Code)
  /-- PAIR: code `code` of width `width`, handed to the packer (30_encoding R57, 40_bit_channel R75). -/
  | pair (width : BitVec 4) (code : Code)
deriving DecidableEq, Repr

/-- What the width and classification of a code word depend on: the current `r`, `N` and `PREV_V` (30_encoding R55). -/
structure CodeContext where
  r : Nat
  n : Nat
  prevV : Bool
deriving DecidableEq, Repr

/-- A word on one of the three interfaces, which have one format each (30_encoding R53). -/
inductive RawWord where
  /-- A word on the command port. -/
  | command (w : CmdWord)
  /-- A code that the unpacker returned. -/
  | code (c : Code)
  /-- A word on the encoder-to-packer interface. -/
  | pair (w : PairWord)
deriving DecidableEq, Repr

/-- Why the decoder reads no instruction from a word. -/
inductive Reject where
  /-- A reserved bit of `arg` is set: the command is malformed (30_encoding R66). -/
  | malformed (w : CmdWord)
deriving DecidableEq, Repr

/-- The decoder's answer. -/
inductive Decoded where
  | ok (i : Instr)
  | rejected (why : Reject)
deriving DecidableEq, Repr

end Sys2Proof
end

