-- ==== Sys2Proof/WellFormed.lean ====
section
/-! DEFINITION. Which terms of `Instr` are instructions: the operand ranges of the opcode table. -/

namespace Sys2Proof

/-- `rootSize` is legal when `2 ≤ r ≤ 10` (00_scope R5). -/
abbrev rootOk (r : Nat) : Prop := Config.minRoot ≤ r ∧ r ≤ Config.maxRoot

/-- Instruction `i` is well formed where the decoder's context is `x`: its operands are in the ranges of its row of the
opcode table.
A START's illegal root size is an operand that executes (it raises INVALID_ROOT_SIZE, 60_exceptions R148), so every
4-bit `r` is well formed; in the same way every 12-bit symbol and every byte is (30_encoding R62, R63).
A code word's row is a class of 30_encoding R55, whose ranges are relative to `r`, `N` and `PREV_V`. -/
def Instr.wellFormed (x : CodeContext) : Instr → Bool
  | .startEnc _ => true
  | .startDec _ => true
  | .encSym _ => true
  | .encEnd => true
  | .decByte _ => true
  | .decEnd => true
  | .reservedOp0 _ => true
  | .reservedOps op _ => decide (7 ≤ op.toNat)
  | .lit c => decide (c.toNat < 2 ^ x.r)
  | .clr => decide (rootOk x.r)
  | .eoi => decide (rootOk x.r)
  | .dic c => decide (2 ^ x.r + 2 ≤ c.toNat ∧ c.toNat < min x.n Config.codes)
  | .kwk c => decide (2 ^ x.r + 2 ≤ c.toNat ∧ c.toNat = x.n) && x.prevV
  | .bad c => decide (2 ^ x.r + 2 ≤ c.toNat ∧ min x.n Config.codes ≤ c.toNat ∧ ¬ (c.toNat = x.n ∧ x.prevV = true))
  | .pair width code => decide (1 ≤ width.toNat ∧ width.toNat ≤ Config.maxw ∧ code.toNat < 2 ^ width.toNat)

end Sys2Proof
end

