-- ==== Sys2Proof/Decode.lean ====
section
/-! DEFINITION. From words to instructions, and back (30_encoding). -/

namespace Sys2Proof

/-! ### The codes of a stream (00_scope R7) -/

/-- `CLR = 2^r`, the Clear Code. -/
def clrCode (r : Nat) : Nat := 2 ^ r

/-- `EOI = 2^r + 1`, the End-of-Information code. -/
def eoiCode (r : Nat) : Nat := 2 ^ r + 1

/-- `FIRST = 2^r + 2`, the first dictionary code. -/
def firstCode (r : Nat) : Nat := 2 ^ r + 2

/-- `W0 = r + 1`, the initial code width. -/
def initialWidth (r : Nat) : Nat := r + 1

/-! ### Command words (30_encoding R59 to R66) -/

/-- `op = cmd[15:12]` (30_encoding R59). -/
def opField (w : CmdWord) : BitVec 4 := w.extractLsb' 12 4

/-- `arg = cmd[11:0]` (30_encoding R59). -/
def argField (w : CmdWord) : BitVec 12 := w.extractLsb' 0 12

/-- A command word from its two fields (30_encoding R59). -/
def commandWord (op : BitVec 4) (arg : BitVec 12) : CmdWord := op ++ arg

/-- `arg[3:0]`, the root size of a START (30_encoding R61). -/
def rootField (arg : BitVec 12) : BitVec 4 := arg.extractLsb' 0 4

/-- `arg[7:0]`, the byte of a DEC_BYTE (30_encoding R63). -/
def byteField (arg : BitVec 12) : Byte := arg.extractLsb' 0 8

/-- The command on the command port: the operation map of 30_encoding R60, with `arg[11:4]` of START, `arg` of ENC_END and
DEC_END and `arg[11:8]` of DEC_BYTE reserved (30_encoding R66). -/
def decodeCommand (w : CmdWord) : Decoded :=
  let arg := argField w
  match (opField w).toNat with
  | 0 => .ok (.reservedOp0 arg)
  | 1 => if arg.extractLsb' 4 8 = 0 then .ok (.startEnc (rootField arg)) else .rejected (.malformed w)
  | 2 => if arg.extractLsb' 4 8 = 0 then .ok (.startDec (rootField arg)) else .rejected (.malformed w)
  | 3 => .ok (.encSym arg)
  | 4 => if arg = 0 then .ok .encEnd else .rejected (.malformed w)
  | 5 => if arg.extractLsb' 8 4 = 0 then .ok (.decByte (byteField arg)) else .rejected (.malformed w)
  | 6 => if arg = 0 then .ok .decEnd else .rejected (.malformed w)
  | _ => .ok (.reservedOps (opField w) arg)

/-! ### Code words (30_encoding R54, R55) -/

/-- The classes of a code (30_encoding R55). -/
inductive CodeClass where
  | LIT | CLR | EOI | DIC | KWK | BAD
deriving DecidableEq, Repr

/-- The class of code `c`, by the tests of 30_encoding R55 in their order. -/
def classify (x : CodeContext) (c : Nat) : CodeClass :=
  if c < clrCode x.r then .LIT
  else if c = clrCode x.r then .CLR
  else if c = eoiCode x.r then .EOI
  else if c < min x.n Config.codes then .DIC
  else if c = x.n ∧ x.prevV = true then .KWK
  else .BAD

/-- The instruction that a code of a class is. -/
def codeInstr (cls : CodeClass) (c : Code) : Instr :=
  match cls with
  | .LIT => .lit c
  | .CLR => .clr
  | .EOI => .eoi
  | .DIC => .dic c
  | .KWK => .kwk c
  | .BAD => .bad c

/-- The instruction that code `c` is in context `x` (30_encoding R55): every code is exactly one (30_encoding R70). -/
def decodeCode (x : CodeContext) (c : Code) : Instr := codeInstr (classify x c.toNat) c

/-- The `w` bits of a code on the wire, least significant first (20_memory R44, 30_encoding R54). -/
def codeBits (w : Nat) (c : Code) : List Bool := (List.range w).map c.getLsbD

/-! ### Pairs (30_encoding R57) -/

/-- A pair from `width[15:12] | code[11:0]`: any word is one (30_encoding R57, opcode table row PAIR). -/
def decodePair (w : PairWord) : Instr := .pair (w.extractLsb' 12 4) (w.extractLsb' 0 12)

/-! ### The decoder and the encoder -/

/-- The instructions of the command format, those the command port carries (30_encoding R53, R60). -/
def Instr.isCommand : Instr → Bool
  | .startEnc _ | .startDec _ | .encSym _ | .encEnd | .decByte _ | .decEnd | .reservedOp0 _ | .reservedOps _ _ => true
  | .lit _ | .clr | .eoi | .dic _ | .kwk _ | .bad _ | .pair _ _ => false

/-- The decoder, total on the words of all three formats (30_encoding R53). -/
def decode (x : CodeContext) : RawWord → Decoded
  | .command w => decodeCommand w
  | .code c => .ok (decodeCode x c)
  | .pair w => .ok (decodePair w)

/-- The encoder: the word of an instruction, on the interface that carries it (30_encoding R57, R60, R72; a code word's
value is its code, 30_encoding R54, and CLR and EOI have the codes of 00_scope R7). -/
def encode (x : CodeContext) : Instr → RawWord
  | .startEnc r => .command (commandWord 0x1#4 (0#8 ++ r))
  | .startDec r => .command (commandWord 0x2#4 (0#8 ++ r))
  | .encSym s => .command (commandWord 0x3#4 s)
  | .encEnd => .command (commandWord 0x4#4 0#12)
  | .decByte b => .command (commandWord 0x5#4 (0#4 ++ b))
  | .decEnd => .command (commandWord 0x6#4 0#12)
  | .reservedOp0 arg => .command (commandWord 0x0#4 arg)
  | .reservedOps op arg => .command (commandWord op arg)
  | .lit c => .code c
  | .clr => .code (BitVec.ofNat 12 (clrCode x.r))
  | .eoi => .code (BitVec.ofNat 12 (eoiCode x.r))
  | .dic c => .code c
  | .kwk c => .code c
  | .bad c => .code c
  | .pair width code => .pair (width ++ code)

/-- The whole 16-bit word of a command, which ERRINFO records (10_state R28); 0 for what is no command. -/
def cmdWordOf (i : Instr) : CmdWord :=
  match encode ⟨0, 0, false⟩ i with
  | .command w => w
  | .code _ => 0
  | .pair _ => 0

/-- The host's reading of an opcode-table row: a row of 16 bits is a word of the command port, the one interface from
outside the CORE (log 9). -/
def decodeTableWord (nbits w : Nat) : Option Instr :=
  if nbits ≤ 16 then
    match decodeCommand (BitVec.ofNat 16 w) with
    | .ok i => some i
    | .rejected _ => none
  else none

end Sys2Proof
end

