-- ==== Sys2Proof/Machine/State.lean ====
section
/-! DEFINITION. The state of the CORE (10_state R15), its reset value, and the ways a step can stop. -/

namespace Sys2Proof.Machine

/-- `STATE`, the engine's mode of operation (10_state R16). -/
inductive EngineState where
  | idle | encActive | decActive | done | error
deriving DecidableEq, Repr

/-- `MODE`, the pipeline the last accepted START selected (10_state R18). -/
inductive Mode where
  | enc | dec
deriving DecidableEq, Repr

/-- `ERR`, the error codes (60_exceptions R141). -/
inductive ErrCode where
  | none | invalidSymbol | truncatedStream | corruptCode | illegalCommand | invalidRootSize
deriving DecidableEq, Repr

/-- A stored dictionary entry, `prefix:12` and `suffix:10` (10_state R26). -/
structure DictEntry where
  prefixCode : Code
  suffix : Sym
deriving DecidableEq, Repr

/-- The dictionary as a finite map from the present codes (41_dictionary R98): codes strictly rising, one entry each.
A code that is not listed has no entry, so no bits of a stale slot are in the state (log 4). -/
abbrev Dict := List (Nat × DictEntry)

/-- The packer's open accumulator (10_state R24). -/
structure Packer where
  /-- `PK_ACC`. -/
  acc : BitVec 20
  /-- `PK_N`. -/
  n : Nat
deriving DecidableEq, Repr

/-- The unpacker's bit buffer (10_state R25). -/
structure Unpacker where
  /-- `UB_BUF`, the oldest bit at bit 0. -/
  buf : BitVec 19
  /-- `UB_N`. -/
  n : Nat
deriving DecidableEq, Repr

/-- What the host can drive into the CORE (log 1, log 15). -/
inductive HostEvent where
  /-- A command word on the command port (30_encoding R59). -/
  | command (w : CmdWord)
  /-- The reset input is asserted (70 R157). -/
  | hardReset
deriving DecidableEq, Repr

/-- The state of the CORE.
The fields `state` to `errInfo` are the registers of 10_state R15, which says that there are no others; the counts `W`,
`N`, `PK_N` and `UB_N` are natural numbers, as R15 allows (log 3).
`byteOut` and `symOut` are the two output streams of 10_state R35 (log 2), and `input` is what the host will still
drive, oldest first (log 1). -/
structure State where
  /-- `STATE`. -/
  state : EngineState
  /-- `MODE`. -/
  mode : Mode
  /-- `ROOT`, the root size `r` of the stream. -/
  root : BitVec 4
  /-- `W`, the code width `w`. -/
  w : Nat
  /-- `N`, nextIndex. -/
  n : Nat
  /-- `CUR_V`. -/
  curV : Bool
  /-- `CUR`. -/
  cur : Code
  /-- `PREV_V`. -/
  prevV : Bool
  /-- `PREV`. -/
  prev : Code
  /-- `PK_ACC` and `PK_N`. -/
  pk : Packer
  /-- `UB_BUF` and `UB_N`. -/
  ub : Unpacker
  /-- `DICT`. -/
  dict : Dict
  /-- `ERR`. -/
  err : ErrCode
  /-- `ERRINFO`. -/
  errInfo : BitVec 16
  /-- `BYTE_OUT`. -/
  byteOut : List Byte
  /-- `SYM_OUT`. -/
  symOut : List Sym
  /-- The host's words and resets that are still to come. -/
  input : List HostEvent
deriving DecidableEq, Repr

/-- The state right after hardware reset (10_state R36, 70 R157): STATE is IDLE and every other register is 0.
DICT is unspecified after reset, so the map lists nothing (log 4). -/
def State.reset : State where
  state := .idle
  mode := .enc
  root := 0
  w := 0
  n := 0
  curV := false
  cur := 0
  prevV := false
  prev := 0
  pk := ⟨0, 0⟩
  ub := ⟨0, 0⟩
  dict := []
  err := .none
  errInfo := 0
  byteOut := []
  symOut := []
  input := []

/-- The ways the machine stops without a next state.
An error of 60_exceptions is none of them: it is a next state. -/
inductive Fault where
  /-- Raised by DEC_BYTE when the loop of 43_decoder R116 would never end, which is so exactly when codes of width
  `W = 0` are read (log 7).
  Safe: no reachable state has `W = 0` in DEC_ACTIVE (10_state R32). -/
  | decodeLoopDiverges
deriving DecidableEq, Repr

/-- The ways the model gives no meaning. -/
inductive Refusal where
  /-- Answered by an arm of `exec` whose instruction has no meaning yet.
  Safe: no claim about the instruction can be proved. -/
  | notModelled (mnemonic : String)
  /-- Raised by DIC, KWK and DEC_BYTE when `seq(c)` is undefined (41_dictionary R89, 93 U2, log 5).
  Safe: in a reachable state every code that gets this far is a literal or present (41_dictionary R88). -/
  | seqUndefined
deriving DecidableEq, Repr

end Sys2Proof.Machine
end

