-- ==== Sys2Proof/Machine/Operands.lean ====
section
/-! DEFINITION. Operand assembly (30_encoding R69): what the rules read from the state and from a command. -/

namespace Sys2Proof.Machine

/-- A meaning's answer. -/
abbrev Result := Host.Outcome State Fault Refusal

/-- `r`, the root size of the stream, as the rules use it (10_state R19). -/
def State.r (s : State) : Nat := s.root.toNat

/-- What the classification of a code depends on (30_encoding R55). -/
def State.codeContext (s : State) : CodeContext := ⟨s.r, s.n, s.prevV⟩

/-- The Clear Code of the stream (00_scope R7). -/
def State.clr (s : State) : Code := BitVec.ofNat 12 (clrCode s.r)

/-- The End-of-Information code of the stream (00_scope R7). -/
def State.eoi (s : State) : Code := BitVec.ofNat 12 (eoiCode s.r)

/-- The symbol a literal code stands for: code `c` maps 1:1 to symbol `c` (20_memory R38, log 17). -/
def symOfCode (c : Code) : Sym := c.setWidth 10

/-- The symbol operand of ENC_SYM on the symbol datapath (30_encoding R62, log 17). -/
def symOperand (x : BitVec 12) : Sym := x.setWidth 10

/-- The literal code of a symbol operand: symbol `x` is code `x` (41_dictionary R87). -/
def literalCode (x : BitVec 12) : Code := x

end Sys2Proof.Machine
end

