-- ==== Sys2Proof/Machine/BitChannel.lean ====
section
/-! DEFINITION. The bit channel: the packer and the unpacker (40_bit_channel). -/

namespace Sys2Proof.Machine

/-- `PK_ACC[7:0]`, the byte that leaves next. -/
def Packer.lowByte (p : Packer) : Byte := p.acc.extractLsb' 0 8

/-- `PK_ACC <- PK_ACC >> 8; PK_N <- max(0, PK_N - 8)` (40_bit_channel R75, R76). -/
def Packer.dropByte (p : Packer) : Packer := ⟨p.acc >>> 8, p.n - 8⟩

/-- The first branch of `Pack`: when more than 8 bits are open, one byte leaves (40_bit_channel R75, 90 C3). -/
def Packer.split (p : Packer) : Packer × List Byte :=
  if 8 < p.n then (p.dropByte, [p.lowByte]) else (p, [])

/-- The masked code in the accumulator above the open bits: `PK_ACC | (v << PK_N)`, `PK_N + c` (40_bit_channel R75). -/
def Packer.place (c : Nat) (v : Code) (p : Packer) : Packer :=
  ⟨p.acc ||| ((v &&& BitVec.ofNat 12 (2 ^ c - 1)).setWidth 20 <<< p.n), p.n + c⟩

/-- The last branch of `Pack`: above 8 bits one byte leaves and the rest is carried, at exactly 8 the byte leaves and the
accumulator is fresh (40_bit_channel R75). -/
def Packer.spill (p : Packer) : Packer × List Byte :=
  if 8 < p.n then (p.dropByte, [p.lowByte])
  else if p.n = 8 then (⟨0, 0⟩, [p.lowByte])
  else (p, [])

/-- `Pack(c, v)` on the packer's registers, with the bytes that leave, in order (40_bit_channel R75). -/
def Packer.pack (c : Nat) (v : Code) (p : Packer) : Packer × List Byte :=
  let a := p.split
  let b := (a.1.place c v).spill
  (b.1, a.2 ++ b.2)

/-- The loop of `Flush`: a byte leaves while bits are open, for at most `fuel` rounds. -/
def Packer.drain : Nat → Packer → List Byte
  | 0, _ => []
  | fuel + 1, p => if 0 < p.n then p.lowByte :: Packer.drain fuel p.dropByte else []

/-- `Flush()` on the packer's registers, with the bytes that leave (40_bit_channel R76).
Each round takes at least one bit, so `PK_N` rounds are all there are. -/
def Packer.flush (p : Packer) : Packer × List Byte := (⟨0, 0⟩, p.drain p.n)

/-- `PushByte(b)`: bit `k` of the byte becomes buffer bit `UB_N + k` (40_bit_channel R79). -/
def Unpacker.pushByte (b : Byte) (u : Unpacker) : Unpacker :=
  ⟨u.buf ||| (b.setWidth 19 <<< u.n), u.n + 8⟩

/-- `UnpackRead(w)`: the next code of width `w`, or nothing when fewer bits are buffered (40_bit_channel R80). -/
def Unpacker.read (w : Nat) (u : Unpacker) : Option (Code × Unpacker) :=
  if u.n < w then none
  else some ((u.buf &&& BitVec.ofNat 19 (2 ^ w - 1)).setWidth 12, ⟨u.buf >>> w, u.n - w⟩)

end Sys2Proof.Machine
end

