-- ==== Sys2Proof/Machine/Dictionary.lean ====
section
/-! DEFINITION. The dictionary engine (41_dictionary, 20_memory R39 to R41). -/

namespace Sys2Proof.Machine

/-- The stored entry of code `i`, if there is one. -/
def Dict.read : Dict → Nat → Option DictEntry
  | [], _ => none
  | (j, e) :: rest, i => if i = j then some e else Dict.read rest i

/-- The map with entry `e` at code `i`, its codes still strictly rising. -/
def Dict.insert : Dict → Nat → DictEntry → Dict
  | [], i, e => [(i, e)]
  | (j, f) :: rest, i, e =>
    if i < j then (i, e) :: (j, f) :: rest
    else if i = j then (i, e) :: rest
    else (j, f) :: Dict.insert rest i e

/-- The canonical form: codes strictly rising and inside the code space (20_memory R37, log 4). -/
abbrev Dict.wf (d : Dict) : Prop := d.Pairwise (fun a b => a.1 < b.1) ∧ ∀ p ∈ d, p.1 < Config.codes

/-- Code `i` is in the range of the present entries: `FIRST ≤ i < min(N, 4096)` (10_state R26). -/
abbrev State.present (s : State) (i : Nat) : Prop := firstCode s.r ≤ i ∧ i < min s.n Config.codes

/-- `seq(c)` by the recursion of 41_dictionary R89, to depth `fuel`; `none` where it is undefined. -/
def State.seqTo (s : State) : Nat → Nat → Option (List Sym)
  | 0, _ => none
  | fuel + 1, c =>
    if c < clrCode s.r then some [symOfCode (BitVec.ofNat 12 c)]
    else if s.present c then
      match s.dict.read c with
      | none => none
      | some e =>
        match s.seqTo fuel e.prefixCode.toNat with
        | none => none
        | some q => some (q ++ [e.suffix])
    else none

/-- `seq(c)` (41_dictionary R89).
A chain of prefixes without a repeated code has at most 4096 codes, so the depth is no bound of its own. -/
def State.seq (s : State) (c : Code) : Option (List Sym) := s.seqTo (Config.codes + 1) c.toNat

/-- `lookupByCode(c)`, the decoder's read: `seq(c)` for a literal or a present code and `none` for any other (41_dictionary R90). -/
def State.lookupByCode (s : State) (c : Code) : Option (List Sym) := s.seq c

/-- `CamSearch(p, s)`: the code of the present entry that holds the key, if one does (41_dictionary R91, 20_memory R40).
There is at most one (41_dictionary R94); in a state with more, the lowest answers (log 6). -/
def State.camSearch (s : State) (p : Code) (x : Sym) : Option Code :=
  match s.dict.find? (fun e => decide (firstCode s.r ≤ e.1 ∧ e.1 < s.n ∧ e.2 = ⟨p, x⟩)) with
  | some e => some (BitVec.ofNat 12 e.1)
  | none => none

/-- `lookupByPrefix(current ++ [x])` (41_dictionary R91): with an empty `current` the candidate is the literal `x`. -/
def State.lookupByPrefix (s : State) (x : BitVec 12) : Option Code :=
  if s.curV then s.camSearch s.cur (symOperand x) else some (literalCode x)

/-- `DictWrite(i, (p, x))`: nothing when `i ≥ 4096` (41_dictionary R92). -/
def dictWrite (i : Nat) (e : DictEntry) (s : State) : State :=
  if i < Config.codes then { s with dict := s.dict.insert i e } else s

/-- `reset(r)` with `r = ROOT`: `N <- FIRST; W <- W0` (41_dictionary R93).
Every stored entry becomes stale (20_memory R41), so the map of the present codes becomes empty (41_dictionary R98, log 4). -/
def streamReset (s : State) : State :=
  { s with n := firstCode s.r, w := initialWidth s.r, dict := [] }

end Sys2Proof.Machine
end

