-- ==== Sys2Proof/Machine/Flags.lean ====
section
/-! DEFINITION. The status port and the level outputs: every flag the CORE shows (10_state R27, R30, 60 R152). -/

namespace Sys2Proof.Machine

/-- The 3 bits of STATE (10_state R16). -/
def EngineState.bits : EngineState → BitVec 3
  | .idle => 0
  | .encActive => 1
  | .decActive => 2
  | .done => 3
  | .error => 4

/-- The bit of MODE (10_state R18). -/
def Mode.bits : Mode → BitVec 1
  | .enc => 0
  | .dec => 1

/-- The 4 bits of ERR (60_exceptions R141). -/
def ErrCode.bits : ErrCode → BitVec 4
  | .none => 0
  | .invalidSymbol => 1
  | .truncatedStream => 2
  | .corruptCode => 3
  | .illegalCommand => 4
  | .invalidRootSize => 5

/-- STATUS: `0[31:29] NEXT[28:16] WIDTH[15:12] ERR[11:8] ROOT[7:4] MODE[3] STATE[2:0]` (10_state R27). -/
def State.status (s : State) : StatusWord :=
  0#3 ++ BitVec.ofNat 13 s.n ++ BitVec.ofNat 4 s.w ++ s.err.bits ++ s.root ++ s.mode.bits ++ s.state.bits

/-- The ERRINFO word: ERRINFO in bits 15:0 and zero above (10_state R27). -/
def State.errInfoWord (s : State) : StatusWord := 0#16 ++ s.errInfo

/-- A read of the status port with select `sel`: 0 is STATUS, 1 is ERRINFO, any other reads as zero (10_state R27, log 14). -/
def State.readStatus (s : State) (sel : Nat) : StatusWord :=
  match sel with
  | 0 => s.status
  | 1 => s.errInfoWord
  | _ => 0

/-- The `done` output, `STATE == DONE` (10_state R30, 60_exceptions R152).
DESIGN CHOICE (log 21): R152 also says that `done` is cleared only by the next START or by hardware reset, while a command
in DONE that raises ILLEGAL_COMMAND leaves DONE (30_encoding R67, 60_exceptions R147); the model follows the formula, so
`done` falls then. -/
def State.done (s : State) : Bool := s.state == .done

/-- The `err` output (60_exceptions R152). -/
def State.errLine (s : State) : Bool := s.state == .error

/-- `busy` (10_state R30). -/
def State.busy (s : State) : Bool := s.state == .encActive || s.state == .decActive

end Sys2Proof.Machine
end

