-- ==== Sys2Proof/Machine/Ops.lean ====
section
/-! DEFINITION. The shared operations of the meanings: errors, output, the bit channel and the dispatch checks. -/

namespace Sys2Proof.Machine

/-- The next stage of a command, if the one before it did not stop. -/
def andThen (o : Result) (k : State → Result) : Result :=
  match o with
  | .next s => k s
  | .fault f => .fault f
  | .refused q => .refused q

/-! ### Errors -/

/-- `raise E(info)`: what taking an error does (60_exceptions R142).
STATE, ERR and ERRINFO are written and nothing else is; the CORE saves no return state and goes nowhere (R140). -/
def raise (e : ErrCode) (info : BitVec 16) (s : State) : State :=
  { s with state := .error, err := e, errInfo := info }

/-- A legal START's fresh stream, which is also the only way out of ERROR beside hardware reset (60_exceptions R150).
These are the writes that START_ENC and START_DEC share (42_encoder R100, 43_decoder R115): everything but the first
Clear Code of START_ENC. -/
def beginStream (m : Mode) (active : EngineState) (r : BitVec 4) (s : State) : State :=
  let t := streamReset { s with root := r, mode := m, err := .none, errInfo := 0 }
  { t with curV := false, cur := 0, prevV := false, prev := 0, ub := ⟨0, 0⟩, pk := ⟨0, 0⟩, state := active }

/-- Hardware reset (70 R157): every register takes its reset value and nothing is output.
What the streams have delivered stays delivered (10_state R35), and the host's later words still come (log 15). -/
def hardReset (s : State) : State :=
  { State.reset with byteOut := s.byteOut, symOut := s.symOut, input := s.input }

/-! ### Output -/

/-- `OutByte` for each byte of a list, in order (00_scope R11). -/
def outBytes (bs : List Byte) (s : State) : State := { s with byteOut := s.byteOut ++ bs }

/-- `Output(q)`: every symbol of the sequence, first to last (00_scope R11). -/
def outSyms (q : List Sym) (s : State) : State := { s with symOut := s.symOut ++ q }

/-! ### The bit channel on the state -/

/-- `Pack(c, v)` (40_bit_channel R75). -/
def pack (c : Nat) (v : Code) (s : State) : State :=
  outBytes (s.pk.pack c v).2 { s with pk := (s.pk.pack c v).1 }

/-- `Flush()` (40_bit_channel R76). -/
def flush (s : State) : State :=
  outBytes s.pk.flush.2 { s with pk := s.pk.flush.1 }

/-- `PushByte(b)` (40_bit_channel R79). -/
def pushByte (b : Byte) (s : State) : State := { s with ub := s.ub.pushByte b }

/-! ### Dispatch (30_encoding R67) -/

/-- A command that is ignored: no state change and no output (60_exceptions R149, 43_decoder R130). -/
def ignored (s : State) : Result := .next s

/-- The ERROR filter: in ERROR, everything but a well-formed START is ignored (30_encoding R67, 60_exceptions R149). -/
def unlessError (k : State → Result) (s : State) : Result :=
  if s.state = .error then ignored s else k s

/-- ILLEGAL_COMMAND with the command word, ignored in ERROR (60_exceptions R147, R149). -/
def illegalCommand (cmd : CmdWord) : State → Result :=
  unlessError fun s => .next (raise .illegalCommand cmd s)

/-- A START: INVALID_ROOT_SIZE unless `2 ≤ r ≤ 10`, in every state (30_encoding R67, 60_exceptions R148). -/
def startCommand (cmd : CmdWord) (r : BitVec 4) (k : State → Result) (s : State) : Result :=
  if rootOk r.toNat then k s else .next (raise .invalidRootSize cmd s)

/-- ENC_SYM and ENC_END run in ENC_ACTIVE only (30_encoding R67, R68). -/
def encCommand (cmd : CmdWord) (k : State → Result) : State → Result :=
  unlessError fun s => if s.state = .encActive then k s else .next (raise .illegalCommand cmd s)

/-- DEC_BYTE and DEC_END run in DEC_ACTIVE only, and input after EOI is ignored (30_encoding R67, R68). -/
def decCommand (cmd : CmdWord) (k : State → Result) : State → Result :=
  unlessError fun s =>
    if s.state = .done ∧ s.mode = .dec then ignored s
    else if s.state = .decActive then k s
    else .next (raise .illegalCommand cmd s)

end Sys2Proof.Machine
end

