-- ==== Sys2Proof/Machine/CodeWords.lean ====
section
/-! DEFINITION. The code words of the stream: the arms of `DecodeOne` (43_decoder R117 to R128). -/

namespace Sys2Proof.Machine

/-- CORRUPT_CODE with the code (60_exceptions R146). -/
def corruptCode (c : Code) (s : State) : Result := .next (raise .corruptCode (c.setWidth 16) s)

/-- `N <- min(N + 1, 4096)` and then the width update (43_decoder R125, R126). -/
def decodeAdvance (s : State) : State :=
  let t := { s with n := min (s.n + 1) Config.codes }
  if t.n = 2 ^ t.w - 1 then { t with w := min Config.maxw (t.w + 1) } else t

/-- Output and `previous` (43_decoder R127). -/
def decodeEmit (emitted : List Sym) (c : Code) (s : State) : State :=
  { outSyms emitted s with prev := c, prevV := true }

/-- The common end of LIT, DIC and KWK with `PREV_V = 1`: insertion, increment, width update, output (43_decoder R124 to
R127).
`none` and the empty sequence are no sequence of a code, and refuse (41_dictionary R89, log 5). -/
def decodeRun (emitted : Option (List Sym)) (c : Code) (s : State) : Result :=
  match emitted with
  | some (f :: q) => .next (decodeEmit (f :: q) c (decodeAdvance (dictWrite s.n ⟨s.prev, f⟩ s)))
  | some [] => .refused .seqUndefined
  | none => .refused .seqUndefined

/-- `previous ++ [first symbol of previous]` (43_decoder R123). -/
def State.fallback (s : State) : Option (List Sym) :=
  match s.seq s.prev with
  | some (f :: q) => some (f :: q ++ [f])
  | some [] => none
  | none => none

/-- LIT: the first code after a reset inserts nothing (43_decoder R120), any later one inserts (43_decoder R122, R124). -/
def execLit (c : Code) (s : State) : Result :=
  if s.prevV then decodeRun (some [symOfCode c]) c s else .next (decodeEmit [symOfCode c] c s)

/-- CLR: the stream reset and an empty `previous` (43_decoder R118). -/
def execClr (s : State) : Result := .next { streamReset s with prevV := false, prev := 0 }

/-- EOI: the unpacker is cleared and the session is done (43_decoder R119, 40_bit_channel R84). -/
def execEoi (s : State) : Result := .next { s with ub := ⟨0, 0⟩, state := .done }

/-- DIC: a present code (43_decoder R122); with an empty `previous` no dictionary code is legal (43_decoder R121, log 16). -/
def execDic (c : Code) (s : State) : Result :=
  if s.prevV then decodeRun (s.lookupByCode c) c s else corruptCode c s

/-- KWK: the unknown-code fallback (43_decoder R123); with an empty `previous` there is none (43_decoder R121, log 16). -/
def execKwk (c : Code) (s : State) : Result :=
  if s.prevV then decodeRun s.fallback c s else corruptCode c s

/-- BAD: CORRUPT_CODE, and nothing is inserted or output (43_decoder R121, R128). -/
def execBad (c : Code) (s : State) : Result := corruptCode c s

end Sys2Proof.Machine
end

