-- ==== Sys2Proof/Machine/Decoder.lean ====
section
/-! DEFINITION. The decoder pipeline: START_DEC, DEC_BYTE, DEC_END (43_decoder). -/

namespace Sys2Proof.Machine

/-- `DecodeOne(c)`: one code, by its class (43_decoder R117). -/
def decodeOne (c : Code) (s : State) : Result :=
  match classify s.codeContext c.toNat with
  | .LIT => execLit c s
  | .CLR => execClr s
  | .EOI => execEoi s
  | .DIC => execDic c s
  | .KWK => execKwk c s
  | .BAD => execBad c s

/-- The loop of DEC_BYTE: codes are read at the width `W` holds at that moment, while the stream is active and bits
suffice (43_decoder R116, 30_encoding R58). -/
def decodeLoop : Nat → State → Result
  | 0, _ => .fault .decodeLoopDiverges
  | fuel + 1, s =>
    if s.state = .decActive then
      match s.ub.read s.w with
      | none => .next s
      | some (c, u) => andThen (decodeOne c { s with ub := u }) (decodeLoop fuel)
    else .next s

/-- DEC_BYTE in DEC_ACTIVE (43_decoder R116).
A code of one bit or more takes a bit from the buffer, so `UB_N` codes and one last test are all there are (log 7). -/
def decodeByte (b : Byte) (s : State) : Result :=
  let t := pushByte b s
  decodeLoop (t.ub.n + 1) t

/-- START_DEC (43_decoder R115, dispatch 30_encoding R67). -/
def execStartDec (r : BitVec 4) (s : State) : Result :=
  startCommand (cmdWordOf (.startDec r)) r (fun s => .next (beginStream .dec .decActive r s)) s

/-- DEC_BYTE (43_decoder R116, dispatch 30_encoding R67). -/
def execDecByte (b : Byte) (s : State) : Result := decCommand (cmdWordOf (.decByte b)) (decodeByte b) s

/-- DEC_END (43_decoder R129, dispatch 30_encoding R67): with no EOI read, TRUNCATED_STREAM with `UB_N`. -/
def execDecEnd (s : State) : Result :=
  decCommand (cmdWordOf .decEnd) (fun s => .next (raise .truncatedStream (BitVec.ofNat 16 s.ub.n) s)) s

end Sys2Proof.Machine
end

