-- ==== Sys2Proof/Machine/Encoder.lean ====
section
/-! DEFINITION. The encoder pipeline: START_ENC, ENC_SYM, ENC_END (42_encoder). -/

namespace Sys2Proof.Machine

/-- START_ENC with a legal `r` (42_encoder R100): a fresh stream, then the Clear Code at `W0`. -/
def startEncode (r : BitVec 4) (s : State) : State :=
  let t := beginStream .enc .encActive r s
  pack t.w t.clr t

/-- Step S1: `current` becomes the literal `x` (42_encoder R102). -/
def takeLiteral (x : BitVec 12) (s : State) : State := { s with cur := literalCode x, curV := true }

/-- Step S3: the code of `current` at the current width, the insertion, the new `current`, the increment (42_encoder R104). -/
def encodeMiss (x : BitVec 12) (s : State) : State :=
  let a := pack s.w s.cur s
  let b := dictWrite a.n ⟨a.cur, symOperand x⟩ a
  { b with cur := literalCode x, n := b.n + 1 }

/-- Step S5: the Clear Code at width 12, the stream reset, and `x` again from an empty `current` (42_encoder R106). -/
def overflowReset (x : BitVec 12) (s : State) : State :=
  takeLiteral x { streamReset (pack Config.maxw s.clr s) with curV := false }

/-- Step S4: the width update after an insertion, which at width 13 is step S5 instead (42_encoder R105). -/
def encodeWidthStep (x : BitVec 12) (s : State) : State :=
  if s.n = 2 ^ s.w then
    if s.w + 1 = Config.maxw + 1 then overflowReset x s else { s with w := s.w + 1 }
  else s

/-- Steps S1 to S5 for a symbol `x < 2^r` (42_encoder R101). -/
def encodeSymbol (x : BitVec 12) (s : State) : State :=
  if s.curV then
    match s.camSearch s.cur (symOperand x) with
    | some k => { s with cur := k }
    | none => encodeWidthStep x (encodeMiss x s)
  else takeLiteral x s

/-- `wE`, the width of EOI: the phantom width bump (42_encoder R108). -/
def State.eoiWidth (s : State) : Nat := if s.n + 1 = 2 ^ s.w then min Config.maxw (s.w + 1) else s.w

/-- ENC_END: the final code, EOI at `wE`, the flush (42_encoder R107 to R109). -/
def encodeEnd (s : State) : State :=
  let a := if s.curV then pack s.w s.cur s else s
  let e := a.eoiWidth
  let b := flush { pack e a.eoi a with w := e }
  { b with state := .done }

/-- START_ENC (42_encoder R100, dispatch 30_encoding R67). -/
def execStartEnc (r : BitVec 4) (s : State) : Result :=
  startCommand (cmdWordOf (.startEnc r)) r (fun s => .next (startEncode r s)) s

/-- ENC_SYM (42_encoder R101, dispatch 30_encoding R67): INVALID_SYMBOL before any other change. -/
def execEncSym (x : BitVec 12) (s : State) : Result :=
  encCommand (cmdWordOf (.encSym x))
    (fun s =>
      if x.toNat < 2 ^ s.r then .next (encodeSymbol x s) else .next (raise .invalidSymbol (x.setWidth 16) s)) s

/-- ENC_END (42_encoder R107, dispatch 30_encoding R67). -/
def execEncEnd (s : State) : Result :=
  encCommand (cmdWordOf .encEnd) (fun s => .next (encodeEnd s)) s

/-- A `(width, code)` pair: `Pack(width, code)` (40_bit_channel R75, log 8, log 11). -/
def execPair (width : BitVec 4) (code : Code) (s : State) : Result := .next (pack width.toNat code s)

end Sys2Proof.Machine
end

