-- ==== Sys2Proof/Machine/Reserved.lean ====
section
/-! DEFINITION. Reserved operations and malformed commands (30_encoding R65, R66). -/

namespace Sys2Proof.Machine

/-- The reserved operation 0: ILLEGAL_COMMAND with the command word (30_encoding R65). -/
def execReservedOp0 (arg : BitVec 12) (s : State) : Result := illegalCommand (cmdWordOf (.reservedOp0 arg)) s

/-- The reserved operations 7 to 15: ILLEGAL_COMMAND with the command word (30_encoding R65). -/
def execReservedOps (op : BitVec 4) (arg : BitVec 12) (s : State) : Result :=
  illegalCommand (cmdWordOf (.reservedOps op arg)) s

/-- A command the decoder rejects: a malformed one raises ILLEGAL_COMMAND with its word (30_encoding R66, log 10). -/
def execRejected (why : Reject) (s : State) : Result :=
  match why with
  | .malformed w => illegalCommand w s

end Sys2Proof.Machine
end

