-- ==== Sys2Proof/Machine/Dispatch.lean ====
section
/-! DEFINITION. The meaning of every instruction, one arm per row of the opcode table. -/

namespace Sys2Proof.Machine

def exec (i : Instr) (s : State) : Host.Outcome State Fault Refusal :=
  match i with
  | .startEnc r => Sys2Proof.Machine.execStartEnc r s
  | .startDec r => Sys2Proof.Machine.execStartDec r s
  | .encSym x => Sys2Proof.Machine.execEncSym x s
  | .encEnd => Sys2Proof.Machine.execEncEnd s
  | .decByte b => Sys2Proof.Machine.execDecByte b s
  | .decEnd => Sys2Proof.Machine.execDecEnd s
  | .reservedOp0 arg => Sys2Proof.Machine.execReservedOp0 arg s
  | .reservedOps op arg => Sys2Proof.Machine.execReservedOps op arg s
  | .lit c => Sys2Proof.Machine.execLit c s
  | .clr => Sys2Proof.Machine.execClr s
  | .eoi => Sys2Proof.Machine.execEoi s
  | .dic c => Sys2Proof.Machine.execDic c s
  | .kwk c => Sys2Proof.Machine.execKwk c s
  | .bad c => Sys2Proof.Machine.execBad c s
  | .pair width code => Sys2Proof.Machine.execPair width code s

end Sys2Proof.Machine
end

