-- ==== Sys2Proof/Machine/Fetch.lean ====
section
/-! DEFINITION. Taking the host's next event: a command word or the reset input (30_encoding R59, R67, 70 R157). -/

namespace Sys2Proof.Machine

/-- One command word, from the port to its effect (30_encoding R67). -/
def runCommand (w : CmdWord) (s : State) : Result :=
  match decodeCommand w with
  | .ok i => exec i s
  | .rejected why => execRejected why s

/-- One event of the host. -/
def runEvent (e : HostEvent) (s : State) : Result :=
  match e with
  | .command w => runCommand w s
  | .hardReset => .next (hardReset s)

/-- The host's next event is taken and applied; with none, nothing happens: state changes only through commands and
hardware reset (10_state R27, log 1). -/
def takeEvent (s : State) : Result :=
  match s.input with
  | [] => .next s
  | e :: rest => runEvent e { s with input := rest }

/-- `s` with a command word delivered before everything else the host sends. -/
def deliver (w : CmdWord) (s : State) : State := { s with input := .command w :: s.input }

/-- Command words one after another, each completed before the next (00_scope R8). -/
def runCommands : List CmdWord → State → Result
  | [], s => .next s
  | w :: rest, s => andThen (runCommand w s) (runCommands rest)

end Sys2Proof.Machine
end

