-- ==== Sys2Proof/Machine/Step.lean ====
section
/-! DEFINITION. One step of the CORE: one event of the host, applied completely (00_scope R8). -/

namespace Sys2Proof.Machine

/-- The step: the host's next command or reset is applied atomically (00_scope R8, 20_memory R47). -/
def step (s : State) : Host.Outcome State Fault Refusal := takeEvent s

/-- `s` with the instruction whose bits are `w` as the next word on the command port (log 9). -/
def State.withFetchWord (s : State) (_nbits w : Nat) : State := deliver (BitVec.ofNat 16 w) s

end Sys2Proof.Machine
end

