-- ==== Sys2Proof/Machine/Session.lean ====
section
/-! DEFINITION. Sessions and runs: their commands, their results, what a host observes of them (30_encoding R72, 44 R132,
R133, 70 R169), and the pairs an encode session emits (42_encoder R99). -/

namespace Sys2Proof.Machine

/-! ### The two functions of the source -/

/-- The pseudo-instruction `ENCODE r, xs` (30_encoding R72). -/
def encodeSession (r : BitVec 4) (xs : List (BitVec 12)) : List CmdWord :=
  cmdWordOf (.startEnc r) :: (xs.map fun x => cmdWordOf (.encSym x)) ++ [cmdWordOf .encEnd]

/-- The pseudo-instruction `DECODE r, bs` (30_encoding R72). -/
def decodeSession (r : BitVec 4) (bs : List Byte) : List CmdWord :=
  cmdWordOf (.startDec r) :: (bs.map fun b => cmdWordOf (.decByte b)) ++ [cmdWordOf .decEnd]

/-- The result of a session: its output, or the error (44 R132, R133). -/
inductive SessionResult (α : Type) where
  | ok (out : List α)
  | err (e : ErrCode)
  | unfinished
deriving DecidableEq, Repr

/-- The result of a session that took the CORE from `s` to `t`, where `out` is its output stream: what the session added,
if it ended in DONE, and the error if it ended in ERROR (44 R132, R133, 70 R169). -/
def sessionResult {α : Type} (out : State → List α) (s t : State) : SessionResult α :=
  match t.state with
  | .done => .ok ((out t).drop (out s).length)
  | .error => .err t.err
  | _ => .unfinished

/-- `encode(r, xs)` on a CORE in state `s` (44 R132). -/
def encodeFn (r : BitVec 4) (xs : List (BitVec 12)) (s : State) : SessionResult Byte :=
  match runCommands (encodeSession r xs) s with
  | .next t => sessionResult State.byteOut s t
  | .fault _ => .unfinished
  | .refused _ => .unfinished

/-- `decode(r, bs)` on a CORE in state `s` (44 R133). -/
def decodeFn (r : BitVec 4) (bs : List Byte) (s : State) : SessionResult Sym :=
  match runCommands (decodeSession r bs) s with
  | .next t => sessionResult State.symOut s t
  | .fault _ => .unfinished
  | .refused _ => .unfinished

/-! ### The observation of a run -/

/-- The `Output` of the commands that took the CORE from one state to another: what they added to the two streams
(10_state R35, log 2).
Bits that an unfinished session has left in the packer are not part of it (70 R169). -/
structure Output where
  bytes : List Byte
  syms : List Sym
deriving DecidableEq, Repr

/-- The output of the commands between two states (10_state R35). -/
def outputBetween (s t : State) : Output := ⟨t.byteOut.drop s.byteOut.length, t.symOut.drop s.symOut.length⟩

/-- The observation of a session (10_state R35): the final STATUS and ERRINFO and the output of its commands. -/
structure Observation where
  status : StatusWord
  errInfo : StatusWord
  output : Output
deriving DecidableEq, Repr

/-- The observation of the session that took the CORE from `s` to `t` (10_state R35). -/
def observe (s t : State) : Observation := ⟨t.readStatus 0, t.readStatus 1, outputBetween s t⟩

/-- How a session stands (70 R169). -/
inductive SessionEnd where
  /-- Finished, in DONE. -/
  | success
  /-- Finished, in ERROR, with the error code. -/
  | failure (e : ErrCode)
  /-- Still in ENC_ACTIVE or DEC_ACTIVE: neither `Ok` nor `Err`. -/
  | unfinished
  /-- Still in IDLE: no START was taken since reset, so there is no session. -/
  | notBegun
deriving DecidableEq, Repr

/-- How the session stands in state `s` (70 R169). -/
def State.sessionEnd (s : State) : SessionEnd :=
  match s.state with
  | .idle => .notBegun
  | .encActive => .unfinished
  | .decActive => .unfinished
  | .done => .success
  | .error => .failure s.err

/-- A session is finished when its last command leaves DONE or ERROR (70 R169). -/
def State.finished (s : State) : Bool := s.state == .done || s.state == .error

/-- How the session of the commands `ws` stands at their end.
A session goes from its START to DONE or ERROR (00_scope, glossary), so what comes after that does not change how it ended
(log 19). -/
def endOfSession : List CmdWord → State → SessionEnd
  | [], s => s.sessionEnd
  | w :: rest, s =>
    match runCommand w s with
    | .next t => if t.finished then t.sessionEnd else endOfSession rest t
    | .fault _ => s.sessionEnd
    | .refused _ => s.sessionEnd

/-- The command begins a session: a START with no reserved bit set, whatever its root size (44 R132, log 19). -/
def beginsSession (w : CmdWord) : Bool :=
  match decodeCommand w with
  | .ok (.startEnc _) => true
  | .ok (.startDec _) => true
  | _ => false

/-- A run's commands split at each START: those before the first one, and then one list for each session, its START first
(70 R169). -/
def splitAtStarts : List CmdWord → List CmdWord × List (List CmdWord)
  | [] => ([], [])
  | w :: rest =>
    let p := splitAtStarts rest
    if beginsSession w then ([], (w :: p.1) :: p.2) else (w :: p.1, p.2)

/-- What one session of a run shows: its output, and how it stands (70 R169). -/
structure SessionObservation where
  output : Output
  ending : SessionEnd
deriving DecidableEq, Repr

/-- The observation of a run (70 R169): the final STATUS and ERRINFO, and the output split per session at each START. -/
structure RunObservation where
  /-- The final STATUS. -/
  status : StatusWord
  /-- The final ERRINFO. -/
  errInfo : StatusWord
  /-- The output before the run's first START, of the session that the start state was in. -/
  carried : Output
  /-- One for each START of the run, in order. -/
  sessions : List SessionObservation
deriving DecidableEq, Repr

/-- The sessions of a run, one after another, with the state after the last; a fault or a refusal ends the run. -/
def runSessions : List (List CmdWord) → State → Host.Outcome (State × List SessionObservation) Fault Refusal
  | [], s => .next (s, [])
  | b :: bs, s =>
    match runCommands b s with
    | .next t =>
      match runSessions bs t with
      | .next q => .next (q.1, ⟨outputBetween s t, endOfSession b s⟩ :: q.2)
      | .fault f => .fault f
      | .refused q => .refused q
    | .fault f => .fault f
    | .refused q => .refused q

/-- The observation of the run of `ws` from `s` (70 R169). -/
def observeRun (ws : List CmdWord) (s : State) : Host.Outcome RunObservation Fault Refusal :=
  match runCommands (splitAtStarts ws).1 s with
  | .next t =>
    match runSessions (splitAtStarts ws).2 t with
    | .next q => .next ⟨q.1.readStatus 0, q.1.readStatus 1, outputBetween s t, q.2⟩
    | .fault f => .fault f
    | .refused q => .refused q
  | .fault f => .fault f
  | .refused q => .refused q

/-! ### The pairs of an encode session (42_encoder R99)

The pairs are those the encoder passes to `Pack`, read off its state before each command. -/

/-- The pairs of START_ENC: the Clear Code at `W0` (42_encoder R100). -/
def startPairs (r : BitVec 4) : List (Nat × Code) :=
  [(initialWidth r.toNat, BitVec.ofNat 12 (clrCode r.toNat))]

/-- The pairs of ENC_SYM: none when the candidate is known (42_encoder R102, R103); on a miss the code of `current` at the
current width (R104), and a Clear Code at width 12 when the table is full then (R106). -/
def State.symbolPairs (s : State) (x : BitVec 12) : List (Nat × Code) :=
  match s.lookupByPrefix x with
  | some _ => []
  | none => (s.w, s.cur) :: if s.n + 1 = 2 ^ s.w ∧ s.w = Config.maxw then [(Config.maxw, s.clr)] else []

/-- The pairs of ENC_END: the code of `current` if there is one, and EOI at the phantom width (42_encoder R107, R108). -/
def State.finalPairs (s : State) : List (Nat × Code) :=
  (if s.curV then [(s.w, s.cur)] else []) ++ [(s.eoiWidth, s.eoi)]

/-- The encoder after the symbols of a list, one ENC_SYM each. -/
def encodeSymbols (xs : List (BitVec 12)) (s : State) : State := xs.foldl (fun t x => encodeSymbol x t) s

/-- The pairs of those ENC_SYM, in order. -/
def State.symbolsPairs : List (BitVec 12) → State → List (Nat × Code)
  | [], _ => []
  | x :: xs, s => s.symbolPairs x ++ State.symbolsPairs xs (encodeSymbol x s)

/-- The pairs of the session `ENCODE r, xs` from state `s`, in order (42_encoder R99). -/
def sessionPairs (r : BitVec 4) (xs : List (BitVec 12)) (s : State) : List (Nat × Code) :=
  startPairs r ++ State.symbolsPairs xs (startEncode r s) ++ (encodeSymbols xs (startEncode r s)).finalPairs

end Sys2Proof.Machine
end

