-- ==== Sys2Proof/Safety.lean ====
section
/-! DEFINITION. What a good state of the CORE is: the invariants of 10_state R15, R31 to R33 and 41_dictionary R88, R94,
and the launch premises of 70 R170. -/

namespace Sys2Proof.Machine

/-- `ROOT`, `W` and `N` hold legal values: 0 from hardware reset to the first legal START, and then `2 ≤ r ≤ 10`,
`W0 ≤ w ≤ 12` and `FIRST ≤ N ≤ 4096` (10_state R15). -/
abbrev State.streamLegal (s : State) : Prop :=
  (s.root = 0 ∧ s.w = 0 ∧ s.n = 0 ∧ (s.state = .idle ∨ s.state = .error)) ∨
  (rootOk s.r ∧ initialWidth s.r ≤ s.w ∧ s.w ≤ Config.maxw ∧ firstCode s.r ≤ s.n ∧ s.n ≤ Config.codes ∧ s.state ≠ .idle)

/-- The error record: STATE is ERROR exactly when ERR names an error, and with no error ERRINFO is 0 (10_state R28, R29;
60 R142). -/
abbrev State.recordLegal (s : State) : Prop :=
  (s.state = .error ↔ s.err ≠ .none) ∧ (s.err = .none → s.errInfo = 0)

/-- An empty `current` or `previous` has the value 0 (10_state R21, R22; 92 D35). -/
abbrev State.emptyRunsZero (s : State) : Prop := (s.curV = false → s.cur = 0) ∧ (s.prevV = false → s.prev = 0)

/-- `PK_N ≤ 12` and `PK_ACC < 2^PK_N` (10_state R24). -/
abbrev Packer.ok (p : Packer) : Prop := p.n ≤ 12 ∧ p.acc.toNat < 2 ^ p.n

/-- `UB_N ≤ 19` and no bit of `UB_BUF` at or above `UB_N` (10_state R25). -/
abbrev Unpacker.ok (u : Unpacker) : Prop := u.n ≤ 19 ∧ u.buf.toNat < 2 ^ u.n

/-- The map lists exactly the present codes, in rising order (10_state R26, 41_dictionary R98). -/
abbrev State.dictListsPresent (s : State) : Prop :=
  s.dict.map Prod.fst = List.range' (firstCode s.r) (min s.n Config.codes - firstCode s.r)

/-- Every entry has a prefix below its own code that is no control code, and a suffix that is a symbol (41_dictionary R88). -/
abbrev State.entriesLegal (s : State) : Prop :=
  ∀ p ∈ s.dict, p.2.prefixCode.toNat < p.1 ∧ p.2.prefixCode.toNat ≠ clrCode s.r ∧ p.2.prefixCode.toNat ≠ eoiCode s.r ∧
    p.2.suffix.toNat < 2 ^ s.r

/-- The dictionary of a reachable state. -/
abbrev State.dictLegal (s : State) : Prop := s.dictListsPresent ∧ s.entriesLegal

/-- No two present entries hold the same pair (41_dictionary R94). -/
abbrev State.keysUnique (s : State) : Prop := (s.dict.map Prod.snd).Nodup

/-- A literal or a present code: what `seq` is defined on (41_dictionary R89). -/
abbrev State.denotes (s : State) (c : Code) : Prop := c.toNat < clrCode s.r ∨ s.present c.toNat

/-- A code that is a literal or a present dictionary code below `N` (10_state R31, R32). -/
abbrev State.runCode (s : State) (c : Code) : Prop :=
  c.toNat < s.n ∧ c.toNat ≠ clrCode s.r ∧ c.toNat ≠ eoiCode s.r

/-- The encoder invariant, between commands in ENC_ACTIVE (10_state R31). -/
abbrev State.encoderInv (s : State) : Prop :=
  s.mode = .enc ∧ s.n < Config.codes ∧ 2 ^ (s.w - 1) ≤ s.n ∧ s.n < 2 ^ s.w ∧
    (s.curV = true → s.runCode s.cur) ∧ (s.curV = false → s.n = firstCode s.r)

/-- The decoder invariant, between commands in DEC_ACTIVE (10_state R32). -/
abbrev State.decoderInv (s : State) : Prop :=
  s.mode = .dec ∧ (s.w < Config.maxw → 2 ^ (s.w - 1) - 1 ≤ s.n ∧ s.n < 2 ^ s.w - 1) ∧
    (s.w = Config.maxw → 2047 ≤ s.n) ∧
    (s.prevV = false → s.n = firstCode s.r) ∧ (s.prevV = true → s.runCode s.prev) ∧ s.ub.n < s.w

/-- The invariant of the CORE between commands. -/
structure State.Inv (s : State) : Prop where
  stream : s.streamLegal
  record : s.recordLegal
  empty : s.emptyRunsZero
  packer : s.pk.ok
  unpacker : s.ub.ok
  listed : s.dictListsPresent
  entries : s.entriesLegal
  unique : s.mode = .enc → s.keysUnique
  encoder : s.state = .encActive → s.encoderInv
  decoder : s.state = .decActive → s.decoderInv

/-! ### The bit stream as a number (20_memory R44, 40_bit_channel R77) -/

/-- The number whose little-endian bytes are `bs`: bit `k` of the stream is bit `k` of the number. -/
def bytesValue : List Byte → Nat
  | [] => 0
  | b :: bs => b.toNat + 2 ^ 8 * bytesValue bs

/-- The total width `T` of a list of `(width, code)` pairs. -/
def pairsWidth : List (Nat × Code) → Nat
  | [] => 0
  | p :: ps => p.1 + pairsWidth ps

/-- `V`, the sum of `v_j · 2^(p_j)` over the pairs (40_bit_channel R77). -/
def pairsValue : List (Nat × Code) → Nat
  | [] => 0
  | p :: ps => p.2.toNat + 2 ^ p.1 * pairsValue ps

/-- `Pack` for each pair in order, with all the bytes that leave (30_encoding R57). -/
def packAll : List (Nat × Code) → Packer → Packer × List Byte
  | [], p => (p, [])
  | a :: as, p =>
    let q := p.pack a.1 a.2
    let z := packAll as q.1
    (z.1, q.2 ++ z.2)

/-- The packer's operand contract (40_bit_channel R74). -/
abbrev pairsLegal (ps : List (Nat × Code)) : Prop := ∀ p ∈ ps, 1 ≤ p.1 ∧ p.1 ≤ Config.maxw ∧ p.2.toNat < 2 ^ p.1

/-- The next code of width `w`, bytes of the input pushed one at a time while too few bits are buffered. -/
def readNext (w : Nat) : List Byte → Unpacker → Option (Code × List Byte × Unpacker)
  | bs, u =>
    match u.read w with
    | some (c, v) => some (c, bs, v)
    | none =>
      match bs with
      | [] => none
      | b :: rest => readNext w rest (u.pushByte b)

/-- The codes of the given widths, in order (30_encoding R58). -/
def readAll : List Nat → List Byte → Unpacker → Option (List Code × List Byte × Unpacker)
  | [], bs, u => some ([], bs, u)
  | w :: ws, bs, u =>
    match readNext w bs u with
    | none => none
    | some (c, rest, v) =>
      match readAll ws rest v with
      | none => none
      | some (cs, z) => some (c :: cs, z)

/-! ### Launch premises (70 R170) -/

/-- `AfterReset` (70 R170): the state of 70 R157, which sets registers.
The streams of 10_state R35 and what the host will still send are no registers, so the premise leaves them free (log 2,
log 15). -/
abbrev State.afterReset (s : State) : Prop := s = hardReset s

/-- The packer and the byte stream of a stream that has just begun (70 R158): nothing for a decode session, and for an
encode session exactly the Clear Code's `W0` bits, 0 to 3 of them in the packer and one byte already output when `W0 ≥ 8`,
and all of them in the packer when not.
DESIGN CHOICE (log 18): 70 R170 says that both output streams are empty at `AtStreamStart`, and 70 R158 that START_ENC has
output one byte for `r ≥ 7`; the byte counts as START's own output, and no byte before it is in the stream. -/
abbrev State.startBits (m : Mode) (r : Nat) (s : State) : Prop :=
  (m = .dec → s.pk = ⟨0, 0⟩ ∧ s.byteOut = []) ∧
    (m = .enc → s.pk.ok ∧ s.byteOut.length = (if 8 ≤ initialWidth r then 1 else 0) ∧
      8 * s.byteOut.length + s.pk.n = initialWidth r ∧
      bytesValue s.byteOut + 2 ^ (8 * s.byteOut.length) * s.pk.acc.toNat = clrCode r)

/-- `AtStreamStart(mode, r)` (70 R158, R170; log 18 on the byte that START_ENC outputs). -/
abbrev State.atStreamStart (m : Mode) (r : BitVec 4) (s : State) : Prop :=
  rootOk r.toNat ∧ s.state = (match m with | .enc => .encActive | .dec => .decActive) ∧ s.mode = m ∧ s.root = r ∧
    s.n = firstCode r.toNat ∧ s.w = initialWidth r.toNat ∧ s.curV = false ∧ s.cur = 0 ∧ s.prevV = false ∧ s.prev = 0 ∧
    s.ub = ⟨0, 0⟩ ∧ s.dict = [] ∧ s.err = .none ∧ s.errInfo = 0 ∧ s.startBits m r.toNat ∧ s.symOut = []

/-- `NoErrorRecorded` (70 R170). -/
abbrev State.noErrorRecorded (s : State) : Prop := s.state ≠ .error ∧ s.err = .none

/-- `NothingInFlight` (70 R170): no command is partly applied.
A command is one step of the model, and State holds no register for the middle of one, so every State is between commands
and the premise holds of each, as 70 R170 says of every state between commands. -/
abbrev State.nothingInFlight (_ : State) : Prop := True

end Sys2Proof.Machine
end

