-- ==== Sys2Proof/Certificates/Slice0/Obligations.lean ====
section
/-! DEFINITION. The statements about the CORE, for the provers. -/

namespace Sys2Proof.Statements

open Sys2Proof.Machine

/-! ### Terms the statements use -/

/-- `op = cmd[15:12]`, as a number (30_encoding R59). -/
abbrev opOf (w : CmdWord) : Nat := w.toNat / 4096

/-- `arg = cmd[11:0]`, as a number (30_encoding R59). -/
abbrev argOf (w : CmdWord) : Nat := w.toNat % 4096

/-- A START with no reserved bit set: `op in {1,2} and wf` of 30_encoding R67. -/
abbrev isStart (w : CmdWord) : Prop := (opOf w = 1 ∨ opOf w = 2) ∧ argOf w / 16 = 0

/-- `wf` of 30_encoding R67. -/
abbrev commandWf (w : CmdWord) : Prop :=
  isStart w ∨ opOf w = 3 ∨ ((opOf w = 4 ∨ opOf w = 6) ∧ argOf w = 0) ∨ (opOf w = 5 ∧ argOf w / 256 = 0)

/-- `dispatch(cmd)`, the procedure of 30_encoding R67 line by line, on the fields of the word as numbers. -/
def dispatch (w : CmdWord) (s : State) : Result :=
  if s.state = .error ∧ ¬ isStart w then .next s
  else if ¬ commandWf w then .next (raise .illegalCommand w s)
  else if opOf w = 1 ∨ opOf w = 2 then
    if argOf w % 16 < 2 ∨ 10 < argOf w % 16 then .next (raise .invalidRootSize w s)
    else if opOf w = 1 then .next (startEncode (BitVec.ofNat 4 (argOf w)) s)
    else .next (beginStream .dec .decActive (BitVec.ofNat 4 (argOf w)) s)
  else if opOf w = 3 ∨ opOf w = 4 then
    if s.state ≠ .encActive then .next (raise .illegalCommand w s)
    else if opOf w = 3 then
      if 2 ^ s.r ≤ argOf w then .next (raise .invalidSymbol (BitVec.ofNat 16 (argOf w)) s)
      else .next (encodeSymbol (BitVec.ofNat 12 (argOf w)) s)
    else .next (encodeEnd s)
  else if s.state = .done ∧ s.mode = .dec then .next s
  else if s.state ≠ .decActive then .next (raise .illegalCommand w s)
  else if opOf w = 5 then decodeByte (BitVec.ofNat 8 (argOf w)) s
  else .next (raise .truncatedStream (BitVec.ofNat 16 s.ub.n) s)

/-- The loop of DEC_BYTE as 43_decoder R116 has it, with the number of codes read: it is over when the stream is, it waits
when fewer than `W` bits are buffered, and otherwise it reads a code at `W`, which runs as the instruction that
30_encoding R55 makes of it, and goes on. -/
inductive DecodesTo : Nat → State → State → Prop where
  | over {s : State} (h : s.state ≠ .decActive) : DecodesTo 0 s s
  | wait {s : State} (h : s.state = .decActive) (hn : s.ub.n < s.w) : DecodesTo 0 s s
  | code {s m t : State} {c : Code} {u : Unpacker} {k : Nat} (h : s.state = .decActive) (hr : s.ub.read s.w = some (c, u))
      (he : exec (decodeCode s.codeContext c) { s with ub := u } = .next m) (hk : DecodesTo k m t) :
      DecodesTo (k + 1) s t

/-- The state after `PushByte(b)` (40_bit_channel R79). -/
def pushed (b : Byte) (s : State) : State := { s with ub := ⟨s.ub.buf ||| (b.setWidth 19 <<< s.ub.n), s.ub.n + 8⟩ }

/-- STATE as the number 10_state R16 gives it. -/
def stateNumber : EngineState → Nat
  | .idle => 0 | .encActive => 1 | .decActive => 2 | .done => 3 | .error => 4

/-- MODE as the number 10_state R18 gives it. -/
def modeNumber : Mode → Nat
  | .enc => 0 | .dec => 1

/-- ERR as the number 60_exceptions R141 gives it. -/
def errNumber : ErrCode → Nat
  | .none => 0 | .invalidSymbol => 1 | .truncatedStream => 2 | .corruptCode => 3 | .illegalCommand => 4
  | .invalidRootSize => 5

/-- What the decode side of the CORE leaves alone: the mode, the root size, the encoder's registers, the byte stream and
the host's input; its symbols are only added to. -/
abbrev encoderSideKept (s t : State) : Prop :=
  t.mode = s.mode ∧ t.root = s.root ∧ t.curV = s.curV ∧ t.cur = s.cur ∧ t.pk = s.pk ∧ t.byteOut = s.byteOut ∧
    t.input = s.input ∧ s.symOut <+: t.symOut

/-- What the encode side of the CORE leaves alone: the mode, the root size, the decoder's registers, the symbol stream and
the host's input; its bytes are only added to. -/
abbrev decoderSideKept (s t : State) : Prop :=
  t.mode = s.mode ∧ t.root = s.root ∧ t.prevV = s.prevV ∧ t.prev = s.prev ∧ t.ub = s.ub ∧ t.symOut = s.symOut ∧
    t.input = s.input ∧ s.byteOut <+: t.byteOut

/-- The error record is untouched, or an error has just been taken. -/
abbrev recordKeptUnlessRaised (s t : State) : Prop :=
  (t.err = s.err ∧ t.errInfo = s.errInfo) ∨ (s.state ≠ .error ∧ t.state = .error)

end Sys2Proof.Statements

open Sys2Proof Sys2Proof.Machine Sys2Proof.Statements

/-! ### Encodings -/

/-- Decoding the word of a well-formed instruction gives the instruction back, in all three formats (30_encoding R53, R54,
R57, R60). -/
def Obligations.DecodeOfEncodeReturnsInstruction : Prop :=
  ∀ (x : CodeContext) (i : Instr), i.wellFormed x = true → decode x (encode x i) = .ok i

/-- Every command word that decodes is the word of its instruction, which is well formed (30_encoding R59, R60). -/
def Obligations.CommandWordIsTheWordOfItsInstruction : Prop :=
  ∀ (w : CmdWord) (i : Instr), decodeCommand w = .ok i →
    ∀ x : CodeContext, i.wellFormed x = true ∧ encode x i = .command w

/-- The decoder rejects a command word exactly when a reserved bit of its argument is set; outside ERROR the word raises
ILLEGAL_COMMAND and in ERROR it is ignored (30_encoding R66). -/
def Obligations.ReservedArgumentBitsMakeACommandMalformed : Prop :=
  ∀ w : CmdWord,
    (decodeCommand w = .rejected (.malformed w) ↔
      ((opOf w = 1 ∨ opOf w = 2) ∧ argOf w / 16 ≠ 0) ∨ ((opOf w = 4 ∨ opOf w = 6) ∧ argOf w ≠ 0) ∨
        (opOf w = 5 ∧ argOf w / 256 ≠ 0)) ∧
    (decodeCommand w = .rejected (.malformed w) → ∀ s : State,
      runCommand w s = if s.state = .error then .next s
        else .next { s with state := .error, err := .illegalCommand, errInfo := w })

/-- Some words written out from the encodings of 30_encoding R57, R60, R65 and R72. -/
def Obligations.WrittenOutWordsDecode : Prop :=
  decodeCommand 0x1008 = .ok (.startEnc 8) ∧ decodeCommand 0x2002 = .ok (.startDec 2) ∧
    decodeCommand 0x3FFF = .ok (.encSym 0xFFF) ∧ decodeCommand 0x4000 = .ok .encEnd ∧
    decodeCommand 0x50A1 = .ok (.decByte 0xA1) ∧ decodeCommand 0x6000 = .ok .decEnd ∧
    decodeCommand 0x0123 = .ok (.reservedOp0 0x123) ∧ decodeCommand 0xF123 = .ok (.reservedOps 0xF 0x123) ∧
    decodePair 0x3006 = .pair 3 6 ∧ decodeCode ⟨2, 6, true⟩ 6 = .kwk 6 ∧ decodeCode ⟨2, 7, true⟩ 6 = .dic 6

/-- Every code is exactly one instruction: the one the decoder reads is well formed and has this code, and no other
well-formed instruction has it (30_encoding R55, R70). -/
def Obligations.EveryCodeIsExactlyOneInstruction : Prop :=
  ∀ (x : CodeContext) (c : Code), rootOk x.r →
    (decodeCode x c).wellFormed x = true ∧ encode x (decodeCode x c) = .code c ∧
      ∀ i : Instr, i.wellFormed x = true → encode x i = .code c → i = decodeCode x c

/-! ### The machine -/

/-- A step takes the host's next event: a command that decodes runs as its instruction, a malformed one as ILLEGAL_COMMAND,
a reset as hardware reset (30_encoding R67, 70 R157).
That nothing happens with no event pending is the model's reading of 10_state R27 (log 1). -/
def Obligations.StepRunsTheDecodedCommand : Prop :=
  ∀ (s : State),
    (∀ w rest i, s.input = .command w :: rest → decodeCommand w = .ok i → step s = exec i { s with input := rest }) ∧
    (∀ w rest, s.input = .command w :: rest → decodeCommand w = .rejected (.malformed w) →
      step s = if s.state = .error then .next { s with input := rest }
        else .next { s with input := rest, state := .error, err := .illegalCommand, errInfo := w }) ∧
    (∀ rest, s.input = .hardReset :: rest → step s = .next (hardReset { s with input := rest })) ∧
    (s.input = [] → step s = .next s)

/-- Every command goes through the procedure of 30_encoding R67. -/
def Obligations.EveryCommandFollowsTheDispatchProcedure : Prop :=
  ∀ (w : CmdWord) (s : State), runCommand w s = dispatch w s

/-- After hardware reset every register has its reset value, nothing was output, and every command but a well-formed START
raises ILLEGAL_COMMAND (70 R157, 10_state R36). -/
def Obligations.HardwareResetLeavesTheResetState : Prop :=
  ∀ (s : State) (rest : List HostEvent), s.input = .hardReset :: rest → ∃ t : State, step s = .next t ∧
    t = { State.reset with byteOut := s.byteOut, symOut := s.symOut, input := rest } ∧
    t.readStatus 0 = 0 ∧ t.readStatus 1 = 0 ∧ t.done = false ∧ t.errLine = false ∧
    (∀ w, ¬ isStart w →
      runCommand w t = .next { t with state := .error, err := .illegalCommand, errInfo := w }) ∧
    (∀ w, isStart w → ∃ u : State, runCommand w t = .next u ∧ u.err ≠ .illegalCommand)

/-- The status port shows the registers in the fields of 10_state R27, and the level outputs show STATE: `done` in DONE,
`err` in ERROR, `busy` in ENC_ACTIVE and DEC_ACTIVE, and each only there (10_state R30, 60_exceptions R152).
That `done` falls with STATE, also by an error in DONE, is the model's choice (log 21). -/
def Obligations.StatusWordsShowTheRegisters : Prop :=
  ∀ s : State,
    (s.readStatus 0).toNat = stateNumber s.state + 8 * modeNumber s.mode + 16 * s.root.toNat + 256 * errNumber s.err +
      4096 * (s.w % 16) + 65536 * (s.n % 8192) ∧
    (s.readStatus 1).toNat = s.errInfo.toNat ∧ (∀ sel, 2 ≤ sel → s.readStatus sel = 0) ∧
    (s.done = true ↔ s.state = .done) ∧ (s.errLine = true ↔ s.state = .error) ∧
    (s.busy = true ↔ s.state = .encActive ∨ s.state = .decActive)

/-- The reset state meets the invariant (10_state R36). -/
def Obligations.ResetMeetsTheInvariant : Prop := State.reset.Inv

/-- Every step keeps the invariant: the registers' legal values (10_state R15), the encoder's and the decoder's invariants
(10_state R31, R32), the dictionary's form and its unique keys (41_dictionary R88, R94), the bit channel's bounds. -/
def Obligations.StepKeepsTheInvariant : Prop :=
  ∀ s t : State, s.Inv → step s = .next t → t.Inv

/-- Where the invariant holds, a step always completes: no fault and no refusal is reachable. -/
def Obligations.StepCompletesUnderTheInvariant : Prop :=
  ∀ s : State, s.Inv → ∃ t : State, step s = .next t

/-- No output item is ever withdrawn: a step only adds to the two streams (10_state R35, held as log 2 says). -/
def Obligations.StepOnlyAddsToTheOutput : Prop :=
  ∀ s t : State, step s = .next t → s.byteOut <+: t.byteOut ∧ s.symOut <+: t.symOut

/-! ### Errors -/

/-- The reserved operations raise ILLEGAL_COMMAND with their command word, and are ignored in ERROR (30_encoding R65). -/
def Obligations.ReservedOperationsRaiseIllegalCommand : Prop :=
  ∀ s : State,
    (s.state ≠ .error →
      (∀ arg : BitVec 12, exec (.reservedOp0 arg) s =
        .next { s with state := .error, err := .illegalCommand, errInfo := BitVec.ofNat 16 arg.toNat }) ∧
      (∀ (op : BitVec 4) (arg : BitVec 12), exec (.reservedOps op arg) s =
        .next { s with state := .error, err := .illegalCommand,
                       errInfo := BitVec.ofNat 16 (op.toNat * 4096 + arg.toNat) })) ∧
    (s.state = .error → (∀ arg, exec (.reservedOp0 arg) s = .next s) ∧ ∀ op arg, exec (.reservedOps op arg) s = .next s)

/-- Outside ERROR, a reserved operation, a malformed command and a command that the state does not accept raise
ILLEGAL_COMMAND with the whole command word (60_exceptions R147). -/
def Obligations.UnacceptedCommandsRaiseIllegalCommand : Prop :=
  ∀ (s : State) (w : CmdWord), s.state ≠ .error →
    (¬ commandWf w ∨ ((opOf w = 3 ∨ opOf w = 4) ∧ s.state ≠ .encActive) ∨
      ((opOf w = 5 ∨ opOf w = 6) ∧ s.state ≠ .decActive ∧ ¬ (s.state = .done ∧ s.mode = .dec))) →
    runCommand w s = .next { s with state := .error, err := .illegalCommand, errInfo := w }

/-- A START with a root size outside 2..10 raises INVALID_ROOT_SIZE in every state, and only the record changes
(60_exceptions R148). -/
def Obligations.IllegalRootSizeIsRefusedInEveryState : Prop :=
  ∀ (s : State) (r : BitVec 4), ¬ (2 ≤ r.toNat ∧ r.toNat ≤ 10) →
    exec (.startEnc r) s =
      .next { s with state := .error, err := .invalidRootSize, errInfo := BitVec.ofNat 16 (0x1000 + r.toNat) } ∧
    exec (.startDec r) s =
      .next { s with state := .error, err := .invalidRootSize, errInfo := BitVec.ofNat 16 (0x2000 + r.toNat) }

/-- A symbol of `2^r` or more raises INVALID_SYMBOL before any other change (60_exceptions R144). -/
def Obligations.OutOfRangeSymbolFailsFast : Prop :=
  ∀ (s : State) (x : BitVec 12), s.state = .encActive → 2 ^ s.root.toNat ≤ x.toNat →
    exec (.encSym x) s =
      .next { s with state := .error, err := .invalidSymbol, errInfo := BitVec.ofNat 16 x.toNat }

/-- DEC_END (`0x6000`) before EOI raises TRUNCATED_STREAM with the count of buffered bits, in DONE it is ignored (43_decoder R129). -/
def Obligations.DecEndBeforeEoiIsTruncated : Prop :=
  decodeCommand 0x6000 = .ok .decEnd ∧ ∀ s : State,
    (s.state = .decActive → exec .decEnd s =
      .next { s with state := .error, err := .truncatedStream, errInfo := BitVec.ofNat 16 s.ub.n }) ∧
    (s.state = .done → s.mode = .dec → exec .decEnd s = .next s)

/-- A code of class BAD raises CORRUPT_CODE with the code, and BAD is what is above `N` after a first code, and every
dictionary code before one (60_exceptions R146). -/
def Obligations.CorruptCodeIsRecorded : Prop :=
  ∀ (s : State) (c : Code),
    exec (.bad c) s = .next { s with state := .error, err := .corruptCode, errInfo := BitVec.ofNat 16 c.toNat } ∧
    (s.Inv → s.state = .decActive →
      (decodeCode s.codeContext c = .bad c ↔
        (s.prevV = true ∧ s.n < c.toNat) ∨ (s.prevV = false ∧ 2 ^ s.root.toNat + 2 ≤ c.toNat)))

/-- In ERROR every command but a well-formed START is ignored, and a START with an illegal root size replaces the record
(60_exceptions R149). -/
def Obligations.ErrorIsSticky : Prop :=
  ∀ (s : State) (w : CmdWord), s.state = .error →
    (¬ isStart w → runCommand w s = .next s) ∧
    (isStart w → ¬ (2 ≤ argOf w % 16 ∧ argOf w % 16 ≤ 10) →
      runCommand w s = .next { s with err := .invalidRootSize, errInfo := w })

/-- After EOI, input is ignored (43_decoder R130). -/
def Obligations.InputAfterEoiIsIgnored : Prop :=
  ∀ s : State, s.state = .done → s.mode = .dec → (∀ b, exec (.decByte b) s = .next s) ∧ exec .decEnd s = .next s

/-! ### The bit channel -/

/-- The effect of a pair on the packer (40_bit_channel R75): the code, masked to its width, goes above the open bits; a byte
leaves when more than 8 bits were open, and one when 8 or more are open after that; no bit is lost and nothing else
changes. -/
def Obligations.PairGoesAboveTheOpenBits : Prop :=
  ∀ (s : State) (width : BitVec 4) (code : Code), s.pk.ok → 1 ≤ width.toNat → width.toNat ≤ 12 →
    ∃ (p : Packer) (out : List Byte),
      exec (.pair width code) s = .next { s with pk := p, byteOut := s.byteOut ++ out } ∧ p.ok ∧
      out.length = (if 8 < s.pk.n then 1 else 0) +
        (if 8 ≤ (if 8 < s.pk.n then s.pk.n - 8 else s.pk.n) + width.toNat then 1 else 0) ∧
      8 * out.length + p.n = s.pk.n + width.toNat ∧
      bytesValue out + 2 ^ (8 * out.length) * p.acc.toNat =
        s.pk.acc.toNat + 2 ^ s.pk.n * (code.toNat % 2 ^ width.toNat)

/-- `Flush` emits every open bit, in one byte for 1 to 8 bits and in two for 9 to 12 (40_bit_channel R76). -/
def Obligations.FlushEmitsEveryOpenBit : Prop :=
  ∀ s : State, s.pk.ok → ∃ out : List Byte,
    flush s = { s with pk := ⟨0, 0⟩, byteOut := s.byteOut ++ out } ∧
    out.length = (if s.pk.n = 0 then 0 else if s.pk.n ≤ 8 then 1 else 2) ∧ bytesValue out = s.pk.acc.toNat

/-- `PushByte` puts bit `k` of the byte at buffer bit `UB_N + k` and keeps the older bits (40_bit_channel R79). -/
def Obligations.PushByteAppendsAboveTheBufferedBits : Prop :=
  ∀ (u : Unpacker) (b : Byte), u.n ≤ 11 → u.buf.toNat < 2 ^ u.n →
    (u.pushByte b).n = u.n + 8 ∧
    (∀ k, k < u.n → (u.pushByte b).buf.getLsbD k = u.buf.getLsbD k) ∧
    (∀ k, k < 8 → (u.pushByte b).buf.getLsbD (u.n + k) = b.getLsbD k) ∧
    (u.pushByte b).buf.toNat < 2 ^ (u.n + 8)

/-- `UnpackRead(w)` takes the `w` oldest bits if there are so many (40_bit_channel R80). -/
def Obligations.UnpackReadTakesTheOldestBits : Prop :=
  ∀ (u : Unpacker) (w : Nat), w ≤ 12 →
    (u.n < w → u.read w = none) ∧
    (w ≤ u.n → ∃ (c : Code) (v : Unpacker), u.read w = some (c, v) ∧ c.toNat = u.buf.toNat % 2 ^ w ∧
      v.buf.toNat = u.buf.toNat / 2 ^ w ∧ v.n = u.n - w)

/-- The packer output law (40_bit_channel R77, which the spec marks as its own inference: "derived: from rule R75 and
rule R76"). -/
def Obligations.PackerOutputIsTheLittleEndianStream : Prop :=
  ∀ ps : List (Nat × Code), pairsLegal ps →
    let q := packAll ps ⟨0, 0⟩
    8 * q.2.length + q.1.n = pairsWidth ps ∧ q.1.acc.toNat < 2 ^ q.1.n ∧
    bytesValue q.2 + 2 ^ (8 * q.2.length) * q.1.acc.toNat = pairsValue ps ∧
    bytesValue (q.2 ++ q.1.flush.2) = pairsValue ps ∧ (q.2 ++ q.1.flush.2).length = (pairsWidth ps + 7) / 8 ∧
    pairsValue ps < 2 ^ pairsWidth ps

/-- The channel round trip (40_bit_channel R85): what the packer wrote, the unpacker reads at the same widths, bytes pushed
as they are needed; at the end at most 7 bits are left, all zero. -/
def Obligations.UnpackerReadsBackWhatThePackerWrote : Prop :=
  ∀ ps : List (Nat × Code), pairsLegal ps →
    let q := packAll ps ⟨0, 0⟩
    ∃ u : Unpacker, readAll (ps.map Prod.fst) (q.2 ++ q.1.flush.2) ⟨0, 0⟩ = some (ps.map Prod.snd, [], u) ∧
      u.n ≤ 7 ∧ u.buf = 0

/-! ### The dictionary -/

/-- `DictWrite` writes one entry, and none at 4096 or above (41_dictionary R92); the map stays canonical (log 4). -/
def Obligations.DictWriteWritesOneEntry : Prop :=
  ∀ (s : State) (i : Nat) (e : DictEntry),
    (i < 4096 → ∀ j, (dictWrite i e s).dict.read j = if j = i then some e else s.dict.read j) ∧
    (4096 ≤ i → dictWrite i e s = s) ∧
    dictWrite i e s = { s with dict := (dictWrite i e s).dict } ∧
    (s.dict.wf → (dictWrite i e s).dict.wf)

/-- The sequence a code denotes (41_dictionary R89). -/
def Obligations.SequenceOfACode : Prop :=
  ∀ (s : State) (c : Code), s.dictListsPresent → s.entriesLegal →
    (c.toNat < 2 ^ s.root.toNat → s.seq c = some [BitVec.ofNat 10 c.toNat]) ∧
    (2 ^ s.root.toNat + 2 ≤ c.toNat → c.toNat < min s.n 4096 →
      ∃ (e : DictEntry) (q : List Sym), s.dict.read c.toNat = some e ∧ s.seq e.prefixCode = some q ∧
        s.seq c = some (q ++ [e.suffix])) ∧
    (2 ^ s.root.toNat ≤ c.toNat → ¬ (2 ^ s.root.toNat + 2 ≤ c.toNat ∧ c.toNat < min s.n 4096) → s.seq c = none)

/-- The length bound (41_dictionary R96): one symbol for a literal, at most `c - FIRST + 2` for a present code, and so never
more than 4091. -/
def Obligations.SequenceLengthIsBounded : Prop :=
  ∀ (s : State) (c : Code) (q : List Sym), rootOk s.r → s.dictListsPresent → s.entriesLegal → s.seq c = some q →
    (c.toNat < 2 ^ s.root.toNat → q.length = 1) ∧
    (s.present c.toNat → q.length + firstCode s.r ≤ c.toNat + 2) ∧ q.length ≤ 4091

/-- `CamSearch` answers exactly the present entry with the key, and an empty `current` the literal (41_dictionary R91). -/
def Obligations.CamSearchFindsThePresentEntry : Prop :=
  ∀ (s : State), s.dict.wf → s.keysUnique →
    (∀ (p : Code) (x : Sym) (k : Code), s.camSearch p x = some k ↔
      firstCode s.r ≤ k.toNat ∧ k.toNat < s.n ∧ s.dict.read k.toNat = some ⟨p, x⟩) ∧
    (∀ x : BitVec 12, s.curV = false → s.lookupByPrefix x = some x) ∧
    (∀ x : BitVec 12, s.curV = true → s.lookupByPrefix x = s.camSearch s.cur (BitVec.ofNat 10 x.toNat))

/-- In an encode session keys are unique, a search has at most one hit, and distinct codes denote distinct sequences
(41_dictionary R94). -/
def Obligations.EncodeDictionaryHasUniqueEntries : Prop :=
  ∀ s : State, s.Inv → s.mode = .enc →
    (∀ i j e, s.dict.read i = some e → s.dict.read j = some e → i = j) ∧
    (∀ (c d : Code) (q : List Sym), s.seq c = some q → s.seq d = some q → c = d)

/-- The two views of the table agree (41_dictionary R97): the search for `seq(p) ++ [x]` finds the code that denotes it. -/
def Obligations.SearchFindsTheCodeOfTheCandidate : Prop :=
  ∀ (s : State) (p k : Code) (x : Sym) (q : List Sym), s.Inv → s.mode = .enc → s.n < 4096 → s.seq p = some q →
    (s.camSearch p x = some k ↔ s.seq k = some (q ++ [x]))

/-! ### The encoder -/

/-- START_ENC (`0x1000 | r`) with a legal root size (42_encoder R100): a fresh stream from any state, and the Clear Code's `W0` bits in the
packer, one byte of them output when `r ≥ 7`. -/
def Obligations.StartEncBeginsAnEncodeSession : Prop :=
  ∀ (s : State) (r : BitVec 4), 2 ≤ r.toNat → r.toNat ≤ 10 →
    decodeCommand (BitVec.ofNat 16 (0x1000 + r.toNat)) = .ok (.startEnc r) ∧ ∃ (p : Packer) (out : List Byte),
      exec (.startEnc r) s = .next
        { state := .encActive, mode := .enc, root := r, w := r.toNat + 1, n := 2 ^ r.toNat + 2,
          curV := false, cur := 0, prevV := false, prev := 0, pk := p, ub := ⟨0, 0⟩, dict := [],
          err := .none, errInfo := 0, byteOut := s.byteOut ++ out, symOut := s.symOut, input := s.input } ∧
      p.ok ∧ out.length = (if 7 ≤ r.toNat then 1 else 0) ∧ 8 * out.length + p.n = r.toNat + 1 ∧
      bytesValue out + 2 ^ (8 * out.length) * p.acc.toNat = 2 ^ r.toNat

/-- Step S1 (42_encoder R102): with an empty `current` the symbol becomes `current`, and nothing is emitted. -/
def Obligations.FirstSymbolFillsCurrent : Prop :=
  ∀ (s : State) (x : BitVec 12), s.state = .encActive → x.toNat < 2 ^ s.root.toNat → s.curV = false →
    exec (.encSym x) s = .next { s with cur := x, curV := true }

/-- Step S2 (42_encoder R103): a known candidate becomes `current`, and nothing is emitted or written. -/
def Obligations.KnownCandidateBecomesCurrent : Prop :=
  ∀ (s : State) (x k : BitVec 12), s.Inv → s.state = .encActive → x.toNat < 2 ^ s.root.toNat → s.curV = true →
    s.dict.read k.toNat = some ⟨s.cur, BitVec.ofNat 10 x.toNat⟩ →
    exec (.encSym x) s = .next { s with cur := k }

/-- Steps S3 and S4 (42_encoder R104, R105): on a miss the code of `current` goes out at the old width, the candidate is
inserted at `N`, the symbol becomes `current`, `N` goes up, and `W` goes up when `N` has reached `2^W`. -/
def Obligations.MissEmitsInsertsAndAdvances : Prop :=
  ∀ (s : State) (x : BitVec 12), s.Inv → s.state = .encActive → x.toNat < 2 ^ s.root.toNat → s.curV = true →
    (∀ j, s.dict.read j ≠ some ⟨s.cur, BitVec.ofNat 10 x.toNat⟩) → s.n + 1 ≠ 4096 →
    ∃ d : Dict,
      exec (.encSym x) s = .next
        { s with pk := (s.pk.pack s.w s.cur).1, byteOut := s.byteOut ++ (s.pk.pack s.w s.cur).2, dict := d,
                 cur := x, n := s.n + 1, w := if s.n + 1 = 2 ^ s.w then s.w + 1 else s.w } ∧
      ∀ j, d.read j = if j = s.n then some ⟨s.cur, BitVec.ofNat 10 x.toNat⟩ else s.dict.read j

/-- Step S5 (42_encoder R106): the miss that fills the table emits its code and a Clear Code, both at width 12, resets the
stream and takes the symbol as from an empty `current`. -/
def Obligations.OverflowEmitsAClearCodeAndRestarts : Prop :=
  ∀ (s : State) (x : BitVec 12), s.Inv → s.state = .encActive → x.toNat < 2 ^ s.root.toNat → s.curV = true →
    (∀ j, s.dict.read j ≠ some ⟨s.cur, BitVec.ofNat 10 x.toNat⟩) → s.n + 1 = 4096 →
    let q := packAll [(12, s.cur), (12, BitVec.ofNat 12 (2 ^ s.root.toNat))] s.pk
    s.w = 12 ∧ exec (.encSym x) s = .next
      { s with pk := q.1, byteOut := s.byteOut ++ q.2, n := 2 ^ s.root.toNat + 2, w := s.root.toNat + 1, dict := [],
               cur := x, curV := true }

/-- ENC_END (42_encoder R107 to R109): the final code if there is one, EOI at the phantom width, the flush, DONE. -/
def Obligations.EncEndEmitsTheFinalCodesAndFlushes : Prop :=
  ∀ s : State, s.state = .encActive →
    let wE := if s.n + 1 = 2 ^ s.w then min 12 (s.w + 1) else s.w
    let q := packAll ((if s.curV then [(s.w, s.cur)] else []) ++ [(wE, BitVec.ofNat 12 (2 ^ s.root.toNat + 1))]) s.pk
    exec .encEnd s = .next
      { s with pk := ⟨0, 0⟩, byteOut := s.byteOut ++ q.2 ++ q.1.flush.2, w := wE, state := .done }

/-- The codes the encoder emits fit their widths, and a data code is LIT or DIC (42_encoder R110).
DESIGN CHOICE (log 20): its class is taken at the encoder's own `N`, with `PREV_V = 1`; at the decoder's `N`, which runs one
behind, 43_decoder R131 (b) has the newest entry as KWK. -/
def Obligations.EmittedCodesFitTheirWidths : Prop :=
  ∀ s : State, s.Inv → s.state = .encActive →
    (s.curV = true → s.cur.toNat < 2 ^ s.w ∧ (decodeCode ⟨s.r, s.n, true⟩ s.cur = .lit s.cur ∨
      decodeCode ⟨s.r, s.n, true⟩ s.cur = .dic s.cur)) ∧
    clrCode s.r < 2 ^ s.w ∧ clrCode s.r < 2 ^ 12 ∧ eoiCode s.r < 2 ^ s.eoiWidth ∧ s.eoiWidth ≤ 12

/-- The bytes one encode command can put out (42_encoder R112). -/
def Obligations.EncodeCommandsOutputFewBytes : Prop :=
  ∀ s t : State, s.Inv →
    (∀ r, exec (.startEnc r) s = .next t → t.byteOut.length ≤ s.byteOut.length + 1) ∧
    (∀ x, exec (.encSym x) s = .next t → t.byteOut.length ≤ s.byteOut.length + 4) ∧
    (exec .encEnd s = .next t → t.byteOut.length ≤ s.byteOut.length + 5)

/-- The frame of ENC_SYM and ENC_END: the decode side is left alone, the record too unless an error is taken, and ENC_END
leaves `N`, the dictionary and `current` (42_encoder R101, R107, R109). -/
def Obligations.EncodeCommandsLeaveTheDecodeSideAlone : Prop :=
  ∀ s t : State,
    (∀ x, exec (.encSym x) s = .next t →
      decoderSideKept s t ∧ recordKeptUnlessRaised s t ∧ (t.state = s.state ∨ t.state = .error) ∧
        (t.state = .error → t.pk = s.pk ∧ t.dict = s.dict ∧ t.n = s.n ∧ t.w = s.w ∧ t.byteOut = s.byteOut ∧
          t.curV = s.curV ∧ t.cur = s.cur)) ∧
    (exec .encEnd s = .next t →
      decoderSideKept s t ∧ recordKeptUnlessRaised s t ∧ t.n = s.n ∧ t.dict = s.dict ∧ t.curV = s.curV ∧
        t.cur = s.cur ∧ (t.state = .error → t.pk = s.pk ∧ t.w = s.w ∧ t.byteOut = s.byteOut))

/-! ### The decoder -/

/-- START_DEC (`0x2000 | r`) with a legal root size (43_decoder R115): a fresh stream from any state, and nothing is output. -/
def Obligations.StartDecBeginsADecodeSession : Prop :=
  ∀ (s : State) (r : BitVec 4), 2 ≤ r.toNat → r.toNat ≤ 10 →
    decodeCommand (BitVec.ofNat 16 (0x2000 + r.toNat)) = .ok (.startDec r) ∧ exec (.startDec r) s = .next
      { state := .decActive, mode := .dec, root := r, w := r.toNat + 1, n := 2 ^ r.toNat + 2,
        curV := false, cur := 0, prevV := false, prev := 0, pk := ⟨0, 0⟩, ub := ⟨0, 0⟩, dict := [],
        err := .none, errInfo := 0, byteOut := s.byteOut, symOut := s.symOut, input := s.input }

/-- DEC_BYTE runs the loop of 43_decoder R116: each code is read at the width of that moment and runs as its instruction. -/
def Obligations.DecByteRunsTheCodesItCompletes : Prop :=
  ∀ (s t : State) (b : Byte), s.state = .decActive →
    (exec (.decByte b) s = .next t ↔ ∃ k, DecodesTo k (pushed b s) t)

/-- In DEC_ACTIVE, DEC_BYTE completes, after at most 6 codes (43_decoder R116). -/
def Obligations.DecByteCompletesWithinSixCodes : Prop :=
  ∀ (s : State) (b : Byte), s.Inv → s.state = .decActive →
    ∃ (t : State) (k : Nat), exec (.decByte b) s = .next t ∧ DecodesTo k (pushed b s) t ∧ k ≤ 6

/-- The first literal after a reset is output and inserts nothing (43_decoder R120). -/
def Obligations.FirstLiteralInsertsNothing : Prop :=
  ∀ (s : State) (c : Code), s.prevV = false →
    exec (.lit c) s =
      .next { s with symOut := s.symOut ++ [BitVec.ofNat 10 c.toNat], prev := c, prevV := true }

/-- A later literal is output, and `previous` followed by it is inserted (43_decoder R122, R124 to R127). -/
def Obligations.LaterLiteralInsertsAndIsOutput : Prop :=
  ∀ (s : State) (c : Code), s.prevV = true →
    ∃ (d : Dict) (n : Nat), n = min (s.n + 1) 4096 ∧
      exec (.lit c) s = .next
        { s with dict := d, n := n, w := if n = 2 ^ s.w - 1 then min 12 (s.w + 1) else s.w,
                 symOut := s.symOut ++ [BitVec.ofNat 10 c.toNat], prev := c, prevV := true } ∧
      ∀ j, d.read j = if j = s.n ∧ s.n < 4096 then some ⟨s.prev, BitVec.ofNat 10 c.toNat⟩ else s.dict.read j

/-- A present code's sequence is output, and `previous` followed by its first symbol is inserted (43_decoder R122, R124 to
R127). -/
def Obligations.PresentCodeInsertsAndIsOutput : Prop :=
  ∀ (s : State) (c : Code), s.prevV = true → s.dictListsPresent → s.entriesLegal → s.present c.toNat →
    ∃ (f : Sym) (q : List Sym) (d : Dict) (n : Nat), s.seq c = some (f :: q) ∧ n = min (s.n + 1) 4096 ∧
      exec (.dic c) s = .next
        { s with dict := d, n := n, w := if n = 2 ^ s.w - 1 then min 12 (s.w + 1) else s.w,
                 symOut := s.symOut ++ f :: q, prev := c, prevV := true } ∧
      ∀ j, d.read j = if j = s.n ∧ s.n < 4096 then some ⟨s.prev, f⟩ else s.dict.read j

/-- The unknown-code fallback: `previous` and its first symbol again are output and inserted (43_decoder R123 to R127). -/
def Obligations.FallbackRepeatsTheFirstSymbol : Prop :=
  ∀ (s : State) (c : Code), s.prevV = true → s.dictListsPresent → s.entriesLegal → s.denotes s.prev → c.toNat = s.n →
    ∃ (f : Sym) (q : List Sym) (d : Dict), s.seq s.prev = some (f :: q) ∧
      exec (.kwk c) s = .next
        { s with dict := d, n := s.n + 1, w := if s.n + 1 = 2 ^ s.w - 1 then min 12 (s.w + 1) else s.w,
                 symOut := s.symOut ++ (f :: q ++ [f]), prev := c, prevV := true } ∧
      ∀ j, d.read j = if j = s.n then some ⟨s.prev, f⟩ else s.dict.read j

/-- With an empty `previous` no dictionary code is legal: DIC and KWK raise CORRUPT_CODE, as 43_decoder R121 says of every
code that is no literal, CLR or EOI (the reading of log 16; no reachable state classifies a code so). -/
def Obligations.DictionaryCodeWithoutPreviousIsCorrupt : Prop :=
  ∀ (s : State) (c : Code), s.prevV = false →
    exec (.dic c) s = .next { s with state := .error, err := .corruptCode, errInfo := BitVec.ofNat 16 c.toNat } ∧
    exec (.kwk c) s = .next { s with state := .error, err := .corruptCode, errInfo := BitVec.ofNat 16 c.toNat }

/-- A Clear Code is legal at any point, and restores the initial dictionary and width and clears `previous`
(43_decoder R118). -/
def Obligations.ClearCodeRestoresTheInitialState : Prop :=
  ∀ s : State,
    exec .clr s = .next { s with n := 2 ^ s.root.toNat + 2, w := s.root.toNat + 1, dict := [], prevV := false, prev := 0 } ∧
    (s.root.toNat ≤ 10 → decodeCode s.codeContext (BitVec.ofNat 12 (2 ^ s.root.toNat)) = .clr)

/-- EOI is legal at any point; it clears the unpacker and ends the session, and nothing else changes (43_decoder R119). -/
def Obligations.EndOfInformationEndsTheSession : Prop :=
  ∀ s : State,
    exec .eoi s = .next { s with ub := ⟨0, 0⟩, state := .done } ∧
    (s.root.toNat ≤ 10 → decodeCode s.codeContext (BitVec.ofNat 12 (2 ^ s.root.toNat + 1)) = .eoi)

/-- `previous` is what was output last: after a literal, a present code or the fallback, `seq(PREV)` in the new dictionary is
what the code put out (43_decoder R127, 10_state R22). -/
def Obligations.PreviousDenotesWhatWasOutput : Prop :=
  ∀ (s : State) (c : Code), s.Inv → s.state = .decActive →
    (classify s.codeContext c.toNat = .LIT ∨ classify s.codeContext c.toNat = .DIC ∨
      classify s.codeContext c.toNat = .KWK) →
    ∃ (t : State) (q : List Sym), exec (decodeCode s.codeContext c) s = .next t ∧ t.prevV = true ∧ t.prev = c ∧
      t.symOut = s.symOut ++ q ∧ t.seq t.prev = some q ∧ q ≠ []

/-- The frame of the code words and of DEC_BYTE and DEC_END: the encode side and the host's input are left alone, symbols
are only added, and the record changes only by an error (43_decoder R117, R142 of 60). -/
def Obligations.DecodingLeavesTheEncodeSideAlone : Prop :=
  ∀ s t : State,
    (∀ b, exec (.decByte b) s = .next t → encoderSideKept s t ∧ recordKeptUnlessRaised s t) ∧
    (exec .decEnd s = .next t → encoderSideKept s t ∧ recordKeptUnlessRaised s t ∧ t.ub = s.ub ∧ t.dict = s.dict ∧
      t.n = s.n ∧ t.w = s.w ∧ t.prevV = s.prevV ∧ t.prev = s.prev ∧ t.symOut = s.symOut) ∧
    (∀ c, exec (.lit c) s = .next t → encoderSideKept s t ∧ t.state = s.state ∧ t.ub = s.ub ∧
      t.err = s.err ∧ t.errInfo = s.errInfo) ∧
    (∀ c, exec (.dic c) s = .next t ∨ exec (.kwk c) s = .next t → encoderSideKept s t ∧ t.ub = s.ub ∧
      (s.prevV = true → t.state = s.state ∧ t.err = s.err ∧ t.errInfo = s.errInfo))

/-! ### Sessions -/

/-- A session's result does not depend on the state it starts from: a START leaves nothing of what was before
(70 R158, R170; 60 R150). -/
def Obligations.SessionResultIgnoresTheEarlierState : Prop :=
  ∀ (r : BitVec 4) (s t : State),
    (∀ xs, encodeFn r xs s = encodeFn r xs t) ∧ (∀ bs, decodeFn r bs s = decodeFn r bs t)

/-- The result of `encode` (44 R132): with a legal root size it is bytes, unless some symbol is out of range. -/
def Obligations.EncodeFailsOnlyOnAnInvalidSymbol : Prop :=
  ∀ (r : BitVec 4) (xs : List (BitVec 12)) (s : State),
    (2 ≤ r.toNat → r.toNat ≤ 10 →
      ((∀ x ∈ xs, x.toNat < 2 ^ r.toNat) → ∃ bs, encodeFn r xs s = .ok bs) ∧
      ((∃ x ∈ xs, 2 ^ r.toNat ≤ x.toNat) → encodeFn r xs s = .err .invalidSymbol)) ∧
    (¬ (2 ≤ r.toNat ∧ r.toNat ≤ 10) → encodeFn r xs s = .err .invalidRootSize)

/-- `decode` is total (44 R133): every byte sequence gives symbols or one of two errors. -/
def Obligations.DecodeIsTotal : Prop :=
  ∀ (r : BitVec 4) (bs : List Byte) (s : State),
    (2 ≤ r.toNat → r.toNat ≤ 10 →
      (∃ xs, decodeFn r bs s = .ok xs) ∨ decodeFn r bs s = .err .corruptCode ∨
        decodeFn r bs s = .err .truncatedStream) ∧
    (¬ (2 ≤ r.toNat ∧ r.toNat ≤ 10) → decodeFn r bs s = .err .invalidRootSize)

/-- The bytes of an encode session are the pairs it emits, packed: the Clear Code at `W0` first, then what each ENC_SYM
emits in its state, then the code of `current` if there is one and EOI at the phantom width, both read off the state `t`
before ENC_END; every pair is legal and there are `ceil(T / 8)` bytes (42_encoder R99, R100, R104, R106 to R108, R110,
R112). -/
def Obligations.SessionBytesAreItsPackedPairs : Prop :=
  ∀ (r : BitVec 4) (xs : List (BitVec 12)) (s : State), 2 ≤ r.toNat → r.toNat ≤ 10 →
    (∀ x ∈ xs, x.toNat < 2 ^ r.toNat) →
    ∃ (t : State) (bs : List Byte),
      let ps := sessionPairs r xs s
      runCommands (cmdWordOf (.startEnc r) :: xs.map fun x => cmdWordOf (.encSym x)) s = .next t ∧
      ps = (r.toNat + 1, BitVec.ofNat 12 (2 ^ r.toNat)) :: State.symbolsPairs xs (startEncode r s) ++
        (if t.curV then [(t.w, t.cur)] else []) ++ [(t.eoiWidth, BitVec.ofNat 12 (2 ^ r.toNat + 1))] ∧
      encodeFn r xs s = .ok bs ∧ pairsLegal ps ∧ bytesValue bs = pairsValue ps ∧
        bs.length = (pairsWidth ps + 7) / 8 ∧ ps.length ≤ 2 * xs.length + 2

/-- The empty input (44 R136): a Clear Code and EOI at `W0`, which decode to nothing. -/
def Obligations.EmptyInputIsAClearCodeAndEoi : Prop :=
  ∀ (r : BitVec 4) (s t : State), 2 ≤ r.toNat → r.toNat ≤ 10 →
    ∃ bs : List Byte, encodeFn r [] s = .ok bs ∧ bs.length = (2 * (r.toNat + 1) + 7) / 8 ∧
      bytesValue bs = 2 ^ r.toNat + (2 ^ r.toNat + 1) * 2 ^ (r.toNat + 1) ∧ decodeFn r bs t = .ok []

/-- The round trip (44 R135): decoding what was encoded gives the symbols back, for every legal root size and every input.
For root sizes 9 and 10 the law is the spec's own inference: "This spec states the same law for `r ∈ {9, 10}` as derived,
not as a claim of the source" (44 R135, from 43_decoder R131 and decision D39). -/
def Obligations.DecodeOfEncodeIsTheInput : Prop :=
  ∀ (r : BitVec 4) (xs : List (BitVec 12)) (s t : State), 2 ≤ r.toNat → r.toNat ≤ 10 →
    (∀ x ∈ xs, x.toNat < 2 ^ r.toNat) →
    ∃ bs : List Byte, encodeFn r xs s = .ok bs ∧
      decodeFn r bs t = .ok (xs.map fun x => BitVec.ofNat 10 x.toNat)
end

