-- ==== Sys2Proof/Laws/State.lean ====
section
/-! SUPPORT. Every field after every update of the state, so that no proof unfolds a record update. -/

namespace Sys2Proof.Machine

/-! ### `raise` -/

@[simp] theorem raise_state (e : ErrCode) (info : BitVec 16) (s : State) : (raise e info s).state = .error := rfl
@[simp] theorem raise_mode (e : ErrCode) (info : BitVec 16) (s : State) : (raise e info s).mode = s.mode := rfl
@[simp] theorem raise_root (e : ErrCode) (info : BitVec 16) (s : State) : (raise e info s).root = s.root := rfl
@[simp] theorem raise_w (e : ErrCode) (info : BitVec 16) (s : State) : (raise e info s).w = s.w := rfl
@[simp] theorem raise_n (e : ErrCode) (info : BitVec 16) (s : State) : (raise e info s).n = s.n := rfl
@[simp] theorem raise_curV (e : ErrCode) (info : BitVec 16) (s : State) : (raise e info s).curV = s.curV := rfl
@[simp] theorem raise_cur (e : ErrCode) (info : BitVec 16) (s : State) : (raise e info s).cur = s.cur := rfl
@[simp] theorem raise_prevV (e : ErrCode) (info : BitVec 16) (s : State) : (raise e info s).prevV = s.prevV := rfl
@[simp] theorem raise_prev (e : ErrCode) (info : BitVec 16) (s : State) : (raise e info s).prev = s.prev := rfl
@[simp] theorem raise_pk (e : ErrCode) (info : BitVec 16) (s : State) : (raise e info s).pk = s.pk := rfl
@[simp] theorem raise_ub (e : ErrCode) (info : BitVec 16) (s : State) : (raise e info s).ub = s.ub := rfl
@[simp] theorem raise_dict (e : ErrCode) (info : BitVec 16) (s : State) : (raise e info s).dict = s.dict := rfl
@[simp] theorem raise_err (e : ErrCode) (info : BitVec 16) (s : State) : (raise e info s).err = e := rfl
@[simp] theorem raise_errInfo (e : ErrCode) (info : BitVec 16) (s : State) : (raise e info s).errInfo = info := rfl
@[simp] theorem raise_byteOut (e : ErrCode) (info : BitVec 16) (s : State) : (raise e info s).byteOut = s.byteOut := rfl
@[simp] theorem raise_symOut (e : ErrCode) (info : BitVec 16) (s : State) : (raise e info s).symOut = s.symOut := rfl
@[simp] theorem raise_input (e : ErrCode) (info : BitVec 16) (s : State) : (raise e info s).input = s.input := rfl
@[simp] theorem raise_r (e : ErrCode) (info : BitVec 16) (s : State) : (raise e info s).r = s.r := rfl

/-! ### `outBytes` -/

@[simp] theorem outBytes_state (bs : List Byte) (s : State) : (outBytes bs s).state = s.state := rfl
@[simp] theorem outBytes_mode (bs : List Byte) (s : State) : (outBytes bs s).mode = s.mode := rfl
@[simp] theorem outBytes_root (bs : List Byte) (s : State) : (outBytes bs s).root = s.root := rfl
@[simp] theorem outBytes_w (bs : List Byte) (s : State) : (outBytes bs s).w = s.w := rfl
@[simp] theorem outBytes_n (bs : List Byte) (s : State) : (outBytes bs s).n = s.n := rfl
@[simp] theorem outBytes_curV (bs : List Byte) (s : State) : (outBytes bs s).curV = s.curV := rfl
@[simp] theorem outBytes_cur (bs : List Byte) (s : State) : (outBytes bs s).cur = s.cur := rfl
@[simp] theorem outBytes_prevV (bs : List Byte) (s : State) : (outBytes bs s).prevV = s.prevV := rfl
@[simp] theorem outBytes_prev (bs : List Byte) (s : State) : (outBytes bs s).prev = s.prev := rfl
@[simp] theorem outBytes_pk (bs : List Byte) (s : State) : (outBytes bs s).pk = s.pk := rfl
@[simp] theorem outBytes_ub (bs : List Byte) (s : State) : (outBytes bs s).ub = s.ub := rfl
@[simp] theorem outBytes_dict (bs : List Byte) (s : State) : (outBytes bs s).dict = s.dict := rfl
@[simp] theorem outBytes_err (bs : List Byte) (s : State) : (outBytes bs s).err = s.err := rfl
@[simp] theorem outBytes_errInfo (bs : List Byte) (s : State) : (outBytes bs s).errInfo = s.errInfo := rfl
@[simp] theorem outBytes_byteOut (bs : List Byte) (s : State) : (outBytes bs s).byteOut = s.byteOut ++ bs := rfl
@[simp] theorem outBytes_symOut (bs : List Byte) (s : State) : (outBytes bs s).symOut = s.symOut := rfl
@[simp] theorem outBytes_input (bs : List Byte) (s : State) : (outBytes bs s).input = s.input := rfl
@[simp] theorem outBytes_r (bs : List Byte) (s : State) : (outBytes bs s).r = s.r := rfl

/-! ### `outSyms` -/

@[simp] theorem outSyms_state (q : List Sym) (s : State) : (outSyms q s).state = s.state := rfl
@[simp] theorem outSyms_mode (q : List Sym) (s : State) : (outSyms q s).mode = s.mode := rfl
@[simp] theorem outSyms_root (q : List Sym) (s : State) : (outSyms q s).root = s.root := rfl
@[simp] theorem outSyms_w (q : List Sym) (s : State) : (outSyms q s).w = s.w := rfl
@[simp] theorem outSyms_n (q : List Sym) (s : State) : (outSyms q s).n = s.n := rfl
@[simp] theorem outSyms_curV (q : List Sym) (s : State) : (outSyms q s).curV = s.curV := rfl
@[simp] theorem outSyms_cur (q : List Sym) (s : State) : (outSyms q s).cur = s.cur := rfl
@[simp] theorem outSyms_prevV (q : List Sym) (s : State) : (outSyms q s).prevV = s.prevV := rfl
@[simp] theorem outSyms_prev (q : List Sym) (s : State) : (outSyms q s).prev = s.prev := rfl
@[simp] theorem outSyms_pk (q : List Sym) (s : State) : (outSyms q s).pk = s.pk := rfl
@[simp] theorem outSyms_ub (q : List Sym) (s : State) : (outSyms q s).ub = s.ub := rfl
@[simp] theorem outSyms_dict (q : List Sym) (s : State) : (outSyms q s).dict = s.dict := rfl
@[simp] theorem outSyms_err (q : List Sym) (s : State) : (outSyms q s).err = s.err := rfl
@[simp] theorem outSyms_errInfo (q : List Sym) (s : State) : (outSyms q s).errInfo = s.errInfo := rfl
@[simp] theorem outSyms_byteOut (q : List Sym) (s : State) : (outSyms q s).byteOut = s.byteOut := rfl
@[simp] theorem outSyms_symOut (q : List Sym) (s : State) : (outSyms q s).symOut = s.symOut ++ q := rfl
@[simp] theorem outSyms_input (q : List Sym) (s : State) : (outSyms q s).input = s.input := rfl
@[simp] theorem outSyms_r (q : List Sym) (s : State) : (outSyms q s).r = s.r := rfl

/-! ### `pack` -/

@[simp] theorem pack_state (c : Nat) (v : Code) (s : State) : (pack c v s).state = s.state := rfl
@[simp] theorem pack_mode (c : Nat) (v : Code) (s : State) : (pack c v s).mode = s.mode := rfl
@[simp] theorem pack_root (c : Nat) (v : Code) (s : State) : (pack c v s).root = s.root := rfl
@[simp] theorem pack_w (c : Nat) (v : Code) (s : State) : (pack c v s).w = s.w := rfl
@[simp] theorem pack_n (c : Nat) (v : Code) (s : State) : (pack c v s).n = s.n := rfl
@[simp] theorem pack_curV (c : Nat) (v : Code) (s : State) : (pack c v s).curV = s.curV := rfl
@[simp] theorem pack_cur (c : Nat) (v : Code) (s : State) : (pack c v s).cur = s.cur := rfl
@[simp] theorem pack_prevV (c : Nat) (v : Code) (s : State) : (pack c v s).prevV = s.prevV := rfl
@[simp] theorem pack_prev (c : Nat) (v : Code) (s : State) : (pack c v s).prev = s.prev := rfl
@[simp] theorem pack_pk (c : Nat) (v : Code) (s : State) : (pack c v s).pk = (s.pk.pack c v).1 := rfl
@[simp] theorem pack_ub (c : Nat) (v : Code) (s : State) : (pack c v s).ub = s.ub := rfl
@[simp] theorem pack_dict (c : Nat) (v : Code) (s : State) : (pack c v s).dict = s.dict := rfl
@[simp] theorem pack_err (c : Nat) (v : Code) (s : State) : (pack c v s).err = s.err := rfl
@[simp] theorem pack_errInfo (c : Nat) (v : Code) (s : State) : (pack c v s).errInfo = s.errInfo := rfl
@[simp] theorem pack_byteOut (c : Nat) (v : Code) (s : State) : (pack c v s).byteOut = s.byteOut ++ (s.pk.pack c v).2 := rfl
@[simp] theorem pack_symOut (c : Nat) (v : Code) (s : State) : (pack c v s).symOut = s.symOut := rfl
@[simp] theorem pack_input (c : Nat) (v : Code) (s : State) : (pack c v s).input = s.input := rfl
@[simp] theorem pack_r (c : Nat) (v : Code) (s : State) : (pack c v s).r = s.r := rfl

/-! ### `flush` -/

@[simp] theorem flush_state (s : State) : (flush s).state = s.state := rfl
@[simp] theorem flush_mode (s : State) : (flush s).mode = s.mode := rfl
@[simp] theorem flush_root (s : State) : (flush s).root = s.root := rfl
@[simp] theorem flush_w (s : State) : (flush s).w = s.w := rfl
@[simp] theorem flush_n (s : State) : (flush s).n = s.n := rfl
@[simp] theorem flush_curV (s : State) : (flush s).curV = s.curV := rfl
@[simp] theorem flush_cur (s : State) : (flush s).cur = s.cur := rfl
@[simp] theorem flush_prevV (s : State) : (flush s).prevV = s.prevV := rfl
@[simp] theorem flush_prev (s : State) : (flush s).prev = s.prev := rfl
@[simp] theorem flush_pk (s : State) : (flush s).pk = ⟨0, 0⟩ := rfl
@[simp] theorem flush_ub (s : State) : (flush s).ub = s.ub := rfl
@[simp] theorem flush_dict (s : State) : (flush s).dict = s.dict := rfl
@[simp] theorem flush_err (s : State) : (flush s).err = s.err := rfl
@[simp] theorem flush_errInfo (s : State) : (flush s).errInfo = s.errInfo := rfl
@[simp] theorem flush_byteOut (s : State) : (flush s).byteOut = s.byteOut ++ s.pk.flush.2 := rfl
@[simp] theorem flush_symOut (s : State) : (flush s).symOut = s.symOut := rfl
@[simp] theorem flush_input (s : State) : (flush s).input = s.input := rfl
@[simp] theorem flush_r (s : State) : (flush s).r = s.r := rfl

/-! ### `pushByte` -/

@[simp] theorem pushByte_state (b : Byte) (s : State) : (pushByte b s).state = s.state := rfl
@[simp] theorem pushByte_mode (b : Byte) (s : State) : (pushByte b s).mode = s.mode := rfl
@[simp] theorem pushByte_root (b : Byte) (s : State) : (pushByte b s).root = s.root := rfl
@[simp] theorem pushByte_w (b : Byte) (s : State) : (pushByte b s).w = s.w := rfl
@[simp] theorem pushByte_n (b : Byte) (s : State) : (pushByte b s).n = s.n := rfl
@[simp] theorem pushByte_curV (b : Byte) (s : State) : (pushByte b s).curV = s.curV := rfl
@[simp] theorem pushByte_cur (b : Byte) (s : State) : (pushByte b s).cur = s.cur := rfl
@[simp] theorem pushByte_prevV (b : Byte) (s : State) : (pushByte b s).prevV = s.prevV := rfl
@[simp] theorem pushByte_prev (b : Byte) (s : State) : (pushByte b s).prev = s.prev := rfl
@[simp] theorem pushByte_pk (b : Byte) (s : State) : (pushByte b s).pk = s.pk := rfl
@[simp] theorem pushByte_ub (b : Byte) (s : State) : (pushByte b s).ub = s.ub.pushByte b := rfl
@[simp] theorem pushByte_dict (b : Byte) (s : State) : (pushByte b s).dict = s.dict := rfl
@[simp] theorem pushByte_err (b : Byte) (s : State) : (pushByte b s).err = s.err := rfl
@[simp] theorem pushByte_errInfo (b : Byte) (s : State) : (pushByte b s).errInfo = s.errInfo := rfl
@[simp] theorem pushByte_byteOut (b : Byte) (s : State) : (pushByte b s).byteOut = s.byteOut := rfl
@[simp] theorem pushByte_symOut (b : Byte) (s : State) : (pushByte b s).symOut = s.symOut := rfl
@[simp] theorem pushByte_input (b : Byte) (s : State) : (pushByte b s).input = s.input := rfl
@[simp] theorem pushByte_r (b : Byte) (s : State) : (pushByte b s).r = s.r := rfl

/-! ### `streamReset` -/

@[simp] theorem streamReset_state (s : State) : (streamReset s).state = s.state := rfl
@[simp] theorem streamReset_mode (s : State) : (streamReset s).mode = s.mode := rfl
@[simp] theorem streamReset_root (s : State) : (streamReset s).root = s.root := rfl
@[simp] theorem streamReset_w (s : State) : (streamReset s).w = initialWidth s.r := rfl
@[simp] theorem streamReset_n (s : State) : (streamReset s).n = firstCode s.r := rfl
@[simp] theorem streamReset_curV (s : State) : (streamReset s).curV = s.curV := rfl
@[simp] theorem streamReset_cur (s : State) : (streamReset s).cur = s.cur := rfl
@[simp] theorem streamReset_prevV (s : State) : (streamReset s).prevV = s.prevV := rfl
@[simp] theorem streamReset_prev (s : State) : (streamReset s).prev = s.prev := rfl
@[simp] theorem streamReset_pk (s : State) : (streamReset s).pk = s.pk := rfl
@[simp] theorem streamReset_ub (s : State) : (streamReset s).ub = s.ub := rfl
@[simp] theorem streamReset_dict (s : State) : (streamReset s).dict = [] := rfl
@[simp] theorem streamReset_err (s : State) : (streamReset s).err = s.err := rfl
@[simp] theorem streamReset_errInfo (s : State) : (streamReset s).errInfo = s.errInfo := rfl
@[simp] theorem streamReset_byteOut (s : State) : (streamReset s).byteOut = s.byteOut := rfl
@[simp] theorem streamReset_symOut (s : State) : (streamReset s).symOut = s.symOut := rfl
@[simp] theorem streamReset_input (s : State) : (streamReset s).input = s.input := rfl
@[simp] theorem streamReset_r (s : State) : (streamReset s).r = s.r := rfl

/-! ### `beginStream` -/

@[simp] theorem beginStream_state (m : Mode) (a : EngineState) (r : BitVec 4) (s : State) : (beginStream m a r s).state = a := rfl
@[simp] theorem beginStream_mode (m : Mode) (a : EngineState) (r : BitVec 4) (s : State) : (beginStream m a r s).mode = m := rfl
@[simp] theorem beginStream_root (m : Mode) (a : EngineState) (r : BitVec 4) (s : State) : (beginStream m a r s).root = r := rfl
@[simp] theorem beginStream_w (m : Mode) (a : EngineState) (r : BitVec 4) (s : State) : (beginStream m a r s).w = initialWidth r.toNat := rfl
@[simp] theorem beginStream_n (m : Mode) (a : EngineState) (r : BitVec 4) (s : State) : (beginStream m a r s).n = firstCode r.toNat := rfl
@[simp] theorem beginStream_curV (m : Mode) (a : EngineState) (r : BitVec 4) (s : State) : (beginStream m a r s).curV = false := rfl
@[simp] theorem beginStream_cur (m : Mode) (a : EngineState) (r : BitVec 4) (s : State) : (beginStream m a r s).cur = 0 := rfl
@[simp] theorem beginStream_prevV (m : Mode) (a : EngineState) (r : BitVec 4) (s : State) : (beginStream m a r s).prevV = false := rfl
@[simp] theorem beginStream_prev (m : Mode) (a : EngineState) (r : BitVec 4) (s : State) : (beginStream m a r s).prev = 0 := rfl
@[simp] theorem beginStream_pk (m : Mode) (a : EngineState) (r : BitVec 4) (s : State) : (beginStream m a r s).pk = ⟨0, 0⟩ := rfl
@[simp] theorem beginStream_ub (m : Mode) (a : EngineState) (r : BitVec 4) (s : State) : (beginStream m a r s).ub = ⟨0, 0⟩ := rfl
@[simp] theorem beginStream_dict (m : Mode) (a : EngineState) (r : BitVec 4) (s : State) : (beginStream m a r s).dict = [] := rfl
@[simp] theorem beginStream_err (m : Mode) (a : EngineState) (r : BitVec 4) (s : State) : (beginStream m a r s).err = .none := rfl
@[simp] theorem beginStream_errInfo (m : Mode) (a : EngineState) (r : BitVec 4) (s : State) : (beginStream m a r s).errInfo = 0 := rfl
@[simp] theorem beginStream_byteOut (m : Mode) (a : EngineState) (r : BitVec 4) (s : State) : (beginStream m a r s).byteOut = s.byteOut := rfl
@[simp] theorem beginStream_symOut (m : Mode) (a : EngineState) (r : BitVec 4) (s : State) : (beginStream m a r s).symOut = s.symOut := rfl
@[simp] theorem beginStream_input (m : Mode) (a : EngineState) (r : BitVec 4) (s : State) : (beginStream m a r s).input = s.input := rfl
@[simp] theorem beginStream_r (m : Mode) (a : EngineState) (r : BitVec 4) (s : State) : (beginStream m a r s).r = r.toNat := rfl

/-! ### `hardReset` -/

@[simp] theorem hardReset_state (s : State) : (hardReset s).state = .idle := rfl
@[simp] theorem hardReset_mode (s : State) : (hardReset s).mode = .enc := rfl
@[simp] theorem hardReset_root (s : State) : (hardReset s).root = 0 := rfl
@[simp] theorem hardReset_w (s : State) : (hardReset s).w = 0 := rfl
@[simp] theorem hardReset_n (s : State) : (hardReset s).n = 0 := rfl
@[simp] theorem hardReset_curV (s : State) : (hardReset s).curV = false := rfl
@[simp] theorem hardReset_cur (s : State) : (hardReset s).cur = 0 := rfl
@[simp] theorem hardReset_prevV (s : State) : (hardReset s).prevV = false := rfl
@[simp] theorem hardReset_prev (s : State) : (hardReset s).prev = 0 := rfl
@[simp] theorem hardReset_pk (s : State) : (hardReset s).pk = ⟨0, 0⟩ := rfl
@[simp] theorem hardReset_ub (s : State) : (hardReset s).ub = ⟨0, 0⟩ := rfl
@[simp] theorem hardReset_dict (s : State) : (hardReset s).dict = [] := rfl
@[simp] theorem hardReset_err (s : State) : (hardReset s).err = .none := rfl
@[simp] theorem hardReset_errInfo (s : State) : (hardReset s).errInfo = 0 := rfl
@[simp] theorem hardReset_byteOut (s : State) : (hardReset s).byteOut = s.byteOut := rfl
@[simp] theorem hardReset_symOut (s : State) : (hardReset s).symOut = s.symOut := rfl
@[simp] theorem hardReset_input (s : State) : (hardReset s).input = s.input := rfl
@[simp] theorem hardReset_r (s : State) : (hardReset s).r = 0 := rfl

/-! ### `takeLiteral` -/

@[simp] theorem takeLiteral_state (x : BitVec 12) (s : State) : (takeLiteral x s).state = s.state := rfl
@[simp] theorem takeLiteral_mode (x : BitVec 12) (s : State) : (takeLiteral x s).mode = s.mode := rfl
@[simp] theorem takeLiteral_root (x : BitVec 12) (s : State) : (takeLiteral x s).root = s.root := rfl
@[simp] theorem takeLiteral_w (x : BitVec 12) (s : State) : (takeLiteral x s).w = s.w := rfl
@[simp] theorem takeLiteral_n (x : BitVec 12) (s : State) : (takeLiteral x s).n = s.n := rfl
@[simp] theorem takeLiteral_curV (x : BitVec 12) (s : State) : (takeLiteral x s).curV = true := rfl
@[simp] theorem takeLiteral_cur (x : BitVec 12) (s : State) : (takeLiteral x s).cur = x := rfl
@[simp] theorem takeLiteral_prevV (x : BitVec 12) (s : State) : (takeLiteral x s).prevV = s.prevV := rfl
@[simp] theorem takeLiteral_prev (x : BitVec 12) (s : State) : (takeLiteral x s).prev = s.prev := rfl
@[simp] theorem takeLiteral_pk (x : BitVec 12) (s : State) : (takeLiteral x s).pk = s.pk := rfl
@[simp] theorem takeLiteral_ub (x : BitVec 12) (s : State) : (takeLiteral x s).ub = s.ub := rfl
@[simp] theorem takeLiteral_dict (x : BitVec 12) (s : State) : (takeLiteral x s).dict = s.dict := rfl
@[simp] theorem takeLiteral_err (x : BitVec 12) (s : State) : (takeLiteral x s).err = s.err := rfl
@[simp] theorem takeLiteral_errInfo (x : BitVec 12) (s : State) : (takeLiteral x s).errInfo = s.errInfo := rfl
@[simp] theorem takeLiteral_byteOut (x : BitVec 12) (s : State) : (takeLiteral x s).byteOut = s.byteOut := rfl
@[simp] theorem takeLiteral_symOut (x : BitVec 12) (s : State) : (takeLiteral x s).symOut = s.symOut := rfl
@[simp] theorem takeLiteral_input (x : BitVec 12) (s : State) : (takeLiteral x s).input = s.input := rfl
@[simp] theorem takeLiteral_r (x : BitVec 12) (s : State) : (takeLiteral x s).r = s.r := rfl

/-! ### `decodeEmit` -/

@[simp] theorem decodeEmit_state (q : List Sym) (c : Code) (s : State) : (decodeEmit q c s).state = s.state := rfl
@[simp] theorem decodeEmit_mode (q : List Sym) (c : Code) (s : State) : (decodeEmit q c s).mode = s.mode := rfl
@[simp] theorem decodeEmit_root (q : List Sym) (c : Code) (s : State) : (decodeEmit q c s).root = s.root := rfl
@[simp] theorem decodeEmit_w (q : List Sym) (c : Code) (s : State) : (decodeEmit q c s).w = s.w := rfl
@[simp] theorem decodeEmit_n (q : List Sym) (c : Code) (s : State) : (decodeEmit q c s).n = s.n := rfl
@[simp] theorem decodeEmit_curV (q : List Sym) (c : Code) (s : State) : (decodeEmit q c s).curV = s.curV := rfl
@[simp] theorem decodeEmit_cur (q : List Sym) (c : Code) (s : State) : (decodeEmit q c s).cur = s.cur := rfl
@[simp] theorem decodeEmit_prevV (q : List Sym) (c : Code) (s : State) : (decodeEmit q c s).prevV = true := rfl
@[simp] theorem decodeEmit_prev (q : List Sym) (c : Code) (s : State) : (decodeEmit q c s).prev = c := rfl
@[simp] theorem decodeEmit_pk (q : List Sym) (c : Code) (s : State) : (decodeEmit q c s).pk = s.pk := rfl
@[simp] theorem decodeEmit_ub (q : List Sym) (c : Code) (s : State) : (decodeEmit q c s).ub = s.ub := rfl
@[simp] theorem decodeEmit_dict (q : List Sym) (c : Code) (s : State) : (decodeEmit q c s).dict = s.dict := rfl
@[simp] theorem decodeEmit_err (q : List Sym) (c : Code) (s : State) : (decodeEmit q c s).err = s.err := rfl
@[simp] theorem decodeEmit_errInfo (q : List Sym) (c : Code) (s : State) : (decodeEmit q c s).errInfo = s.errInfo := rfl
@[simp] theorem decodeEmit_byteOut (q : List Sym) (c : Code) (s : State) : (decodeEmit q c s).byteOut = s.byteOut := rfl
@[simp] theorem decodeEmit_symOut (q : List Sym) (c : Code) (s : State) : (decodeEmit q c s).symOut = s.symOut ++ q := rfl
@[simp] theorem decodeEmit_input (q : List Sym) (c : Code) (s : State) : (decodeEmit q c s).input = s.input := rfl
@[simp] theorem decodeEmit_r (q : List Sym) (c : Code) (s : State) : (decodeEmit q c s).r = s.r := rfl

/-! ### `deliver` -/

@[simp] theorem deliver_state (c : CmdWord) (s : State) : (deliver c s).state = s.state := rfl
@[simp] theorem deliver_mode (c : CmdWord) (s : State) : (deliver c s).mode = s.mode := rfl
@[simp] theorem deliver_root (c : CmdWord) (s : State) : (deliver c s).root = s.root := rfl
@[simp] theorem deliver_w (c : CmdWord) (s : State) : (deliver c s).w = s.w := rfl
@[simp] theorem deliver_n (c : CmdWord) (s : State) : (deliver c s).n = s.n := rfl
@[simp] theorem deliver_curV (c : CmdWord) (s : State) : (deliver c s).curV = s.curV := rfl
@[simp] theorem deliver_cur (c : CmdWord) (s : State) : (deliver c s).cur = s.cur := rfl
@[simp] theorem deliver_prevV (c : CmdWord) (s : State) : (deliver c s).prevV = s.prevV := rfl
@[simp] theorem deliver_prev (c : CmdWord) (s : State) : (deliver c s).prev = s.prev := rfl
@[simp] theorem deliver_pk (c : CmdWord) (s : State) : (deliver c s).pk = s.pk := rfl
@[simp] theorem deliver_ub (c : CmdWord) (s : State) : (deliver c s).ub = s.ub := rfl
@[simp] theorem deliver_dict (c : CmdWord) (s : State) : (deliver c s).dict = s.dict := rfl
@[simp] theorem deliver_err (c : CmdWord) (s : State) : (deliver c s).err = s.err := rfl
@[simp] theorem deliver_errInfo (c : CmdWord) (s : State) : (deliver c s).errInfo = s.errInfo := rfl
@[simp] theorem deliver_byteOut (c : CmdWord) (s : State) : (deliver c s).byteOut = s.byteOut := rfl
@[simp] theorem deliver_symOut (c : CmdWord) (s : State) : (deliver c s).symOut = s.symOut := rfl
@[simp] theorem deliver_input (c : CmdWord) (s : State) : (deliver c s).input = .command c :: s.input := rfl
@[simp] theorem deliver_r (c : CmdWord) (s : State) : (deliver c s).r = s.r := rfl

/-! ### `dictWrite` and `decodeAdvance`, which test before they write -/

@[simp] theorem dictWrite_state (i : Nat) (e : DictEntry) (s : State) : (dictWrite i e s).state = s.state := by
  unfold dictWrite; split <;> rfl
@[simp] theorem dictWrite_mode (i : Nat) (e : DictEntry) (s : State) : (dictWrite i e s).mode = s.mode := by
  unfold dictWrite; split <;> rfl
@[simp] theorem dictWrite_root (i : Nat) (e : DictEntry) (s : State) : (dictWrite i e s).root = s.root := by
  unfold dictWrite; split <;> rfl
@[simp] theorem dictWrite_w (i : Nat) (e : DictEntry) (s : State) : (dictWrite i e s).w = s.w := by
  unfold dictWrite; split <;> rfl
@[simp] theorem dictWrite_n (i : Nat) (e : DictEntry) (s : State) : (dictWrite i e s).n = s.n := by
  unfold dictWrite; split <;> rfl
@[simp] theorem dictWrite_curV (i : Nat) (e : DictEntry) (s : State) : (dictWrite i e s).curV = s.curV := by
  unfold dictWrite; split <;> rfl
@[simp] theorem dictWrite_cur (i : Nat) (e : DictEntry) (s : State) : (dictWrite i e s).cur = s.cur := by
  unfold dictWrite; split <;> rfl
@[simp] theorem dictWrite_prevV (i : Nat) (e : DictEntry) (s : State) : (dictWrite i e s).prevV = s.prevV := by
  unfold dictWrite; split <;> rfl
@[simp] theorem dictWrite_prev (i : Nat) (e : DictEntry) (s : State) : (dictWrite i e s).prev = s.prev := by
  unfold dictWrite; split <;> rfl
@[simp] theorem dictWrite_pk (i : Nat) (e : DictEntry) (s : State) : (dictWrite i e s).pk = s.pk := by
  unfold dictWrite; split <;> rfl
@[simp] theorem dictWrite_ub (i : Nat) (e : DictEntry) (s : State) : (dictWrite i e s).ub = s.ub := by
  unfold dictWrite; split <;> rfl
theorem dictWrite_dict (i : Nat) (e : DictEntry) (s : State) :
    (dictWrite i e s).dict = if i < Config.codes then s.dict.insert i e else s.dict := by
  unfold dictWrite; split <;> rfl
@[simp] theorem dictWrite_err (i : Nat) (e : DictEntry) (s : State) : (dictWrite i e s).err = s.err := by
  unfold dictWrite; split <;> rfl
@[simp] theorem dictWrite_errInfo (i : Nat) (e : DictEntry) (s : State) : (dictWrite i e s).errInfo = s.errInfo := by
  unfold dictWrite; split <;> rfl
@[simp] theorem dictWrite_byteOut (i : Nat) (e : DictEntry) (s : State) : (dictWrite i e s).byteOut = s.byteOut := by
  unfold dictWrite; split <;> rfl
@[simp] theorem dictWrite_symOut (i : Nat) (e : DictEntry) (s : State) : (dictWrite i e s).symOut = s.symOut := by
  unfold dictWrite; split <;> rfl
@[simp] theorem dictWrite_input (i : Nat) (e : DictEntry) (s : State) : (dictWrite i e s).input = s.input := by
  unfold dictWrite; split <;> rfl
@[simp] theorem dictWrite_r (i : Nat) (e : DictEntry) (s : State) : (dictWrite i e s).r = s.r := by
  unfold dictWrite; split <;> rfl

@[simp] theorem decodeAdvance_state (s : State) : (decodeAdvance s).state = s.state := by
  unfold decodeAdvance; dsimp only; split <;> rfl
@[simp] theorem decodeAdvance_mode (s : State) : (decodeAdvance s).mode = s.mode := by
  unfold decodeAdvance; dsimp only; split <;> rfl
@[simp] theorem decodeAdvance_root (s : State) : (decodeAdvance s).root = s.root := by
  unfold decodeAdvance; dsimp only; split <;> rfl
theorem decodeAdvance_w (s : State) :
    (decodeAdvance s).w = if min (s.n + 1) Config.codes = 2 ^ s.w - 1 then min Config.maxw (s.w + 1) else s.w := by
  unfold decodeAdvance; dsimp only; split <;> rfl
@[simp] theorem decodeAdvance_n (s : State) : (decodeAdvance s).n = min (s.n + 1) Config.codes := by
  unfold decodeAdvance; dsimp only; split <;> rfl
@[simp] theorem decodeAdvance_curV (s : State) : (decodeAdvance s).curV = s.curV := by
  unfold decodeAdvance; dsimp only; split <;> rfl
@[simp] theorem decodeAdvance_cur (s : State) : (decodeAdvance s).cur = s.cur := by
  unfold decodeAdvance; dsimp only; split <;> rfl
@[simp] theorem decodeAdvance_prevV (s : State) : (decodeAdvance s).prevV = s.prevV := by
  unfold decodeAdvance; dsimp only; split <;> rfl
@[simp] theorem decodeAdvance_prev (s : State) : (decodeAdvance s).prev = s.prev := by
  unfold decodeAdvance; dsimp only; split <;> rfl
@[simp] theorem decodeAdvance_pk (s : State) : (decodeAdvance s).pk = s.pk := by
  unfold decodeAdvance; dsimp only; split <;> rfl
@[simp] theorem decodeAdvance_ub (s : State) : (decodeAdvance s).ub = s.ub := by
  unfold decodeAdvance; dsimp only; split <;> rfl
@[simp] theorem decodeAdvance_dict (s : State) : (decodeAdvance s).dict = s.dict := by
  unfold decodeAdvance; dsimp only; split <;> rfl
@[simp] theorem decodeAdvance_err (s : State) : (decodeAdvance s).err = s.err := by
  unfold decodeAdvance; dsimp only; split <;> rfl
@[simp] theorem decodeAdvance_errInfo (s : State) : (decodeAdvance s).errInfo = s.errInfo := by
  unfold decodeAdvance; dsimp only; split <;> rfl
@[simp] theorem decodeAdvance_byteOut (s : State) : (decodeAdvance s).byteOut = s.byteOut := by
  unfold decodeAdvance; dsimp only; split <;> rfl
@[simp] theorem decodeAdvance_symOut (s : State) : (decodeAdvance s).symOut = s.symOut := by
  unfold decodeAdvance; dsimp only; split <;> rfl
@[simp] theorem decodeAdvance_input (s : State) : (decodeAdvance s).input = s.input := by
  unfold decodeAdvance; dsimp only; split <;> rfl
@[simp] theorem decodeAdvance_r (s : State) : (decodeAdvance s).r = s.r := by
  unfold decodeAdvance; dsimp only; split <;> rfl

/-! ### `encodeMiss` -/

@[simp] theorem encodeMiss_state (x : BitVec 12) (s : State) : (encodeMiss x s).state = s.state := by
  simp [encodeMiss, literalCode]
@[simp] theorem encodeMiss_mode (x : BitVec 12) (s : State) : (encodeMiss x s).mode = s.mode := by
  simp [encodeMiss, literalCode]
@[simp] theorem encodeMiss_root (x : BitVec 12) (s : State) : (encodeMiss x s).root = s.root := by
  simp [encodeMiss, literalCode]
@[simp] theorem encodeMiss_w (x : BitVec 12) (s : State) : (encodeMiss x s).w = s.w := by
  simp [encodeMiss, literalCode]
@[simp] theorem encodeMiss_n (x : BitVec 12) (s : State) : (encodeMiss x s).n = s.n + 1 := by
  simp [encodeMiss, literalCode]
@[simp] theorem encodeMiss_curV (x : BitVec 12) (s : State) : (encodeMiss x s).curV = s.curV := by
  simp [encodeMiss, literalCode]
@[simp] theorem encodeMiss_cur (x : BitVec 12) (s : State) : (encodeMiss x s).cur = x := by
  simp [encodeMiss, literalCode]
@[simp] theorem encodeMiss_prevV (x : BitVec 12) (s : State) : (encodeMiss x s).prevV = s.prevV := by
  simp [encodeMiss, literalCode]
@[simp] theorem encodeMiss_prev (x : BitVec 12) (s : State) : (encodeMiss x s).prev = s.prev := by
  simp [encodeMiss, literalCode]
@[simp] theorem encodeMiss_pk (x : BitVec 12) (s : State) : (encodeMiss x s).pk = (s.pk.pack s.w s.cur).1 := by
  simp [encodeMiss, literalCode]
@[simp] theorem encodeMiss_ub (x : BitVec 12) (s : State) : (encodeMiss x s).ub = s.ub := by
  simp [encodeMiss, literalCode]
@[simp] theorem encodeMiss_err (x : BitVec 12) (s : State) : (encodeMiss x s).err = s.err := by
  simp [encodeMiss, literalCode]
@[simp] theorem encodeMiss_errInfo (x : BitVec 12) (s : State) : (encodeMiss x s).errInfo = s.errInfo := by
  simp [encodeMiss, literalCode]
@[simp] theorem encodeMiss_byteOut (x : BitVec 12) (s : State) : (encodeMiss x s).byteOut = s.byteOut ++ (s.pk.pack s.w s.cur).2 := by
  simp [encodeMiss, literalCode]
@[simp] theorem encodeMiss_symOut (x : BitVec 12) (s : State) : (encodeMiss x s).symOut = s.symOut := by
  simp [encodeMiss, literalCode]
@[simp] theorem encodeMiss_input (x : BitVec 12) (s : State) : (encodeMiss x s).input = s.input := by
  simp [encodeMiss, literalCode]
@[simp] theorem encodeMiss_r (x : BitVec 12) (s : State) : (encodeMiss x s).r = s.r := by
  simp [encodeMiss, literalCode, State.r]
theorem encodeMiss_dict (x : BitVec 12) (s : State) :
    (encodeMiss x s).dict = (dictWrite s.n ⟨s.cur, symOperand x⟩ s).dict := by
  simp [encodeMiss, dictWrite_dict]

end Sys2Proof.Machine
end

