-- ==== Sys2Proof/Laws/BitChannel.lean ====
section
/-! SUPPORT. What the packer and the unpacker do, as arithmetic (40_bit_channel). -/

namespace Sys2Proof.Machine

/-! ### Numbers of bytes -/

@[simp] theorem bytesValue_nil : bytesValue [] = 0 := rfl

theorem bytesValue_append (a b : List Byte) : bytesValue (a ++ b) = bytesValue a + 2 ^ (8 * a.length) * bytesValue b := by
  induction a with
  | nil => simp
  | cons x xs ih =>
    simp only [List.cons_append, bytesValue, ih, List.length_cons]
    ring

theorem bytesValue_lt (bs : List Byte) : bytesValue bs < 2 ^ (8 * bs.length) := by
  induction bs with
  | nil => simp
  | cons b bs ih =>
    have hb := b.isLt
    have : 2 ^ (8 * (b :: bs).length) = 2 ^ 8 * 2 ^ (8 * bs.length) := by simp only [List.length_cons]; ring
    simp only [bytesValue]
    omega

/-- A value below `2^n` and a shift by `n` have no bit in common, so OR is the sum. -/
theorem or_shift_eq_add {a n b : Nat} (h : a < 2 ^ n) : a ||| b <<< n = a + 2 ^ n * b := by
  rw [Nat.or_comm, ← Nat.shiftLeft_add_eq_or_of_lt h, Nat.shiftLeft_eq]
  ring

/-! ### The packer -/

theorem Packer.lowByte_toNat (p : Packer) : p.lowByte.toNat = p.acc.toNat % 2 ^ 8 := by
  simp [Packer.lowByte]

theorem Packer.dropByte_acc (p : Packer) : p.dropByte.acc.toNat = p.acc.toNat / 2 ^ 8 := by
  simp [Packer.dropByte, Nat.shiftRight_eq_div_pow]

@[simp] theorem Packer.dropByte_n (p : Packer) : p.dropByte.n = p.n - 8 := rfl

/-- The code placed above the open bits: nothing is lost from the 20 bits of `PK_ACC` (40_bit_channel R78). -/
theorem Packer.place_acc {p : Packer} {c : Nat} {v : Code} (hn : p.n ≤ 8) (ha : p.acc.toNat < 2 ^ p.n) (hc : c ≤ 12) :
    (p.place c v).acc.toNat = p.acc.toNat + 2 ^ p.n * (v.toNat % 2 ^ c) := by
  have hv : (v &&& BitVec.ofNat 12 (2 ^ c - 1)).toNat = v.toNat % 2 ^ c := by
    have h12 : 2 ^ c ≤ 2 ^ 12 := Nat.pow_le_pow_right (by norm_num) hc
    rw [BitVec.toNat_and, BitVec.toNat_ofNat, Nat.mod_eq_of_lt (by have := Nat.two_pow_pos c; omega),
      Nat.and_two_pow_sub_one_eq_mod]
  have hlt : (v.toNat % 2 ^ c) < 2 ^ 12 := lt_of_le_of_lt (Nat.mod_le _ _) v.isLt
  have hsh : 2 ^ p.n * (v.toNat % 2 ^ c) < 2 ^ 20 := by
    have h8 : 2 ^ p.n ≤ 2 ^ 8 := Nat.pow_le_pow_right (by norm_num) hn
    calc 2 ^ p.n * (v.toNat % 2 ^ c) ≤ 2 ^ 8 * (v.toNat % 2 ^ c) := Nat.mul_le_mul_right _ h8
      _ < 2 ^ 8 * 2 ^ 12 := by omega
      _ = 2 ^ 20 := by norm_num
  simp only [Packer.place, BitVec.toNat_or, BitVec.toNat_shiftLeft, BitVec.toNat_setWidth, hv]
  rw [Nat.mod_eq_of_lt (show v.toNat % 2 ^ c < 2 ^ 20 by omega), Nat.shiftLeft_eq, Nat.mul_comm, Nat.mod_eq_of_lt hsh]
  rw [← or_shift_eq_add ha, Nat.shiftLeft_eq, Nat.mul_comm]

/-- What a byte that leaves and the rest make together. -/
theorem Packer.lowByte_dropByte (p : Packer) : p.lowByte.toNat + 2 ^ 8 * p.dropByte.acc.toNat = p.acc.toNat := by
  rw [Packer.lowByte_toNat, Packer.dropByte_acc]
  exact Nat.mod_add_div _ _

theorem Packer.dropByte_lt {p : Packer} (h : p.acc.toNat < 2 ^ p.n) (hn : 8 ≤ p.n) :
    p.dropByte.acc.toNat < 2 ^ (p.n - 8) := by
  rw [Packer.dropByte_acc]
  apply Nat.div_lt_of_lt_mul
  rwa [← pow_add, Nat.add_sub_cancel' hn]

theorem Packer.split_spec {p : Packer} (h : p.ok) :
    p.split.1.n ≤ 8 ∧ p.split.1.acc.toNat < 2 ^ p.split.1.n ∧ p.split.2.length ≤ 1 ∧
      8 * p.split.2.length + p.split.1.n = p.n ∧
      bytesValue p.split.2 + 2 ^ (8 * p.split.2.length) * p.split.1.acc.toNat = p.acc.toNat := by
  obtain ⟨hn, ha⟩ := h
  unfold Packer.split
  split
  · refine ⟨by simp; omega, by simpa using Packer.dropByte_lt ha (by omega), by simp, by simp; omega, ?_⟩
    simpa [bytesValue] using Packer.lowByte_dropByte p
  · exact ⟨by dsimp only; omega, ha, by simp, by simp, by simp [bytesValue]⟩

theorem Packer.spill_spec {p : Packer} (hn : p.n ≤ 20) (ha : p.acc.toNat < 2 ^ p.n) :
    p.spill.1.ok ∧ p.spill.2.length ≤ 1 ∧ 8 * p.spill.2.length + p.spill.1.n = p.n ∧
      bytesValue p.spill.2 + 2 ^ (8 * p.spill.2.length) * p.spill.1.acc.toNat = p.acc.toNat := by
  unfold Packer.spill
  split
  · refine ⟨⟨by simp; omega, by simpa using Packer.dropByte_lt ha (by omega)⟩, by simp, by simp; omega, ?_⟩
    simpa [bytesValue] using Packer.lowByte_dropByte p
  · split
    · rename_i h8
      rw [h8] at ha
      refine ⟨⟨by simp, by simp⟩, by simp, by simp [h8], ?_⟩
      simpa [bytesValue, Packer.lowByte_toNat] using ha
    · exact ⟨⟨by dsimp only; omega, ha⟩, by simp, by simp, by simp [bytesValue]⟩

/-- `Pack` (40_bit_channel R75, R77, R78): at most two bytes leave, no bit is lost, and the bounds hold again. -/
theorem Packer.pack_spec {p : Packer} {c : Nat} (v : Code) (h : p.ok) (hc : c ≤ 12) :
    (p.pack c v).1.ok ∧ (p.pack c v).2.length ≤ 2 ∧ 8 * (p.pack c v).2.length + (p.pack c v).1.n = p.n + c ∧
      bytesValue (p.pack c v).2 + 2 ^ (8 * (p.pack c v).2.length) * (p.pack c v).1.acc.toNat =
        p.acc.toNat + 2 ^ p.n * (v.toNat % 2 ^ c) := by
  obtain ⟨h1, h2, h3, h4, h5⟩ := Packer.split_spec h
  have hpl := Packer.place_acc (v := v) h1 h2 hc
  have hpn : (p.split.1.place c v).n = p.split.1.n + c := rfl
  have hv : v.toNat % 2 ^ c < 2 ^ c := Nat.mod_lt _ (Nat.two_pow_pos c)
  have hlt : (p.split.1.place c v).acc.toNat < 2 ^ (p.split.1.place c v).n := by
    rw [hpl, hpn, pow_add]
    calc _ < 2 ^ p.split.1.n + 2 ^ p.split.1.n * (v.toNat % 2 ^ c) := by omega
      _ = 2 ^ p.split.1.n * (v.toNat % 2 ^ c + 1) := by ring
      _ ≤ _ := Nat.mul_le_mul_left _ hv
  obtain ⟨g1, g2, g3, g4⟩ := Packer.spill_spec (by rw [hpn]; omega) hlt
  simp only [Packer.pack, List.length_append, bytesValue_append]
  refine ⟨g1, by omega, by omega, ?_⟩
  rw [hpl] at g4
  generalize hL : p.split.2.length = L at *
  generalize (p.split.1.place c v).spill.2.length = M at *
  generalize (p.split.1.place c v).spill.1.acc.toNat = A at *
  rw [← h5, ← h4, show 8 * (L + M) = 8 * L + 8 * M by ring, pow_add, pow_add]
  have : 2 ^ (8 * L) * bytesValue (p.split.1.place c v).spill.2 + 2 ^ (8 * L) * 2 ^ (8 * M) * A =
      2 ^ (8 * L) * (p.split.1.acc.toNat + 2 ^ p.split.1.n * (v.toNat % 2 ^ c)) := by rw [← g4]; ring
  linarith [this]

theorem Packer.drain_spec (fuel : Nat) (p : Packer) (hf : p.n ≤ 8 * fuel) (ha : p.acc.toNat < 2 ^ p.n) :
    (p.drain fuel).length = (p.n + 7) / 8 ∧ bytesValue (p.drain fuel) = p.acc.toNat := by
  induction fuel generalizing p with
  | zero =>
    have h0 : p.n = 0 := by omega
    rw [h0] at ha
    simp only [Packer.drain, List.length_nil, bytesValue_nil]
    omega
  | succ k ih =>
    unfold Packer.drain
    split
    · have hd : p.dropByte.acc.toNat < 2 ^ p.dropByte.n := by
        rcases Nat.lt_or_ge p.n 8 with h | h
        · rw [Packer.dropByte_acc, Packer.dropByte_n, Nat.sub_eq_zero_of_le h.le, Nat.div_eq_of_lt]
          · simp
          · exact lt_of_lt_of_le ha (Nat.pow_le_pow_right (by norm_num) h.le)
        · simpa using Packer.dropByte_lt ha h
      obtain ⟨h1, h2⟩ := ih p.dropByte (by simp; omega) hd
      refine ⟨?_, ?_⟩
      · rw [List.length_cons, h1, Packer.dropByte_n]; omega
      · rw [bytesValue, h2]; exact Packer.lowByte_dropByte p
    · have h0 : p.n = 0 := by omega
      rw [h0] at ha
      simp only [List.length_nil, bytesValue_nil]
      omega

/-- `Flush` (40_bit_channel R76): every open bit leaves, in as few bytes as hold them. -/
theorem Packer.flush_spec {p : Packer} (ha : p.acc.toNat < 2 ^ p.n) :
    p.flush.1 = ⟨0, 0⟩ ∧ p.flush.2.length = (p.n + 7) / 8 ∧ bytesValue p.flush.2 = p.acc.toNat :=
  ⟨rfl, Packer.drain_spec p.n p (by omega) ha⟩

/-! ### The unpacker -/

/-- `PushByte` (40_bit_channel R79). -/
theorem Unpacker.pushByte_spec {u : Unpacker} (b : Byte) (hn : u.n ≤ 11) (ha : u.buf.toNat < 2 ^ u.n) :
    (u.pushByte b).n = u.n + 8 ∧ (u.pushByte b).buf.toNat = u.buf.toNat + 2 ^ u.n * b.toNat ∧ (u.pushByte b).ok := by
  have hb := b.isLt
  have h11 : 2 ^ u.n ≤ 2 ^ 11 := Nat.pow_le_pow_right (by norm_num) hn
  have hsh : 2 ^ u.n * b.toNat < 2 ^ 19 := by
    calc 2 ^ u.n * b.toNat ≤ 2 ^ 11 * b.toNat := Nat.mul_le_mul_right _ h11
      _ < 2 ^ 11 * 2 ^ 8 := by omega
      _ = 2 ^ 19 := by norm_num
  have hv : (u.pushByte b).buf.toNat = u.buf.toNat + 2 ^ u.n * b.toNat := by
    simp only [Unpacker.pushByte, BitVec.toNat_or, BitVec.toNat_shiftLeft, BitVec.toNat_setWidth]
    rw [Nat.mod_eq_of_lt (show b.toNat < 2 ^ 19 by omega), Nat.shiftLeft_eq, Nat.mul_comm, Nat.mod_eq_of_lt hsh]
    rw [← or_shift_eq_add ha, Nat.shiftLeft_eq, Nat.mul_comm]
  refine ⟨rfl, hv, by show u.n + 8 ≤ 19; omega, ?_⟩
  rw [hv, show (u.pushByte b).n = u.n + 8 from rfl, pow_add]
  calc _ < 2 ^ u.n + 2 ^ u.n * b.toNat := by omega
    _ = 2 ^ u.n * (b.toNat + 1) := by ring
    _ ≤ _ := Nat.mul_le_mul_left _ (by omega)

theorem Unpacker.read_eq_none_iff (u : Unpacker) (w : Nat) : u.read w = none ↔ u.n < w := by
  unfold Unpacker.read
  split <;> simp [*]

/-- `UnpackRead` (40_bit_channel R80). -/
theorem Unpacker.read_spec {u v : Unpacker} {w : Nat} {c : Code} (hw : w ≤ 12) (h : u.read w = some (c, v)) :
    w ≤ u.n ∧ v.n = u.n - w ∧ c.toNat = u.buf.toNat % 2 ^ w ∧ v.buf.toNat = u.buf.toNat / 2 ^ w := by
  unfold Unpacker.read at h
  split at h
  · cases h
  · obtain ⟨rfl, rfl⟩ := Prod.mk.inj (Option.some.inj h)
    have h12 : 2 ^ w ≤ 2 ^ 12 := Nat.pow_le_pow_right (by norm_num) hw
    have hp := Nat.two_pow_pos w
    refine ⟨by omega, rfl, ?_, by simp [Nat.shiftRight_eq_div_pow]⟩
    rw [BitVec.toNat_setWidth, BitVec.toNat_and, BitVec.toNat_ofNat, Nat.mod_eq_of_lt (show 2 ^ w - 1 < 2 ^ 19 by omega),
      Nat.and_two_pow_sub_one_eq_mod, Nat.mod_eq_of_lt]
    exact lt_of_lt_of_le (Nat.mod_lt _ hp) h12

theorem Unpacker.read_ok {u v : Unpacker} {w : Nat} {c : Code} (hw : w ≤ 12) (hu : u.ok) (h : u.read w = some (c, v)) :
    v.ok := by
  obtain ⟨h1, h2, -, h4⟩ := Unpacker.read_spec hw h
  refine ⟨by have := hu.1; omega, ?_⟩
  rw [h4, h2]
  apply Nat.div_lt_of_lt_mul
  rw [← pow_add, Nat.add_sub_cancel' h1]
  exact hu.2

end Sys2Proof.Machine
end

