-- ==== Sys2Proof/Laws/Decode.lean ====
section
/-! SUPPORT. What the decoder answers. -/

namespace Sys2Proof

/-- The command port carries commands only. -/
theorem isCommand_of_decodeCommand {w : CmdWord} {i : Instr} (h : decodeCommand w = .ok i) : i.isCommand = true := by
  unfold decodeCommand at h
  dsimp only at h
  split at h <;> (try split at h) <;> cases h <;> rfl

/-- The one reason to reject a command, which carries the command's word. -/
theorem reject_of_decodeCommand {w : CmdWord} {why : Reject} (h : decodeCommand w = .rejected why) : why = .malformed w := by
  unfold decodeCommand at h
  dsimp only at h
  split at h <;> (try split at h) <;> cases h <;> rfl

end Sys2Proof
end

