-- ==== Sys2Proof/Laws/Dictionary.lean ====
section
/-! SUPPORT. What the dictionary operations do (41_dictionary): the map, `seq`, the CAM search, the write. -/

namespace Sys2Proof.Machine

/-! ### The map -/

theorem Dict.read_insert (d : Dict) (i : Nat) (e : DictEntry) (j : Nat) :
    (d.insert i e).read j = if j = i then some e else d.read j := by
  induction d with
  | nil => simp [Dict.insert, Dict.read]
  | cons p rest ih =>
    obtain ⟨k, f⟩ := p
    unfold Dict.insert
    split
    · simp [Dict.read]
    · split
      · subst_vars; by_cases h : j = k <;> simp [Dict.read, h]
      · simp only [Dict.read, ih]
        by_cases h : j = k
        · subst h; rw [if_pos rfl, if_pos rfl, if_neg (by omega)]
        · simp [h]

theorem Dict.mem_insert {d : Dict} {i : Nat} {e : DictEntry} {p : Nat × DictEntry} (h : p ∈ d.insert i e) :
    p = (i, e) ∨ p ∈ d := by
  induction d with
  | nil => simpa [Dict.insert] using h
  | cons q rest ih =>
    obtain ⟨k, f⟩ := q
    unfold Dict.insert at h
    split at h
    · simpa using h
    · split at h
      · rcases List.mem_cons.mp h with h | h
        · exact .inl h
        · exact .inr (List.mem_cons_of_mem _ h)
      · rcases List.mem_cons.mp h with h | h
        · exact .inr (h ▸ List.mem_cons_self)
        · exact (ih h).imp_right (List.mem_cons_of_mem _)

/-- A write keeps the canonical form of the map. -/
theorem Dict.insert_wf {d : Dict} {i : Nat} (e : DictEntry) (h : d.wf) (hi : i < Config.codes) : (d.insert i e).wf := by
  obtain ⟨hs, hb⟩ := h
  refine ⟨?_, fun p hp => ?_⟩
  · clear hb
    induction d with
    | nil => simp [Dict.insert]
    | cons p rest ih =>
      obtain ⟨k, f⟩ := p
      obtain ⟨hk, hr⟩ := List.pairwise_cons.mp hs
      unfold Dict.insert
      split
      · refine List.pairwise_cons.mpr ⟨fun q hq => ?_, hs⟩
        rcases List.mem_cons.mp hq with rfl | hq
        · assumption
        · exact lt_trans ‹_› (hk q hq)
      · split
        · subst_vars; exact List.pairwise_cons.mpr ⟨hk, hr⟩
        · refine List.pairwise_cons.mpr ⟨fun q hq => ?_, ih hr⟩
          rcases Dict.mem_insert hq with rfl | hq
          · dsimp only; omega
          · exact hk q hq
  · rcases Dict.mem_insert hp with rfl | hp
    · exact hi
    · exact hb p hp

/-- A code above every listed one goes to the end of the map. -/
theorem Dict.insert_of_lt {d : Dict} {i : Nat} (e : DictEntry) (h : ∀ p ∈ d, p.1 < i) : d.insert i e = d ++ [(i, e)] := by
  induction d with
  | nil => rfl
  | cons p rest ih =>
    obtain ⟨k, f⟩ := p
    have hk : k < i := h (k, f) List.mem_cons_self
    unfold Dict.insert
    rw [if_neg (by omega), if_neg (by omega), ih fun q hq => h q (List.mem_cons_of_mem _ hq)]
    rfl

theorem Dict.mem_of_read {d : Dict} {i : Nat} {e : DictEntry} (h : d.read i = some e) : (i, e) ∈ d := by
  induction d with
  | nil => simp [Dict.read] at h
  | cons p rest ih =>
    obtain ⟨k, f⟩ := p
    unfold Dict.read at h
    split at h
    · cases h; subst_vars; exact List.mem_cons_self
    · exact List.mem_cons_of_mem _ (ih h)

theorem Dict.read_isSome_iff (d : Dict) (i : Nat) : (d.read i).isSome ↔ i ∈ d.map Prod.fst := by
  induction d with
  | nil => simp [Dict.read]
  | cons p rest ih =>
    obtain ⟨k, f⟩ := p
    unfold Dict.read
    split
    · simp [*]
    · simp only [ih, List.map_cons, List.mem_cons]
      constructor
      · exact .inr
      · rintro (h | h)
        · exact absurd h ‹_›
        · exact h

theorem Dict.read_of_mem {d : Dict} {i : Nat} {e : DictEntry} (hn : (d.map Prod.fst).Nodup) (h : (i, e) ∈ d) :
    d.read i = some e := by
  induction d with
  | nil => simp at h
  | cons p rest ih =>
    obtain ⟨k, f⟩ := p
    obtain ⟨hk, hr⟩ := List.nodup_cons.mp hn
    unfold Dict.read
    rcases List.mem_cons.mp h with h | h
    · cases h; simp
    · have hne : i ≠ k := fun hik => hk (List.mem_map.mpr ⟨_, h, hik⟩)
      rw [if_neg hne, ih hr h]

/-! ### The map of a state -/

section Listed

variable {s : State} (hl : s.dictListsPresent)

include hl

theorem State.dictListsPresent.nodup : (s.dict.map Prod.fst).Nodup := by
  rw [hl]; exact List.nodup_range'

theorem State.dictListsPresent.isSome_iff (i : Nat) : (s.dict.read i).isSome ↔ s.present i := by
  rw [Dict.read_isSome_iff, hl, List.mem_range'_1]
  unfold State.present
  omega

theorem State.dictListsPresent.bounds {p : Nat × DictEntry} (h : p ∈ s.dict) : s.present p.1 := by
  have := List.mem_map_of_mem (f := Prod.fst) h
  rw [hl, List.mem_range'_1] at this
  unfold State.present
  omega

theorem State.dictListsPresent.wf : s.dict.wf := by
  refine ⟨?_, fun p hp => ?_⟩
  · rw [← List.pairwise_map, hl]
    exact List.pairwise_lt_range'
  · have := hl.bounds hp
    unfold State.present at this
    omega

theorem State.dictListsPresent.read_iff (i : Nat) (e : DictEntry) : s.dict.read i = some e ↔ (i, e) ∈ s.dict :=
  ⟨Dict.mem_of_read, Dict.read_of_mem hl.nodup⟩

end Listed

/-! ### `seq` (41_dictionary R89) -/

/-- `seq` reads the root size, the presence bound and the map, and nothing else. -/
theorem State.seqTo_congr {s t : State} (hr : s.r = t.r) (hn : s.n = t.n) (hd : s.dict = t.dict) (fuel c : Nat) :
    s.seqTo fuel c = t.seqTo fuel c := by
  induction fuel generalizing c with
  | zero => rfl
  | succ k ih => simp only [State.seqTo, State.present, hr, hn, hd, ih]

theorem State.seq_congr {s t : State} (hr : s.r = t.r) (hn : s.n = t.n) (hd : s.dict = t.dict) (c : Code) :
    s.seq c = t.seq c := State.seqTo_congr hr hn hd _ _

/-- With prefixes below their codes, a depth above the code is enough. -/
theorem State.seqTo_enough {s : State} (he : s.entriesLegal) {c : Nat} :
    ∀ {m k : Nat}, c < m → c < k → s.seqTo m c = s.seqTo k c := by
  induction c using Nat.strong_induction_on with
  | _ c ih =>
    intro m k hm hk
    obtain ⟨m, rfl⟩ := Nat.exists_eq_add_of_lt hm
    obtain ⟨k, rfl⟩ := Nat.exists_eq_add_of_lt hk
    clear hm hk
    simp only [State.seqTo]
    split
    · rfl
    · split
      · cases hrd : s.dict.read c with
        | none => rfl
        | some e =>
          have hp : e.prefixCode.toNat < c := (he _ (Dict.mem_of_read hrd)).1
          dsimp only
          rw [ih _ hp (show e.prefixCode.toNat < c + m by omega) (show e.prefixCode.toNat < c + k by omega)]
      · rfl

theorem State.seq_literal {s : State} {c : Code} (h : c.toNat < clrCode s.r) : s.seq c = some [symOfCode c] := by
  simp [State.seq, State.seqTo, h]

theorem State.seq_present {s : State} (he : s.entriesLegal) {c : Code} (hc : s.present c.toNat) {e : DictEntry}
    (h : s.dict.read c.toNat = some e) : s.seq c = (s.seq e.prefixCode).map (· ++ [e.suffix]) := by
  have hp : e.prefixCode.toNat < c.toNat := (he _ (Dict.mem_of_read h)).1
  have hlt : ¬ c.toNat < clrCode s.r := by
    have := hc.1; unfold firstCode at this; unfold clrCode; omega
  have hb : e.prefixCode.toNat < Config.codes := e.prefixCode.isLt
  unfold State.seq
  rw [State.seqTo, if_neg hlt, if_pos hc, h]
  dsimp only
  rw [State.seqTo_enough he (m := Config.codes) (k := Config.codes + 1) hb (by omega)]
  cases s.seqTo (Config.codes + 1) e.prefixCode.toNat <;> rfl

theorem State.seq_absent {s : State} {c : Code} (h : ¬ c.toNat < clrCode s.r) (hc : ¬ s.present c.toNat) :
    s.seq c = none := by
  unfold State.seq
  rw [State.seqTo, if_neg h, if_neg hc]

theorem State.runCode.denotes {s : State} {c : Code} (h : s.runCode c) : s.denotes c := by
  obtain ⟨h1, h2, h3⟩ := h
  have hc := c.isLt
  simp only [State.denotes, State.present, clrCode, eoiCode, firstCode, Config.codes] at *
  omega

/-- The prefix of a stored entry denotes a sequence. -/
theorem State.entriesLegal.prefix_denotes {s : State} (hl : s.dictListsPresent) (he : s.entriesLegal)
    {p : Nat × DictEntry} (h : p ∈ s.dict) : s.denotes p.2.prefixCode := by
  obtain ⟨h1, h2, h3, -⟩ := he p h
  have hb := hl.bounds h
  have hc := p.2.prefixCode.isLt
  simp only [State.denotes, State.present, clrCode, eoiCode, firstCode, Config.codes] at *
  omega

/-- A literal or present code denotes a non-empty sequence (41_dictionary R88, R89). -/
theorem State.seq_nonempty {s : State} (hl : s.dictListsPresent) (he : s.entriesLegal) {c : Code} (h : s.denotes c) :
    ∃ f q, s.seq c = some (f :: q) := by
  generalize hk : c.toNat = k
  induction k using Nat.strong_induction_on generalizing c with
  | _ k ih =>
    subst hk
    rcases h with h | h
    · exact ⟨_, _, State.seq_literal h⟩
    · obtain ⟨e, hrd⟩ := Option.isSome_iff_exists.mp ((hl.isSome_iff _).mpr h)
      have hm := Dict.mem_of_read hrd
      obtain ⟨f, q, hq⟩ := ih _ (he _ hm).1 (State.entriesLegal.prefix_denotes hl he hm) rfl
      exact ⟨f, q ++ [e.suffix], by rw [State.seq_present he h hrd, hq]; rfl⟩

/-! ### The CAM search (41_dictionary R91) -/

theorem State.camSearch_some {s : State} (hw : s.dict.wf) {p : Code} {x : Sym} {k : Code}
    (h : s.camSearch p x = some k) :
    firstCode s.r ≤ k.toNat ∧ k.toNat < s.n ∧ (k.toNat, ⟨p, x⟩) ∈ s.dict := by
  unfold State.camSearch at h
  split at h
  · rename_i e hf
    cases h
    have hp := List.find?_some hf
    obtain ⟨h1, h2, h3⟩ := of_decide_eq_true hp
    have hm := List.mem_of_find?_eq_some hf
    have hb := hw.2 _ hm
    have he : (BitVec.ofNat 12 e.1).toNat = e.1 := by
      rw [BitVec.toNat_ofNat]; exact Nat.mod_eq_of_lt hb
    rw [he, ← h3]
    exact ⟨h1, h2, hm⟩
  · cases h

theorem State.camSearch_none {s : State} {p : Code} {x : Sym} :
    s.camSearch p x = none ↔ ∀ e ∈ s.dict, ¬ (firstCode s.r ≤ e.1 ∧ e.1 < s.n ∧ e.2 = ⟨p, x⟩) := by
  unfold State.camSearch
  constructor
  · intro h
    split at h
    · cases h
    · rename_i hf
      exact fun e he => by simpa using List.find?_eq_none.mp hf e he
  · intro h
    rw [List.find?_eq_none.mpr fun e he => by simpa using h e he]

end Sys2Proof.Machine
end

