-- ==== Sys2Proof/Laws/Ops.lean ====
section
/-! SUPPORT. What the shared operations do: stages, dispatch, insertion, the loop of DEC_BYTE. -/

namespace Sys2Proof.Machine

/-! ### Stages and dispatch -/

theorem andThen_eq_next {o : Result} {k : State → Result} {t : State} :
    andThen o k = .next t ↔ ∃ m, o = .next m ∧ k m = .next t := by
  cases o <;> simp [andThen]

@[simp] theorem andThen_next (s : State) (k : State → Result) : andThen (.next s) k = k s := rfl

theorem unlessError_of_error {k : State → Result} {s : State} (h : s.state = .error) : unlessError k s = .next s := by
  simp [unlessError, ignored, h]

theorem unlessError_of_ne {k : State → Result} {s : State} (h : s.state ≠ .error) : unlessError k s = k s := by
  simp [unlessError, h]

theorem illegalCommand_of_ne {cmd : CmdWord} {s : State} (h : s.state ≠ .error) :
    illegalCommand cmd s = .next (raise .illegalCommand cmd s) := unlessError_of_ne h

theorem startCommand_of_legal {cmd : CmdWord} {r : BitVec 4} {k : State → Result} {s : State} (h : rootOk r.toNat) :
    startCommand cmd r k s = k s := if_pos h

theorem startCommand_of_illegal {cmd : CmdWord} {r : BitVec 4} {k : State → Result} {s : State} (h : ¬ rootOk r.toNat) :
    startCommand cmd r k s = .next (raise .invalidRootSize cmd s) := if_neg h

theorem encCommand_of_active {cmd : CmdWord} {k : State → Result} {s : State} (h : s.state = .encActive) :
    encCommand cmd k s = k s := by
  simp [encCommand, unlessError, h]

theorem encCommand_of_other {cmd : CmdWord} {k : State → Result} {s : State} (h : s.state ≠ .encActive)
    (he : s.state ≠ .error) : encCommand cmd k s = .next (raise .illegalCommand cmd s) := by
  simp [encCommand, unlessError, h, he]

theorem decCommand_of_active {cmd : CmdWord} {k : State → Result} {s : State} (h : s.state = .decActive) :
    decCommand cmd k s = k s := by
  simp [decCommand, unlessError, h]

theorem decCommand_of_done {cmd : CmdWord} {k : State → Result} {s : State} (h : s.state = .done) (hm : s.mode = .dec) :
    decCommand cmd k s = .next s := by
  simp [decCommand, unlessError, ignored, h, hm]

theorem decCommand_of_other {cmd : CmdWord} {k : State → Result} {s : State} (h : s.state ≠ .decActive)
    (he : s.state ≠ .error) (hd : ¬ (s.state = .done ∧ s.mode = .dec)) :
    decCommand cmd k s = .next (raise .illegalCommand cmd s) := by
  simp only [decCommand, unlessError, if_neg he, if_neg hd, if_neg h]

/-! ### The insertion at `N` (42_encoder R104, 43_decoder R124, R125)

`t` stands for the state after an insertion of `e` at `N` and the increment, whatever else it changed. -/

section Insert

variable {s t : State} {e : DictEntry} (hl : s.dictListsPresent) (hr : t.r = s.r)
  (hd : t.dict = (dictWrite s.n e s).dict) (hn : min t.n Config.codes = min (s.n + 1) Config.codes)

include hl hd in
theorem dict_after_insert : t.dict = if s.n < Config.codes then s.dict ++ [(s.n, e)] else s.dict := by
  rw [hd, dictWrite_dict]
  split
  · refine Dict.insert_of_lt e fun p hp => ?_
    have := (hl.bounds hp).2
    omega
  · rfl

include hl hr hd hn in
theorem listed_after_insert (hf : firstCode s.r ≤ s.n) : t.dictListsPresent := by
  unfold State.dictListsPresent
  rw [dict_after_insert hl hd, hr, hn]
  split
  · rename_i h
    rw [List.map_append, hl, Nat.min_eq_left (by omega), Nat.min_eq_left (by omega),
      show s.n + 1 - firstCode s.r = (s.n - firstCode s.r) + 1 by omega, List.range'_1_concat]
    simp only [List.map_cons, List.map_nil]
    rw [show firstCode s.r + (s.n - firstCode s.r) = s.n by omega]
  · rename_i h
    rw [hl, Nat.min_eq_right (by omega), Nat.min_eq_right (by omega)]

include hl hr hd in
theorem entries_after_insert (he : s.entriesLegal) (h1 : s.n < Config.codes → e.prefixCode.toNat < s.n)
    (h2 : e.prefixCode.toNat ≠ clrCode s.r) (h3 : e.prefixCode.toNat ≠ eoiCode s.r) (h4 : e.suffix.toNat < 2 ^ s.r) :
    t.entriesLegal := by
  unfold State.entriesLegal
  rw [dict_after_insert hl hd, hr]
  split
  · intro p hp
    rcases List.mem_append.mp hp with hp | hp
    · exact he p hp
    · rw [List.mem_singleton.mp hp]
      exact ⟨h1 ‹_›, h2, h3, h4⟩
  · exact he

include hr hn in
theorem present_after_insert (i : Nat) (h : s.present i) : t.present i := by
  unfold State.present at *
  rw [hr, hn]
  omega

include hl hr hd hn in
/-- What a code denoted before the insertion, it denotes after it. -/
theorem seq_after_insert (hf : firstCode s.r ≤ s.n) (he : s.entriesLegal) (he' : t.entriesLegal) {c : Code}
    (h : s.denotes c) : t.seq c = s.seq c := by
  generalize hk : c.toNat = k
  induction k using Nat.strong_induction_on generalizing c with
  | _ k ih =>
    subst hk
    rcases h with h | h
    · rw [State.seq_literal h, State.seq_literal (hr ▸ h)]
    · obtain ⟨f, hrd⟩ := Option.isSome_iff_exists.mp ((hl.isSome_iff _).mpr h)
      have hm := Dict.mem_of_read hrd
      have hrd' : t.dict.read c.toNat = some f := by
        rw [(listed_after_insert hl hr hd hn hf).read_iff, dict_after_insert hl hd]
        split
        · exact List.mem_append_left _ hm
        · exact hm
      rw [State.seq_present he h hrd, State.seq_present he' (present_after_insert hr hn _ h) hrd',
        ih _ (he _ hm).1 (State.entriesLegal.prefix_denotes hl he hm) rfl]

include hl hr hd hn in
/-- The inserted code denotes its prefix's sequence and its suffix. -/
theorem seq_inserted (hf : firstCode s.r ≤ s.n) (hc : s.n < Config.codes) (he : s.entriesLegal) (he' : t.entriesLegal)
    (hp : s.denotes e.prefixCode) :
    t.seq (BitVec.ofNat 12 s.n) = (s.seq e.prefixCode).map (· ++ [e.suffix]) := by
  have hnat : (BitVec.ofNat 12 s.n).toNat = s.n := by rw [BitVec.toNat_ofNat]; exact Nat.mod_eq_of_lt hc
  have hpr : t.present (BitVec.ofNat 12 s.n).toNat := by unfold State.present; rw [hnat, hr, hn]; omega
  have hrd : t.dict.read (BitVec.ofNat 12 s.n).toNat = some e := by
    rw [hnat, (listed_after_insert hl hr hd hn hf).read_iff, dict_after_insert hl hd, if_pos hc]
    exact List.mem_append_right _ List.mem_cons_self
  rw [State.seq_present he' hpr hrd, seq_after_insert hl hr hd hn hf he he' hp]

end Insert

/-! ### Codes of the decoder -/

theorem decodeOne_eq_exec (c : Code) (s : State) : decodeOne c s = exec (decodeCode s.codeContext c) s := by
  unfold decodeOne decodeCode codeInstr
  cases classify s.codeContext c.toNat <;> rfl

theorem classify_lit {x : CodeContext} {c : Nat} : classify x c = .LIT ↔ c < clrCode x.r := by
  unfold classify clrCode eoiCode; split_ifs <;> simp only [false_iff, true_iff] <;> omega

theorem classify_clr {x : CodeContext} {c : Nat} : classify x c = .CLR ↔ c = clrCode x.r := by
  unfold classify; split_ifs <;> simp only [false_iff, true_iff] <;> omega

theorem classify_eoi {x : CodeContext} {c : Nat} : classify x c = .EOI ↔ c = eoiCode x.r := by
  unfold classify clrCode eoiCode; split_ifs <;> simp only [false_iff, true_iff] <;> omega

theorem classify_dic {x : CodeContext} {c : Nat} :
    classify x c = .DIC ↔ firstCode x.r ≤ c ∧ c < min x.n Config.codes := by
  unfold classify clrCode eoiCode firstCode; split_ifs <;> simp only [false_iff, true_iff] <;> omega

theorem classify_kwk {x : CodeContext} {c : Nat} :
    classify x c = .KWK ↔ firstCode x.r ≤ c ∧ min x.n Config.codes ≤ c ∧ c = x.n ∧ x.prevV = true := by
  unfold classify clrCode eoiCode firstCode; split_ifs <;> simp only [false_iff, true_iff] <;> grind

theorem classify_bad {x : CodeContext} {c : Nat} :
    classify x c = .BAD ↔ firstCode x.r ≤ c ∧ min x.n Config.codes ≤ c ∧ ¬ (c = x.n ∧ x.prevV = true) := by
  unfold classify clrCode eoiCode firstCode; split_ifs <;> simp only [false_iff, true_iff] <;> grind

theorem decodeRun_cons (f : Sym) (q : List Sym) (c : Code) (s : State) :
    decodeRun (some (f :: q)) c s =
      .next (decodeEmit (f :: q) c (decodeAdvance (dictWrite s.n ⟨s.prev, f⟩ s))) := rfl

/-- What `decodeRun` answers with, if it goes on. -/
theorem decodeRun_eq_next {o : Option (List Sym)} {c : Code} {s t : State} (h : decodeRun o c s = .next t) :
    ∃ f q, o = some (f :: q) ∧ t = decodeEmit (f :: q) c (decodeAdvance (dictWrite s.n ⟨s.prev, f⟩ s)) := by
  unfold decodeRun at h
  split at h
  · exact ⟨_, _, rfl, (Host.Outcome.next.inj h).symm⟩
  · cases h
  · cases h

/-! ### The loop of DEC_BYTE (43_decoder R116) -/

/-- A property that every code of the loop keeps holds where the loop ends, and there the stream is over or too few bits
are left. -/
theorem decodeLoop_induct {P : State → Prop}
    (hcode : ∀ s c u m, P s → s.state = .decActive → s.ub.read s.w = some (c, u) →
      decodeOne c { s with ub := u } = .next m → P m) :
    ∀ fuel s t, P s → decodeLoop fuel s = .next t → P t ∧ (t.state ≠ .decActive ∨ t.ub.read t.w = none)
  | 0, _, _, _, h => by simp [decodeLoop] at h
  | fuel + 1, s, t, hs, h => by
    unfold decodeLoop at h
    split at h
    · split at h
      · rename_i hr
        cases h
        exact ⟨hs, .inr hr⟩
      · obtain ⟨m, hm, hk⟩ := andThen_eq_next.mp h
        exact decodeLoop_induct hcode fuel m t (hcode s _ _ m hs ‹_› ‹_› hm) hk
    · cases h
      exact ⟨hs, .inl ‹_›⟩

end Sys2Proof.Machine
end

