-- ==== Sys2Proof/Laws/Invariant.lean ====
section
/-! SUPPORT. The shared operations and the stages of the commands keep the invariant (10_state R31 to R33). -/

namespace Sys2Proof.Machine

/-- Taking an error keeps the invariant. -/
theorem inv_raise {s : State} (h : s.Inv) {e : ErrCode} (he : e ≠ .none) (info) : (raise e info s).Inv := by
  refine ⟨?_, ?_, h.empty, h.packer, h.unpacker, h.listed, h.entries, h.unique, ?_, ?_⟩
  · rcases h.stream with ⟨a, b, c, d⟩ | ⟨a, b, c, d, e, f⟩
    · exact .inl ⟨a, b, c, .inr rfl⟩
    · exact .inr ⟨a, b, c, d, e, by simp⟩
  · simp [State.recordLegal, he]
  · simp
  · simp

/-- Hardware reset establishes the invariant. -/
theorem inv_hardReset (s : State) : (hardReset s).Inv := by
  constructor <;> simp [State.streamLegal, State.recordLegal, State.emptyRunsZero, Packer.ok, Unpacker.ok, State.dictListsPresent, State.entriesLegal, State.keysUnique]

/-- The stream a legal START begins meets the invariant, whatever was before. -/
theorem inv_beginStream {m a r} (s : State) (hr : rootOk r.toNat) (hm : (m = .enc ∧ a = .encActive) ∨ (m = .dec ∧ a = .decActive)) :
    (beginStream m a r s).Inv := by
  have hroot : (beginStream m a r s).r = r.toNat := rfl
  have hpos : 2 ^ 2 ≤ 2 ^ r.toNat := Nat.pow_le_pow_right (by norm_num) hr.1
  have hle : 2 ^ r.toNat ≤ 2 ^ 10 := Nat.pow_le_pow_right (by norm_num) hr.2
  have hdbl : 2 ^ (r.toNat + 1) = 2 * 2 ^ r.toNat := by rw [pow_succ]; ring
  have hr2 := hr.2
  simp only [rootOk, Config.minRoot, Config.maxRoot] at hr
  constructor
  · refine .inr ⟨hr, ?_⟩
    simp only [beginStream_w, beginStream_n, hroot, beginStream_state, initialWidth, firstCode, Config.maxw, Config.codes]
    refine ⟨le_rfl, by omega, le_rfl, by omega, ?_⟩
    rcases hm with ⟨-, rfl⟩ | ⟨-, rfl⟩ <;> simp
  · simp only [State.recordLegal, beginStream_state, beginStream_err, beginStream_errInfo]
    rcases hm with ⟨-, rfl⟩ | ⟨-, rfl⟩ <;> simp
  · simp [State.emptyRunsZero]
  · simp [Packer.ok]
  · simp [Unpacker.ok]
  · simp only [State.dictListsPresent, beginStream_dict, beginStream_n, hroot, Config.codes, firstCode]
    rw [Nat.min_eq_left (by omega)]; simp
  · simp [State.entriesLegal]
  · simp [State.keysUnique]
  · intro ha
    have hme : m = .enc := by rcases hm with ⟨h, -⟩ | ⟨-, rfl⟩; exact h; simp at ha
    refine ⟨hme, ?_⟩
    simp only [beginStream_w, beginStream_n, beginStream_curV, hroot, initialWidth, firstCode, Config.codes, Nat.add_sub_cancel]
    refine ⟨by omega, by omega, by omega, by simp, by simp⟩
  · intro ha
    have hme : m = .dec := by rcases hm with ⟨-, rfl⟩ | ⟨h, -⟩; simp at ha; exact h
    refine ⟨hme, ?_⟩
    simp only [beginStream_w, beginStream_n, beginStream_prevV, beginStream_ub, hroot, initialWidth, firstCode, Config.maxw, Nat.add_sub_cancel]
    refine ⟨fun _ => ⟨by omega, by omega⟩, fun h => by omega, by simp, by simp, by omega⟩

/-- `Pack` keeps the invariant. -/
theorem inv_pack {s : State} (h : s.Inv) {c} (v) (hc : c ≤ 12) : (pack c v s).Inv :=
  ⟨h.stream, h.record, h.empty, (Packer.pack_spec v h.packer hc).1, h.unpacker, h.listed, h.entries, h.unique, h.encoder, h.decoder⟩

/-- While a stream runs, the root size is legal and `W` and `N` are in their ranges (10_state R31, R32). -/
theorem State.Inv.active {s : State} (h : s.Inv) (hs : s.state = .encActive ∨ s.state = .decActive) : rootOk s.r ∧ initialWidth s.r ≤ s.w ∧ s.w ≤ 12 ∧ firstCode s.r ≤ s.n ∧ s.n ≤ 4096 := by
  rcases h.stream with ⟨a, b, c, d⟩ | ⟨a, b, c, d, e, f⟩
  · rcases hs with hs | hs <;> simp [hs] at d
  · exact ⟨a, b, c, d, e⟩

/-- The Clear Code of a legal root size. -/
theorem two_pow_root_bounds {r : Nat} (h : rootOk r) : 4 ≤ 2 ^ r ∧ 2 ^ r ≤ 1024 := by
  have h1 : 2 ^ 2 ≤ 2 ^ r := Nat.pow_le_pow_right (by norm_num) h.1
  have h2 : 2 ^ r ≤ 2 ^ 10 := Nat.pow_le_pow_right (by norm_num) h.2
  omega

/-- A literal can be `current` or `previous`. -/
theorem State.Inv.literal_runCode {s : State} (h : s.Inv) (hs : s.state = .encActive ∨ s.state = .decActive) {x : BitVec 12} (hx : x.toNat < 2 ^ s.r) : s.runCode x := by
  obtain ⟨a, b, c, d, e⟩ := State.Inv.active h hs
  simp only [State.runCode, clrCode, eoiCode, firstCode] at *
  omega

/-- Step S1 keeps the invariant. -/
theorem inv_takeLiteral {s : State} (h : s.Inv) (hs : s.state = .encActive) {x : BitVec 12} (hx : x.toNat < 2 ^ s.r) : (takeLiteral x s).Inv := by
  have hrc := State.Inv.literal_runCode h (.inl hs) hx
  obtain ⟨e1, e2, e3, e4, e5, e6⟩ := h.encoder hs
  refine ⟨h.stream, h.record, ⟨by simp, h.empty.2⟩, h.packer, h.unpacker, h.listed, h.entries, h.unique, fun _ => ⟨e1, e2, e3, e4, fun _ => hrc, by simp⟩, h.decoder⟩

/-- Steps S1 to S5 keep the invariant. -/
theorem inv_encodeSymbol {s : State} (h : s.Inv) (hs : s.state = .encActive) {x : BitVec 12} (hx : x.toNat < 2 ^ s.r) : (encodeSymbol x s).Inv := by
  obtain ⟨e1, e2, e3, e4, e5, e6⟩ := h.encoder hs
  obtain ⟨a, b, c, d, e⟩ := State.Inv.active h (.inl hs)
  have hpw := two_pow_root_bounds a
  have hrc := State.Inv.literal_runCode h (.inl hs) hx
  unfold encodeSymbol
  split
  · rename_i hcv
    split
    · rename_i k hk
      obtain ⟨k1, k2, k3⟩ := State.camSearch_some h.listed.wf hk
      refine ⟨h.stream, h.record, ⟨by simp [hcv], h.empty.2⟩, h.packer, h.unpacker, h.listed, h.entries, h.unique, fun _ => ⟨e1, e2, e3, e4, fun _ => ⟨k2, ?_⟩, by simp [hcv]⟩, h.decoder⟩
      simp only [firstCode, State.r, clrCode, eoiCode] at *
      omega
    · rename_i hk
      have hcam := State.camSearch_none.mp hk
      have hcur := e5 hcv
      have hsym : (symOperand x).toNat = x.toNat := by
        simp only [symOperand, BitVec.toNat_setWidth]; apply Nat.mod_eq_of_lt; omega
      have hp := (Packer.pack_spec s.cur h.packer c)
      -- the state after the miss
      have hml : (encodeMiss x s).dictListsPresent :=
        listed_after_insert (s := s) (t := encodeMiss x s) (e := ⟨s.cur, symOperand x⟩) h.listed (encodeMiss_r x s)
          (encodeMiss_dict x s) (by rw [encodeMiss_n]) d
      have hdict : (encodeMiss x s).dict = s.dict ++ [(s.n, ⟨s.cur, symOperand x⟩)] := by
        rw [dict_after_insert (s := s) (t := encodeMiss x s) (e := ⟨s.cur, symOperand x⟩) h.listed
          (encodeMiss_dict x s), if_pos e2]
      have hme : (encodeMiss x s).entriesLegal := 
        entries_after_insert (s := s) (t := encodeMiss x s) (e := ⟨s.cur, symOperand x⟩) h.listed (encodeMiss_r x s)
          (encodeMiss_dict x s) h.entries (fun _ => hcur.1) hcur.2.1 hcur.2.2 (by rw [hsym]; exact hx)
      have hun : ((encodeMiss x s).dict.map Prod.snd).Nodup := by
        rw [hdict, List.map_append, List.nodup_append]
        refine ⟨h.unique e1, by simp, ?_⟩
        intro p hp q hq
        obtain ⟨p', hp', rfl⟩ := List.mem_map.mp hp
        simp only [List.map_cons, List.map_nil, List.mem_singleton] at hq
        subst hq
        intro heq
        have hb := h.listed.bounds hp'
        exact hcam p' hp' ⟨hb.1, lt_of_lt_of_le hb.2 (Nat.min_le_left _ _), heq⟩
      have fn : (encodeMiss x s).n = s.n + 1 := encodeMiss_n x s
      have fw : (encodeMiss x s).w = s.w := encodeMiss_w x s
      have fr : (encodeMiss x s).r = s.r := encodeMiss_r x s
      have fpk : (encodeMiss x s).pk = (s.pk.pack s.w s.cur).1 := encodeMiss_pk x s
      have fst : (encodeMiss x s).state = .encActive := by rw [encodeMiss_state, hs]
      have fm : (encodeMiss x s).mode = .enc := by rw [encodeMiss_mode, e1]
      have ferr : (encodeMiss x s).err = s.err := encodeMiss_err x s
      have feri : (encodeMiss x s).errInfo = s.errInfo := encodeMiss_errInfo x s
      have fcv : (encodeMiss x s).curV = true := by rw [encodeMiss_curV, hcv]
      have fc : (encodeMiss x s).cur = x := encodeMiss_cur x s
      have fpv : (encodeMiss x s).prevV = s.prevV := encodeMiss_prevV x s
      have fp : (encodeMiss x s).prev = s.prev := encodeMiss_prev x s
      have fub : (encodeMiss x s).ub = s.ub := encodeMiss_ub x s
      generalize encodeMiss x s = t at *
      unfold encodeWidthStep
      have hrec : s.recordLegal := h.record
      have hw1 : 2 ^ s.w = 2 * 2 ^ (s.w - 1) := by
        have : s.w = s.w - 1 + 1 := by simp only [initialWidth] at b; omega
        conv_lhs => rw [this, pow_succ]
        ring
      split
      · rename_i hnw
        split
        · -- overflow
          rename_i hov
          have hclr : (pack 12 t.clr t).pk.ok := (Packer.pack_spec _ (by rw [fpk]; exact hp.1) le_rfl).1
          have hb : x.toNat < clrCode s.r := hx
          unfold overflowReset
          refine ⟨.inr ?_, ?_, ?_, hclr, ?_, ?_, ?_, ?_, ?_, ?_⟩
          · show rootOk t.r ∧ initialWidth t.r ≤ initialWidth t.r ∧ initialWidth t.r ≤ 12 ∧ firstCode t.r ≤ firstCode t.r ∧ firstCode t.r ≤ 4096 ∧ t.state ≠ .idle
            rw [fr, fst]
            simp only [rootOk, Config.minRoot, Config.maxRoot] at a
            refine ⟨a, le_rfl, by simp only [initialWidth]; omega, le_rfl, by simp only [firstCode]; omega, by simp⟩
          · show (t.state = .error ↔ t.err ≠ .none) ∧ (t.err = .none → t.errInfo = 0)
            rw [fst, ferr, feri, ← hs]; exact hrec
          · show (true = false → _) ∧ (t.prevV = false → t.prev = 0)
            rw [fpv, fp]; exact ⟨by simp, h.empty.2⟩
          · show t.ub.ok
            rw [fub]; exact h.unpacker
          · show ([].map Prod.fst) = List.range' (firstCode t.r) (min (firstCode t.r) 4096 - firstCode t.r)
            rw [fr, Nat.min_eq_left (by simp only [firstCode]; omega)]; simp
          · intro p hp; cases hp
          · intro _; exact List.nodup_nil
          · intro _
            show t.mode = .enc ∧ firstCode t.r < 4096 ∧ 2 ^ (initialWidth t.r - 1) ≤ firstCode t.r ∧ firstCode t.r < 2 ^ initialWidth t.r ∧ (true = true → x.toNat < firstCode t.r ∧ x.toNat ≠ clrCode t.r ∧ x.toNat ≠ eoiCode t.r) ∧ (true = false → _)
            rw [fr, fm]
            simp only [firstCode, initialWidth, clrCode, eoiCode, Nat.add_sub_cancel, pow_succ] at *
            refine ⟨trivial, by omega, by omega, by omega, fun _ => by omega, by simp⟩
          · intro hd
            have : t.state = .decActive := hd
            simp [fst] at this
        · rename_i hov
          have hw12 : s.w < 12 := by rw [fw] at hov; simp only [Config.maxw] at hov; omega
          have hle : 2 ^ (s.w + 1) ≤ 2 ^ 12 := Nat.pow_le_pow_right (by norm_num) (by omega)
          have h2 : 2 ^ (s.w + 1) = 2 * 2 ^ s.w := by rw [pow_succ]; ring
          rw [fn, fw] at hnw
          refine ⟨.inr ?_, ?_, ?_, ?_, ?_, hml, hme, fun _ => hun, ?_, ?_⟩
          · show rootOk t.r ∧ initialWidth t.r ≤ t.w + 1 ∧ t.w + 1 ≤ 12 ∧ firstCode t.r ≤ t.n ∧ t.n ≤ 4096 ∧ t.state ≠ .idle
            rw [fr, fw, fn, fst]
            exact ⟨a, by omega, by omega, by omega, by omega, by simp⟩
          · show (t.state = .error ↔ t.err ≠ .none) ∧ (t.err = .none → t.errInfo = 0)
            rw [fst, ferr, feri, ← hs]; exact hrec
          · show (t.curV = false → _) ∧ (t.prevV = false → t.prev = 0)
            rw [fcv, fpv, fp]; exact ⟨by simp, h.empty.2⟩
          · show t.pk.ok
            rw [fpk]; exact hp.1
          · show t.ub.ok
            rw [fub]; exact h.unpacker
          · intro _
            show t.mode = .enc ∧ t.n < 4096 ∧ 2 ^ (t.w + 1 - 1) ≤ t.n ∧ t.n < 2 ^ (t.w + 1) ∧ (t.curV = true → t.cur.toNat < t.n ∧ t.cur.toNat ≠ clrCode t.r ∧ t.cur.toNat ≠ eoiCode t.r) ∧ (t.curV = false → _)
            rw [fr, fm, fn, fw, fcv, fc]
            exact ⟨rfl, by omega, by rw [Nat.add_sub_cancel]; omega, by omega, fun _ => ⟨by have := hrc.1; omega, hrc.2⟩, by simp⟩
          · intro hd
            have : t.state = .decActive := hd
            simp [fst] at this
      · rename_i hnw
        rw [fn, fw] at hnw
        have hle : 2 ^ s.w ≤ 2 ^ 12 := Nat.pow_le_pow_right (by norm_num) c
        refine ⟨.inr ?_, ?_, ?_, ?_, ?_, hml, hme, fun _ => hun, ?_, ?_⟩
        · rw [fr, fw, fn, fst]
          exact ⟨a, by omega, by show s.w ≤ 12; omega, by omega, by show s.n + 1 ≤ 4096; omega, by simp⟩
        · show (t.state = .error ↔ t.err ≠ .none) ∧ (t.err = .none → t.errInfo = 0)
          rw [fst, ferr, feri, ← hs]; exact hrec
        · show (t.curV = false → _) ∧ (t.prevV = false → t.prev = 0)
          rw [fcv, fpv, fp]; exact ⟨by simp, h.empty.2⟩
        · rw [fpk]; exact hp.1
        · rw [fub]; exact h.unpacker
        · intro _
          show t.mode = .enc ∧ t.n < 4096 ∧ 2 ^ (t.w - 1) ≤ t.n ∧ t.n < 2 ^ (t.w) ∧ (t.curV = true → t.cur.toNat < t.n ∧ t.cur.toNat ≠ clrCode t.r ∧ t.cur.toNat ≠ eoiCode t.r) ∧ (t.curV = false → _)
          rw [fr, fm, fn, fw, fcv, fc]
          exact ⟨rfl, by omega, by omega, by omega, fun _ => ⟨by have := hrc.1; omega, hrc.2⟩, by simp⟩
        · intro hd
          simp [fst] at hd
  · exact inv_takeLiteral h hs hx

/-- ENC_END keeps the invariant. -/
theorem inv_encodeEnd {s : State} (h : s.Inv) (hs : s.state = .encActive) : (encodeEnd s).Inv := by
  obtain ⟨a, b, c, d, e⟩ := State.Inv.active h (.inl hs)
  have key : ∀ t : State, t.Inv → t.state = .encActive → t.w = s.w → t.n = s.n → t.root = s.root → 
      ({ flush { pack t.eoiWidth t.eoi t with w := t.eoiWidth } with state := .done } : State).Inv := by
    intro t ht hts hw hn hr
    have fr : t.r = s.r := by simp [State.r, hr]
    refine ⟨.inr ?_, ?_, ht.empty, ⟨by simp, by simp⟩, ht.unpacker, ht.listed, ht.entries, ht.unique, (by intro h; cases h), (by intro h; cases h)⟩
    · show rootOk t.r ∧ initialWidth t.r ≤ t.eoiWidth ∧ t.eoiWidth ≤ 12 ∧ firstCode t.r ≤ t.n ∧ t.n ≤ 4096 ∧ _
      rw [fr, hn]
      refine ⟨a, ?_, ?_, d, e, by simp⟩ <;> unfold State.eoiWidth <;> rw [hw] <;> simp only [rootOk, initialWidth, Config.maxw, Config.minRoot, Config.maxRoot] at * <;> split <;> omega
    · show (EngineState.done = .error ↔ t.err ≠ .none) ∧ (t.err = .none → t.errInfo = 0)
      have := ht.record
      simp only [State.recordLegal, hts] at this
      simpa using this
  unfold encodeEnd
  dsimp only
  split
  · exact key _ (inv_pack h s.cur c) hs rfl rfl rfl
  · exact key _ h hs rfl rfl rfl

/-- The invariant inside the loop of DEC_BYTE: all but `UB_N < w`, which holds between commands (10_state R25). -/
structure LoopInv (s : State) : Prop where
  stream : s.streamLegal
  record : s.recordLegal
  empty : s.emptyRunsZero
  packer : s.pk.ok
  unpacker : s.ub.ok
  listed : s.dictListsPresent
  entries : s.entriesLegal
  unique : s.mode = .enc → s.keysUnique
  encoder : s.state = .encActive → s.encoderInv
  mode : s.state = .decActive → s.mode = .dec
  small : s.state = .decActive → s.w < 12 → 2 ^ (s.w - 1) - 1 ≤ s.n ∧ s.n < 2 ^ s.w - 1
  big : s.state = .decActive → s.w = 12 → 2047 ≤ s.n
  none : s.state = .decActive → s.prevV = false → s.n = firstCode s.r
  prev : s.state = .decActive → s.prevV = true → s.runCode s.prev

/-- Where the loop ends, the invariant holds again. -/
theorem LoopInv.inv {s : State} (h : LoopInv s) (hu : s.state = .decActive → s.ub.n < s.w) : s.Inv :=
  ⟨h.stream, h.record, h.empty, h.packer, h.unpacker, h.listed, h.entries, h.unique, h.encoder,
    fun hd => ⟨h.mode hd, h.small hd, h.big hd, h.none hd, h.prev hd, hu hd⟩⟩

/-- The loop starts from the invariant. -/
theorem State.Inv.loopInv {s : State} (h : s.Inv) : LoopInv s :=
  ⟨h.stream, h.record, h.empty, h.packer, h.unpacker, h.listed, h.entries, h.unique, h.encoder,
    fun hd => (h.decoder hd).1, fun hd => (h.decoder hd).2.1, fun hd => (h.decoder hd).2.2.1, fun hd => (h.decoder hd).2.2.2.1, fun hd => (h.decoder hd).2.2.2.2.1⟩

/-- An error in the loop. -/
theorem loopInv_raise {s : State} (h : LoopInv s) (e : ErrCode) (he : e ≠ .none) (i) : LoopInv (raise e i s) := by
  refine ⟨?_, ?_, h.empty, h.packer, h.unpacker, h.listed, h.entries, h.unique, by simp, by simp, by simp, by simp, by simp, by simp⟩
  · rcases h.stream with ⟨a, b, c, d⟩ | ⟨a, b, c, d, e, f⟩
    · exact .inl ⟨a, b, c, .inr rfl⟩
    · exact .inr ⟨a, b, c, d, e, by simp⟩
  · simp [State.recordLegal, he]

/-- The ranges of 10_state R32 inside the loop. -/
theorem LoopInv.active {s : State} (h : LoopInv s) (hs : s.state = .decActive) : rootOk s.r ∧ initialWidth s.r ≤ s.w ∧ s.w ≤ 12 ∧ firstCode s.r ≤ s.n ∧ s.n ≤ 4096 := by
  rcases h.stream with ⟨a, b, c, d⟩ | ⟨a, b, c, d, e, f⟩
  · simp [hs] at d
  · exact ⟨a, b, c, d, e⟩

/-- The sequence of a code consists of symbols. -/
theorem State.seq_symbols {s : State} (hr : rootOk s.r) (hl : s.dictListsPresent) (he : s.entriesLegal) {c : Code} {q : List Sym}
    (h : s.seq c = some q) : ∀ x ∈ q, x.toNat < 2 ^ s.r := by
  generalize hk : c.toNat = k
  induction k using Nat.strong_induction_on generalizing c q with
  | _ k ih =>
    subst hk
    have hpw := two_pow_root_bounds hr
    by_cases hlit : c.toNat < clrCode s.r
    · rw [State.seq_literal hlit] at h
      cases h
      simp only [List.mem_singleton, forall_eq]
      simp only [symOfCode, BitVec.toNat_setWidth, clrCode] at *
      rw [Nat.mod_eq_of_lt (by omega)]; exact hlit
    · by_cases hp : s.present c.toNat
      · obtain ⟨e, hrd⟩ := Option.isSome_iff_exists.mp ((hl.isSome_iff _).mpr hp)
        have hm := he _ (Dict.mem_of_read hrd)
        rw [State.seq_present he hp hrd] at h
        obtain ⟨q', hq', rfl⟩ := Option.map_eq_some_iff.mp h
        intro x hx
        rcases List.mem_append.mp hx with hx | hx
        · exact ih _ hm.1 hq' rfl x hx
        · rw [List.mem_singleton.mp hx]; exact hm.2.2.2
      · rw [State.seq_absent hlit hp] at h; cases h

/-- Insertion, increment, width update and output keep the loop invariant (43_decoder R124 to R127). -/
theorem loopInv_decodeRun {s : State} (h : LoopInv s) (hs : s.state = .decActive) (hpv : s.prevV = true) {f : Sym} {q : List Sym} {c : Code}
    (hf : f.toNat < 2 ^ s.r) (hc : c.toNat < min (s.n + 1) 4096 ∧ c.toNat ≠ clrCode s.r ∧ c.toNat ≠ eoiCode s.r) :
    LoopInv (decodeEmit (f :: q) c (decodeAdvance (dictWrite s.n ⟨s.prev, f⟩ s))) := by
  obtain ⟨a, b, c', d, e⟩ := h.active hs
  have hpw := two_pow_root_bounds a
  have hprev := h.prev hs hpv
  have hrec := h.record
  set t := decodeEmit (f :: q) c (decodeAdvance (dictWrite s.n ⟨s.prev, f⟩ s)) with ht
  have fd : t.dict = (dictWrite s.n ⟨s.prev, f⟩ s).dict := by simp [t]
  have fr : t.r = s.r := by simp [t]
  have fn : t.n = min (s.n + 1) 4096 := by simp [t]
  have fst : t.state = s.state := by simp [t]
  have fw : t.w = if min (s.n + 1) 4096 = 2 ^ s.w - 1 then min 12 (s.w + 1) else s.w := by simp [t, decodeAdvance_w]
  have fm : t.mode = s.mode := by simp [t]
  have fcv : t.curV = s.curV := by simp [t]
  have fc : t.cur = s.cur := by simp [t]
  have fpv : t.prevV = true := by simp [t]
  have fp : t.prev = c := by simp [t]
  have fub : t.ub = s.ub := by simp [t]
  have fpk : t.pk = s.pk := by simp [t]
  have ferr : t.err = s.err := by simp [t]
  have feri : t.errInfo = s.errInfo := by simp [t]
  clear_value t
  have hw1 : 2 ^ s.w = 2 * 2 ^ (s.w - 1) := by
    have : s.w = s.w - 1 + 1 := by simp only [initialWidth] at b; omega
    conv_lhs => rw [this, pow_succ]
    ring
  have hwle : 2 ^ s.w ≤ 2 ^ 12 := Nat.pow_le_pow_right (by norm_num) c'
  have hsm := h.small hs
  have hbg := h.big hs
  have hmn : min t.n 4096 = min (s.n + 1) 4096 := by omega
  refine ⟨.inr ?_, ?_, ?_, fpk ▸ h.packer, fub ▸ h.unpacker, listed_after_insert h.listed fr fd hmn d,
    entries_after_insert h.listed fr fd h.entries (fun _ => hprev.1) hprev.2.1 hprev.2.2 hf, ?_, ?_, ?_, ?_, ?_, ?_, ?_⟩
  · rw [fr, fst, hs, fn, fw]
    refine ⟨a, ?_, ?_, by simp only [firstCode] at *; omega, by show min _ 4096 ≤ 4096; omega, by simp⟩
    · split <;> omega
    · show _ ≤ 12; split <;> omega
  · simp only [State.recordLegal, fst, ferr, feri]; exact hrec
  · simp only [State.emptyRunsZero, fcv, fc, fpv]; exact ⟨h.empty.1, by simp⟩
  · rw [fm, h.mode hs]; simp
  · rw [fst, hs]; simp
  · intro _; rw [fm]; exact h.mode hs
  · intro _ hw
    rw [fw] at hw ⊢
    rw [fn]
    split
    · rename_i heq
      rw [if_pos heq] at hw
      have hw12 : s.w < 12 := by omega
      rw [show min 12 (s.w + 1) = s.w + 1 by omega, Nat.add_sub_cancel, pow_succ]
      omega
    · rename_i heq
      rw [if_neg heq] at hw
      have := hsm hw
      omega
  · intro _ hw
    rw [fw] at hw
    rw [fn]
    split at hw
    · rename_i heq
      rcases Nat.lt_or_ge s.w 12 with h12 | h12
      · have h11 : s.w = 11 := by omega
        rw [h11] at heq
        norm_num at heq
        omega
      · have := hbg (by omega); omega
    · have := hbg hw; omega
  · intro _ hpf; rw [fpv] at hpf; cases hpf
  · intro _ _
    simp only [State.runCode, fp, fr, fn]
    exact ⟨hc.1, hc.2⟩

/-- The first symbol of a sequence is a symbol. -/
theorem LoopInv.head_symbol {s : State} (h : LoopInv s) (hs : s.state = .decActive) {c f q} (hq : s.seq c = some (f :: q)) : f.toNat < 2 ^ s.r :=
  State.seq_symbols (h.active hs).1 h.listed h.entries hq f List.mem_cons_self

/-- `DecodeOne` goes on and keeps the loop invariant. -/
theorem loopInv_decodeOne {s : State} (h : LoopInv s) (hs : s.state = .decActive) (c : Code) : ∃ m, decodeOne c s = .next m ∧ LoopInv m := by
  obtain ⟨a, b, c', d, e⟩ := h.active hs
  have hpw := two_pow_root_bounds a
  have hc := c.isLt
  unfold decodeOne
  split
  · rename_i hcl
    have hlit : c.toNat < 2 ^ s.r := classify_lit.mp hcl
    have hsym : (symOfCode c).toNat < 2 ^ s.r := by
      simp only [symOfCode, BitVec.toNat_setWidth]; rw [Nat.mod_eq_of_lt (by omega)]; exact hlit
    unfold execLit
    split
    · rename_i hpv
      refine ⟨_, decodeRun_cons _ _ _ _, loopInv_decodeRun h hs hpv hsym ?_⟩
      simp only [clrCode, eoiCode, firstCode] at *
      omega
    · rename_i hpv
      have hn := h.none hs (by simpa using hpv)
      refine ⟨_, rfl, h.stream, h.record, ⟨h.empty.1, by simp⟩, h.packer, h.unpacker, h.listed, h.entries, h.unique, h.encoder, h.mode, h.small, h.big, by simp, ?_⟩
      intro _ _
      show c.toNat < s.n ∧ c.toNat ≠ clrCode s.r ∧ c.toNat ≠ eoiCode s.r
      simp only [clrCode, eoiCode, firstCode] at *
      omega
  · refine ⟨_, rfl, .inr ?_, h.record, ⟨h.empty.1, by simp⟩, h.packer, h.unpacker, ?_, ?_, ?_, ?_, h.mode, ?_, ?_, fun _ _ => rfl, by simp⟩
    · show rootOk s.r ∧ initialWidth s.r ≤ initialWidth s.r ∧ initialWidth s.r ≤ 12 ∧ firstCode s.r ≤ firstCode s.r ∧ firstCode s.r ≤ 4096 ∧ s.state ≠ .idle
      simp only [rootOk, Config.minRoot, Config.maxRoot, firstCode, initialWidth, hs] at *
      exact ⟨a, le_rfl, by omega, le_rfl, by omega, by simp⟩
    · show ([].map Prod.fst) = List.range' (firstCode s.r) (min (firstCode s.r) 4096 - firstCode s.r)
      rw [Nat.min_eq_left (by simp only [firstCode]; omega)]; simp
    · intro p hp; cases hp
    · intro _; exact List.nodup_nil
    · intro he
      have : s.state = .encActive := he
      simp [hs] at this
    · intro _ hw
      show 2 ^ (initialWidth s.r - 1) - 1 ≤ firstCode s.r ∧ firstCode s.r < 2 ^ (initialWidth s.r) - 1
      simp only [initialWidth, firstCode, Nat.add_sub_cancel, pow_succ]; omega
    · intro _ hw
      have : initialWidth s.r = 12 := hw
      simp only [rootOk, Config.minRoot, Config.maxRoot, initialWidth] at *
      omega
  · refine ⟨_, rfl, ?_, ?_, h.empty, h.packer, ⟨by simp, by simp⟩, h.listed, h.entries, h.unique, (by intro h; cases h), (by intro h; cases h), (by intro h; cases h), (by intro h; cases h), (by intro h; cases h), (by intro h; cases h)⟩
    · rcases h.stream with hh | ⟨a, b, c, d, e, f⟩
      · simp [hs] at hh
      · exact .inr ⟨a, b, c, d, e, by simp⟩
    · show (EngineState.done = .error ↔ s.err ≠ .none) ∧ (s.err = .none → s.errInfo = 0)
      have := h.record
      simp only [State.recordLegal, hs] at this
      simpa using this
  · rename_i hcl
    obtain ⟨h1, h2⟩ := classify_dic.mp hcl
    simp only [State.codeContext, Config.codes] at h1 h2
    unfold execDic
    split
    · rename_i hpv
      obtain ⟨f, q, hq⟩ := State.seq_nonempty h.listed h.entries (c := c) (.inr ⟨h1, h2⟩)
      simp only [State.lookupByCode]
      rw [hq]
      refine ⟨_, decodeRun_cons _ _ _ _, loopInv_decodeRun h hs hpv (LoopInv.head_symbol h hs hq) ?_⟩
      simp only [clrCode, eoiCode, firstCode] at *
      omega
    · exact ⟨_, rfl, loopInv_raise h _ (by simp) _⟩
  · rename_i hcl
    obtain ⟨h1, h2, h3, h4⟩ := classify_kwk.mp hcl
    simp only [State.codeContext, Config.codes] at h1 h2 h3 h4
    unfold execKwk
    split
    · rename_i hpv
      obtain ⟨f, q, hq⟩ := State.seq_nonempty h.listed h.entries (h.prev hs hpv).denotes
      rw [State.fallback, hq]
      refine ⟨_, decodeRun_cons _ _ _ _, loopInv_decodeRun h hs hpv (LoopInv.head_symbol h hs hq) ?_⟩
      simp only [clrCode, eoiCode, firstCode] at *
      omega
    · exact absurd h4 ‹_›
  · exact ⟨_, rfl, loopInv_raise h _ (by simp) _⟩

/-- `DecodeOne` takes no bit back. -/
theorem ub_le_of_decodeOne {c : Code} {s m : State} (h : decodeOne c s = .next m) : m.ub.n ≤ s.ub.n := by
  have hrun : ∀ o, decodeRun o c s = .next m → m.ub.n ≤ s.ub.n := by
    intro o ho
    obtain ⟨f, q, -, rfl⟩ := decodeRun_eq_next ho
    simp
  unfold decodeOne at h
  split at h
  · unfold execLit at h; split at h
    · exact hrun _ h
    · cases h; simp
  · cases h; simp
  · cases h; simp
  · unfold execDic at h; split at h
    · exact hrun _ h
    · cases h; simp
  · unfold execKwk at h; split at h
    · exact hrun _ h
    · cases h; simp
  · cases h; simp

/-- With more depth than buffered bits the loop ends, and the invariant holds there. -/
theorem inv_decodeLoop : ∀ (fuel : Nat) (s : State), LoopInv s → s.ub.n < fuel → ∃ t, decodeLoop fuel s = .next t ∧ t.Inv
  | 0, _, _, h => by omega
  | fuel + 1, s, h, hf => by
    unfold decodeLoop
    split
    · rename_i hs
      obtain ⟨a, b, c', d, e⟩ := h.active hs
      split
      · rename_i hr
        exact ⟨s, rfl, h.inv fun _ => (Unpacker.read_eq_none_iff _ _).mp hr⟩
      · rename_i c u hr
        obtain ⟨r1, r2, -, -⟩ := Unpacker.read_spec c' hr
        have hu : LoopInv { s with ub := u } := ⟨h.stream, h.record, h.empty, h.packer, Unpacker.read_ok c' h.unpacker hr, h.listed, h.entries, h.unique, h.encoder, h.mode, h.small, h.big, h.none, h.prev⟩
        obtain ⟨m, hm, hi⟩ := loopInv_decodeOne hu hs c
        rw [hm]
        have hle : m.ub.n ≤ u.n := ub_le_of_decodeOne hm
        simp only [initialWidth] at b
        exact inv_decodeLoop fuel m hi (by omega)
    · exact ⟨s, rfl, h.inv fun hd => absurd hd ‹_›⟩

/-- DEC_BYTE in DEC_ACTIVE completes and keeps the invariant. -/
theorem inv_decodeByte {s : State} (h : s.Inv) (hs : s.state = .decActive) (b : Byte) : ∃ t, decodeByte b s = .next t ∧ t.Inv := by
  have hl := State.Inv.loopInv h
  obtain ⟨-, -, -, -, -, hub⟩ := h.decoder hs
  obtain ⟨-, -, c', -, -⟩ := hl.active hs
  obtain ⟨p1, p2, p3⟩ := Unpacker.pushByte_spec b (show s.ub.n ≤ 11 by omega) h.unpacker.2
  exact inv_decodeLoop _ _ ⟨hl.stream, hl.record, hl.empty, hl.packer, p3, hl.listed, hl.entries, hl.unique, hl.encoder, hl.mode, hl.small, hl.big, hl.none, hl.prev⟩ (by simp)

end Sys2Proof.Machine
end

