-- ==== Sys2Proof/Laws/PerInstr.lean ====
section
/-! SUPPORT. Laws about every instruction as syntax, one lemma per constructor. -/

namespace Sys2Proof.Laws.TableRow

/-- The word of the instruction is in its row of `spec/opcode_table.json`: the mask and the match of a command, the test of
a code class. -/
def matchesRow (x : CodeContext) (i : Instr) : Prop :=
  match i, encode x i with
  | .startEnc _, .command w => w &&& 0xFFF0#16 = 0x1000#16
  | .startDec _, .command w => w &&& 0xFFF0#16 = 0x2000#16
  | .encSym _, .command w => w &&& 0xF000#16 = 0x3000#16
  | .encEnd, .command w => w &&& 0xFFFF#16 = 0x4000#16
  | .decByte _, .command w => w &&& 0xFF00#16 = 0x5000#16
  | .decEnd, .command w => w &&& 0xFFFF#16 = 0x6000#16
  | .reservedOp0 _, .command w => w &&& 0xF000#16 = 0x0000#16
  | .reservedOps _ _, .command w => 0x7000 ≤ w.toNat
  | .lit _, .code c => c.toNat < 2 ^ x.r
  | .clr, .code c => c.toNat = 2 ^ x.r
  | .eoi, .code c => c.toNat = 2 ^ x.r + 1
  | .dic _, .code c => 2 ^ x.r + 2 ≤ c.toNat ∧ c.toNat < min x.n 4096
  | .kwk _, .code c => c.toNat = x.n ∧ x.prevV = true
  | .bad _, .code c => x.n < c.toNat ∨ c.toNat = x.n ∧ x.prevV = false
  | .pair _ _, .pair _ => True
  | _, _ => False

/-- A well-formed instruction's word is in its row. -/
def Statement (i : Instr) : Prop := ∀ x : CodeContext, i.wellFormed x = true → matchesRow x i

/-- The masked word of a command whose mask covers the operation code and the high bits of the argument. -/
theorem masked_commandWord (op : BitVec 4) (arg m : BitVec 12) :
    commandWord op arg &&& ((0xF#4 ++ m : BitVec 16)) = commandWord op (arg &&& m) := by
  apply BitVec.eq_of_getLsbD_eq
  intro i hi
  simp only [commandWord, BitVec.getLsbD_and, BitVec.getLsbD_append]
  split
  · rfl
  · have h4 : i - 12 < 4 := by omega
    have : (0xF#4).getLsbD (i - 12) = true := by
      generalize i - 12 = j at h4; interval_cases j <;> rfl
    simp [this]

theorem startEnc (r : BitVec 4) : Statement (.startEnc r) := fun _ _ =>
  (by decide : ∀ r : BitVec 4, commandWord 0x1#4 (0#8 ++ r) &&& 0xFFF0#16 = 0x1000#16) r

theorem startDec (r : BitVec 4) : Statement (.startDec r) := fun _ _ =>
  (by decide : ∀ r : BitVec 4, commandWord 0x2#4 (0#8 ++ r) &&& 0xFFF0#16 = 0x2000#16) r

theorem encSym (s : BitVec 12) : Statement (.encSym s) := fun _ _ =>
  (masked_commandWord 0x3#4 s 0#12).trans (by rw [BitVec.and_zero]; decide)

theorem encEnd : Statement .encEnd := fun _ _ => by show commandWord 0x4#4 0#12 &&& 0xFFFF#16 = 0x4000#16; decide

theorem decByte (b : Byte) : Statement (.decByte b) := fun _ _ =>
  (by decide : ∀ b : BitVec 8, commandWord 0x5#4 (0#4 ++ b) &&& 0xFF00#16 = 0x5000#16) b

theorem decEnd : Statement .decEnd := fun _ _ => by show commandWord 0x6#4 0#12 &&& 0xFFFF#16 = 0x6000#16; decide

theorem reservedOp0 (arg : BitVec 12) : Statement (.reservedOp0 arg) := fun _ _ =>
  (masked_commandWord 0x0#4 arg 0#12).trans (by rw [BitVec.and_zero]; decide)

theorem reservedOps (op : BitVec 4) (arg : BitVec 12) : Statement (.reservedOps op arg) := by
  intro x h
  have h7 : 7 ≤ op.toNat := of_decide_eq_true h
  show 0x7000 ≤ (op ++ arg).toNat
  rw [BitVec.toNat_append, Nat.shiftLeft_eq]
  have := Nat.left_le_or (n := op.toNat * 2 ^ 12) (m := arg.toNat)
  omega

theorem lit (c : Code) : Statement (.lit c) := fun x h =>
  of_decide_eq_true (p := c.toNat < 2 ^ x.r) h

theorem clr : Statement .clr := by
  intro x h
  have hr : rootOk x.r := of_decide_eq_true h
  show (BitVec.ofNat 12 (2 ^ x.r)).toNat = 2 ^ x.r
  have : 2 ^ x.r ≤ 2 ^ 10 := Nat.pow_le_pow_right (by norm_num) hr.2
  rw [BitVec.toNat_ofNat]; exact Nat.mod_eq_of_lt (by omega)

theorem eoi : Statement .eoi := by
  intro x h
  have hr : rootOk x.r := of_decide_eq_true h
  show (BitVec.ofNat 12 (2 ^ x.r + 1)).toNat = 2 ^ x.r + 1
  have : 2 ^ x.r ≤ 2 ^ 10 := Nat.pow_le_pow_right (by norm_num) hr.2
  rw [BitVec.toNat_ofNat]; exact Nat.mod_eq_of_lt (by omega)

theorem dic (c : Code) : Statement (.dic c) := fun x h =>
  of_decide_eq_true (p := 2 ^ x.r + 2 ≤ c.toNat ∧ c.toNat < min x.n 4096) h

theorem kwk (c : Code) : Statement (.kwk c) := by
  intro x h
  obtain ⟨h1, h2⟩ := (Bool.and_eq_true _ _).mp h
  exact ⟨(of_decide_eq_true h1).2, h2⟩

theorem bad (c : Code) : Statement (.bad c) := by
  intro x h
  obtain ⟨-, h2, h3⟩ := of_decide_eq_true h
  show x.n < c.toNat ∨ c.toNat = x.n ∧ x.prevV = false
  have hc := c.isLt
  simp only [Config.codes] at h2
  rcases Nat.lt_or_ge x.n c.toNat with h | h
  · exact .inl h
  · have heq : c.toNat = x.n := by omega
    exact .inr ⟨heq, by simpa [heq] using h3⟩

theorem pair (width : BitVec 4) (code : Code) : Statement (.pair width code) := fun _ _ => trivial

end Sys2Proof.Laws.TableRow
end

