-- ==== Sys2Proof/Laws/Session.lean ====
section
/-! SUPPORT. What the definitions about sessions and runs say: the launch premises, the split of a run at its STARTs, the
pairs the encode commands emit. -/

namespace Sys2Proof.Machine

/-! ### Launch premises (70 R170) -/

theorem reset_afterReset : State.reset.afterReset := rfl

theorem hardReset_afterReset (s : State) : (hardReset s).afterReset := rfl

/-- START_DEC from a state with empty output streams leaves the start of a decode stream. -/
theorem beginStream_atStreamStart (s : State) {r : BitVec 4} (hr : rootOk r.toNat) (hb : s.byteOut = []) (hs : s.symOut = []) :
    (beginStream .dec .decActive r s).atStreamStart .dec r :=
  ⟨hr, rfl, rfl, rfl, rfl, rfl, rfl, rfl, rfl, rfl, rfl, rfl, rfl, rfl,
    ⟨fun _ => ⟨rfl, hb⟩, (nomatch ·)⟩, hs⟩

/-- What the first Clear Code leaves in an empty packer, for each legal root size (V7). -/
theorem startBits_of_pack : ∀ r ∈ List.range' 2 9,
    let q := Packer.pack (initialWidth r) (BitVec.ofNat 12 (clrCode r)) ⟨0, 0⟩
    q.1.ok ∧ q.2.length = (if 8 ≤ initialWidth r then 1 else 0) ∧ 8 * q.2.length + q.1.n = initialWidth r ∧
      bytesValue q.2 + 2 ^ (8 * q.2.length) * q.1.acc.toNat = clrCode r := by decide

/-- START_ENC from a state with empty output streams leaves the start of an encode stream. -/
theorem startEncode_atStreamStart (s : State) {r : BitVec 4} (hr : rootOk r.toNat) (hb : s.byteOut = []) (hs : s.symOut = []) :
    (startEncode r s).atStreamStart .enc r := by
  have hm : r.toNat ∈ List.range' 2 9 := by
    rw [List.mem_range'_1]; simp only [rootOk, Config.minRoot, Config.maxRoot] at hr; omega
  have hq := startBits_of_pack _ hm
  refine ⟨hr, rfl, rfl, rfl, rfl, rfl, rfl, rfl, rfl, rfl, rfl, rfl, rfl, rfl, ⟨(nomatch ·), fun _ => ?_⟩, hs⟩
  show Packer.ok (Packer.pack (initialWidth r.toNat) (BitVec.ofNat 12 (clrCode r.toNat)) ⟨0, 0⟩).1 ∧ _
  rw [show (startEncode r s).byteOut = (Packer.pack (initialWidth r.toNat) (BitVec.ofNat 12 (clrCode r.toNat)) ⟨0, 0⟩).2 by
    show s.byteOut ++ _ = _; rw [hb]; rfl]
  exact hq

/-! ### The end of a session (70 R169) -/

theorem State.finished_iff (s : State) :
    s.finished = true ↔ s.sessionEnd = .success ∨ ∃ e, s.sessionEnd = .failure e := by
  unfold State.finished State.sessionEnd
  cases s.state <;> simp

/-! ### The split of a run (70 R169) -/

/-- No command is lost and none is moved. -/
theorem splitAtStarts_flatten (ws : List CmdWord) : (splitAtStarts ws).1 ++ (splitAtStarts ws).2.flatten = ws := by
  induction ws with
  | nil => rfl
  | cons w rest ih =>
    simp only [splitAtStarts]
    split <;> simpa using ih

/-- The commands before the first START hold no START. -/
theorem splitAtStarts_carried (ws : List CmdWord) : ∀ w ∈ (splitAtStarts ws).1, beginsSession w = false := by
  induction ws with
  | nil => simp [splitAtStarts]
  | cons w rest ih =>
    simp only [splitAtStarts]
    split
    · simp
    · rename_i hw
      intro v hv
      rcases List.mem_cons.mp hv with rfl | hv
      · simpa using hw
      · exact ih v hv

/-- Each session is its START and commands that are none. -/
theorem splitAtStarts_sessions (ws : List CmdWord) : ∀ b ∈ (splitAtStarts ws).2,
    ∃ w rest, b = w :: rest ∧ beginsSession w = true ∧ ∀ v ∈ rest, beginsSession v = false := by
  induction ws with
  | nil => simp [splitAtStarts]
  | cons w rest ih =>
    simp only [splitAtStarts]
    split
    · intro b hb
      rcases List.mem_cons.mp hb with rfl | hb
      · exact ⟨w, _, rfl, ‹_›, splitAtStarts_carried rest⟩
      · exact ih b hb
    · exact ih

theorem splitAtStarts_of_none {ws : List CmdWord} (h : ∀ w ∈ ws, beginsSession w = false) : splitAtStarts ws = (ws, []) := by
  induction ws with
  | nil => rfl
  | cons w rest ih =>
    rw [splitAtStarts, ih fun v hv => h v (List.mem_cons_of_mem _ hv), h w List.mem_cons_self]
    rfl

/-- A run that is one START and commands that are none is one session. -/
theorem splitAtStarts_session {w : CmdWord} {ws : List CmdWord} (hw : beginsSession w = true)
    (h : ∀ v ∈ ws, beginsSession v = false) : splitAtStarts (w :: ws) = ([], [w :: ws]) := by
  rw [splitAtStarts, splitAtStarts_of_none h, hw]
  rfl

theorem runCommands_append (a b : List CmdWord) (s : State) :
    runCommands (a ++ b) s = andThen (runCommands a s) (runCommands b) := by
  induction a generalizing s with
  | nil => rfl
  | cons w rest ih =>
    simp only [List.cons_append, runCommands]
    cases runCommand w s with
    | next t => exact ih t
    | fault f => rfl
    | refused q => rfl

/-- Running the sessions one after another is running their commands in order. -/
theorem runCommands_of_runSessions {bs : List (List CmdWord)} {s : State} {q : State × List SessionObservation}
    (h : runSessions bs s = .next q) : runCommands bs.flatten s = .next q.1 := by
  induction bs generalizing s q with
  | nil => cases h; rfl
  | cons b bs ih =>
    unfold runSessions at h
    split at h
    · rename_i t hb
      split at h
      · rename_i p hp
        cases h
        rw [List.flatten_cons, runCommands_append, hb, andThen_next, ih hp]
      · cases h
      · cases h
    · cases h
    · cases h

/-- There is one observation for each session. -/
theorem length_of_runSessions {bs : List (List CmdWord)} {s : State} {q : State × List SessionObservation}
    (h : runSessions bs s = .next q) : q.2.length = bs.length := by
  induction bs generalizing s q with
  | nil => cases h; rfl
  | cons b bs ih =>
    unfold runSessions at h
    split at h
    · split at h
      · rename_i p hp
        cases h
        rw [List.length_cons, List.length_cons, ih hp]
      · cases h
      · cases h
    · cases h
    · cases h

/-- What a run shows: the STATUS and ERRINFO that its commands leave, and one observation for each of its STARTs. -/
theorem observeRun_spec {ws : List CmdWord} {s : State} {o : RunObservation} (h : observeRun ws s = .next o) :
    ∃ t, runCommands ws s = .next t ∧ o.status = t.readStatus 0 ∧ o.errInfo = t.readStatus 1 ∧
      o.sessions.length = (splitAtStarts ws).2.length := by
  unfold observeRun at h
  split at h
  · rename_i t ht
    split at h
    · rename_i q hq
      cases h
      refine ⟨_, ?_, rfl, rfl, length_of_runSessions hq⟩
      rw [← splitAtStarts_flatten ws, runCommands_append, ht, andThen_next, runCommands_of_runSessions hq]
    · cases h
    · cases h
  · cases h
  · cases h

/-! ### The class of an emitted data code (42_encoder R110, 43_decoder R131, log 20) -/

/-- At the decoder's `N`, one behind the encoder's, an emitted data code is KWK when it is the newest entry, and LIT or DIC
when not (43_decoder R131 (b)). -/
theorem runCode_at_decoder {s : State} {c : Code} (h : s.runCode c) (hf : firstCode s.r < s.n) (hn : s.n ≤ Config.codes) :
    let x : CodeContext := ⟨s.r, s.n - 1, true⟩
    (c.toNat = s.n - 1 → classify x c.toNat = .KWK) ∧
      (c.toNat ≠ s.n - 1 → classify x c.toNat = .LIT ∨ classify x c.toNat = .DIC) := by
  obtain ⟨h1, h2, h3⟩ := h
  simp only [clrCode, eoiCode, firstCode, Config.codes] at h2 h3 hf hn
  refine ⟨fun e => classify_kwk.mpr ⟨?_, ?_, e, rfl⟩, fun e => ?_⟩
  · simp only [firstCode]; omega
  · simp only [Config.codes]; omega
  · by_cases hl : c.toNat < 2 ^ s.r
    · exact .inl (classify_lit.mpr hl)
    · refine .inr (classify_dic.mpr ⟨?_, ?_⟩)
      · simp only [firstCode]; omega
      · simp only [Config.codes]; omega

/-- The first data code of an epoch is a literal on both sides (43_decoder R120, R131). -/
theorem runCode_first {s : State} {c : Code} (h : s.runCode c) (hf : s.n = firstCode s.r) (prevV : Bool) :
    classify ⟨s.r, s.n, prevV⟩ c.toNat = .LIT := by
  obtain ⟨h1, h2, h3⟩ := h
  simp only [classify_lit, clrCode, eoiCode, firstCode] at *
  omega

/-! ### The pairs of the encode commands (42_encoder R99) -/

theorem packAll_append (a b : List (Nat × Code)) (p : Packer) :
    packAll (a ++ b) p = ((packAll b (packAll a p).1).1, (packAll a p).2 ++ (packAll b (packAll a p).1).2) := by
  induction a generalizing p with
  | nil => rfl
  | cons x a ih => simp only [List.cons_append, packAll, ih, List.append_assoc]

/-- START_ENC packs its pairs into an empty packer. -/
theorem startEncode_packs (r : BitVec 4) (s : State) :
    (startEncode r s).pk = (packAll (startPairs r) ⟨0, 0⟩).1 ∧
      (startEncode r s).byteOut = s.byteOut ++ (packAll (startPairs r) ⟨0, 0⟩).2 := by
  simp only [startPairs, packAll, List.append_nil]
  exact ⟨rfl, rfl⟩

/-- ENC_SYM packs its pairs. -/
theorem encodeSymbol_packs (x : BitVec 12) (s : State) :
    (encodeSymbol x s).pk = (packAll (s.symbolPairs x) s.pk).1 ∧
      (encodeSymbol x s).byteOut = s.byteOut ++ (packAll (s.symbolPairs x) s.pk).2 := by
  unfold encodeSymbol State.symbolPairs State.lookupByPrefix
  cases s.curV with
  | false => simp [packAll, takeLiteral]
  | true =>
    simp only [if_true]
    cases s.camSearch s.cur (symOperand x) with
    | some k => simp [packAll]
    | none =>
      have hc : (encodeMiss x s).clr = s.clr := by unfold State.clr; rw [encodeMiss_r]
      dsimp only
      unfold encodeWidthStep
      rw [encodeMiss_n, encodeMiss_w]
      by_cases hn : s.n + 1 = 2 ^ s.w
      · by_cases hw : s.w = Config.maxw
        · rw [if_pos hn, if_pos (by omega), if_pos ⟨hn, hw⟩]
          simp only [packAll, List.append_nil, ← List.append_assoc]
          rw [overflowReset, hc]
          simp [takeLiteral, streamReset, pack, outBytes]
        · rw [if_pos hn, if_neg (by omega), if_neg fun h => hw h.2]
          simp [packAll]
      · rw [if_neg hn, if_neg fun h => hn h.1]
        simp [packAll]

/-- ENC_END packs its pairs and flushes. -/
theorem encodeEnd_packs (s : State) :
    (encodeEnd s).pk = ⟨0, 0⟩ ∧
      (encodeEnd s).byteOut =
        s.byteOut ++ (packAll s.finalPairs s.pk).2 ++ (packAll s.finalPairs s.pk).1.flush.2 := by
  refine ⟨rfl, ?_⟩
  unfold encodeEnd State.finalPairs
  cases s.curV <;> simp [packAll, pack, flush, outBytes, State.eoiWidth, State.eoi, State.r]

end Sys2Proof.Machine
end

