-- ==== Sys2Proof/Tests/Slice0.lean ====
section
/-! SUPPORT. Tests: ill-formed terms, words written out from the spec's encodings, single steps with results from the
spec's vectors (95_test_vectors), and one witness for each statement that has hypotheses. -/

namespace Sys2Proof.Tests

open Sys2Proof Sys2Proof.Machine Sys2Proof.Statements

/-! ### WellFormed: a term that each check refuses -/

/-- `r = 2`, `N = 8`, `PREV_V = 1`: codes 6 and 7 are present, 8 is the fallback, 9 and above are corrupt. -/
def ctx : CodeContext := ⟨2, 8, true⟩

theorem test_wf_reservedOps : (Instr.reservedOps 6 0).wellFormed ctx = false := by decide
theorem test_wf_lit : (Instr.lit 4).wellFormed ctx = false := by decide
theorem test_wf_clr : (Instr.clr).wellFormed ⟨1, 4, false⟩ = false := by decide
theorem test_wf_eoi : (Instr.eoi).wellFormed ⟨11, 2050, false⟩ = false := by decide
theorem test_wf_dic : (Instr.dic 5).wellFormed ctx = false ∧ (Instr.dic 8).wellFormed ctx = false := by decide
theorem test_wf_kwk : (Instr.kwk 7).wellFormed ctx = false ∧ (Instr.kwk 8).wellFormed ⟨2, 8, false⟩ = false := by decide
theorem test_wf_bad : (Instr.bad 8).wellFormed ctx = false ∧ (Instr.bad 5).wellFormed ctx = false ∧
    (Instr.bad 7).wellFormed ctx = false := by decide
theorem test_wf_pair : (Instr.pair 0 0).wellFormed ctx = false ∧ (Instr.pair 13 0).wellFormed ctx = false ∧
    (Instr.pair 3 8).wellFormed ctx = false := by decide

/-! ### Decode: words written out bit by bit (30_encoding R55, R57, R60, R65, R66) -/

theorem test_decode_startEnc : decodeCommand 0b0001000000001010#16 = .ok (.startEnc 10) := by decide
theorem test_decode_startDec : decodeCommand 0b0010000000000111#16 = .ok (.startDec 7) := by decide
theorem test_decode_encSym : decodeCommand 0b0011100000000001#16 = .ok (.encSym 0x801) := by decide
theorem test_decode_encEnd : decodeCommand 0b0100000000000000#16 = .ok .encEnd := by decide
theorem test_decode_decByte : decodeCommand 0b0101000010000110#16 = .ok (.decByte 0x86) := by decide
theorem test_decode_decEnd : decodeCommand 0b0110000000000000#16 = .ok .decEnd := by decide
theorem test_decode_reservedOp0 : decodeCommand 0b0000000000000001#16 = .ok (.reservedOp0 1) := by decide
theorem test_decode_reservedOps : decodeCommand 0b0111100000000000#16 = .ok (.reservedOps 7 0x800) ∧
    decodeCommand 0b1111000000000001#16 = .ok (.reservedOps 15 1) := by decide
theorem test_decode_malformed_start : decodeCommand 0b0001000000010000#16 = .rejected (.malformed 0x1010) ∧
    decodeCommand 0b0010100000000010#16 = .rejected (.malformed 0x2802) := by decide
theorem test_decode_malformed_end : decodeCommand 0b0100000000000001#16 = .rejected (.malformed 0x4001) ∧
    decodeCommand 0b0110100000000000#16 = .rejected (.malformed 0x6800) := by decide
theorem test_decode_malformed_byte : decodeCommand 0b0101000100000000#16 = .rejected (.malformed 0x5100) := by decide
theorem test_decode_lit : decodeCode ctx 0b000000000011#12 = .lit 3 := by decide
theorem test_decode_clr : decodeCode ctx 0b000000000100#12 = .clr := by decide
theorem test_decode_eoi : decodeCode ctx 0b000000000101#12 = .eoi := by decide
theorem test_decode_dic : decodeCode ctx 0b000000000110#12 = .dic 6 := by decide
theorem test_decode_kwk : decodeCode ctx 0b000000001000#12 = .kwk 8 := by decide
theorem test_decode_bad : decodeCode ctx 0b000000001001#12 = .bad 9 ∧ decodeCode ⟨2, 8, false⟩ 0b000000001000#12 = .bad 8 := by
  decide
theorem test_decode_pair : decodePair 0b1001000100000001#16 = .pair 9 0x101 := by decide
theorem test_codeBits : codeBits 3 6 = [false, true, true] := by decide
theorem test_tableWord : decodeTableWord 16 0x3004 = some (.encSym 4) ∧ decodeTableWord 16 0x1012 = none := by decide

/-! ### States -/

/-- The state of an answer. -/
def answer (o : Result) : State :=
  match o with
  | .next t => t
  | .fault _ => State.reset
  | .refused _ => State.reset

/-- After `START_ENC 2` (V7). -/
def enc2 : State := { State.reset with state := .encActive, root := 2, w := 3, n := 6, pk := ⟨4, 3⟩ }

/-- After two symbols 0 (V1 row 3). -/
def encMid : State := { enc2 with n := 7, curV := true, cur := 0, pk := ⟨4, 6⟩, dict := [(6, ⟨0, 0⟩)] }

/-- After three symbols 0 (V1 row 4). -/
def encHit : State := { encMid with cur := 6 }

/-- After `ENC_END` of an empty input (V2). -/
def encDone : State := { enc2 with state := .done, pk := ⟨0, 0⟩, byteOut := [0x2C] }

/-- After `START_DEC 2` (V1). -/
def dec2 : State := { State.reset with state := .decActive, mode := .dec, root := 2, w := 3, n := 6 }

/-- After `508C` (V13): `previous` is the literal 1, and 2 bits are left. -/
def decOne : State := { dec2 with prevV := true, prev := 1, ub := ⟨2, 2⟩, symOut := [1] }

/-- Decoding 0 and 1 (V14, before its `DIC 6@4`). -/
def decTwo : State :=
  { dec2 with n := 7, w := 4, prevV := true, prev := 1, dict := [(6, ⟨0, 1⟩)], symOut := [0, 1] }

/-- After EOI (V2). -/
def decDone : State := { dec2 with state := .done }

/-- After `1002 3004` (V23). -/
def failed : State := { enc2 with state := .error, err := .invalidSymbol, errInfo := 4 }

/-! ### One step of each instruction -/

theorem test_startEnc_7 : (answer (exec (.startEnc 7) State.reset)).readStatus 0 = 0x00828071 ∧
    (answer (exec (.startEnc 7) State.reset)).byteOut = [0x80] ∧
    (answer (exec (.startEnc 7) State.reset)).pk = ⟨0, 0⟩ := by decide

theorem test_startEnc_8 : (answer (exec (.startEnc 8) decOne)).readStatus 0 = 0x01029081 ∧
    (answer (exec (.startEnc 8) decOne)).byteOut = [0x00] ∧ (answer (exec (.startEnc 8) decOne)).pk = ⟨1, 1⟩ := by decide

theorem test_startDec : (answer (exec (.startDec 2) enc2)).readStatus 0 = 0x0006302A ∧
    (answer (exec (.startDec 2) enc2)).pk = ⟨0, 0⟩ := by decide

theorem test_startDec_illegal : (answer (exec (.startDec 11) failed)).readStatus 0 = 0x00063524 ∧
    (answer (exec (.startDec 11) failed)).readStatus 1 = 0x200B := by decide

theorem test_encSym_miss : (answer (exec (.encSym 0) encHit)).readStatus 0 = 0x00084021 ∧
    (answer (exec (.encSym 0) encHit)).byteOut = [0x84] ∧
    (answer (exec (.encSym 0) encHit)).dict = [(6, ⟨0, 0⟩), (7, ⟨6, 0⟩)] := by decide

theorem test_encSym_invalid : (answer (exec (.encSym 4) enc2)).readStatus 0 = 0x00063124 ∧
    (answer (exec (.encSym 4) enc2)).readStatus 1 = 4 := by decide

theorem test_encEnd : (answer (exec .encEnd { encHit with n := 8, w := 4, cur := 0, pk := ⟨1, 1⟩ })).readStatus 0 = 0x00084023 ∧
    (answer (exec .encEnd { encHit with n := 8, w := 4, cur := 0, pk := ⟨1, 1⟩ })).byteOut = [0xA1, 0x00] := by decide

/-- V8: the phantom width bump. -/
theorem test_encEnd_phantom : (answer (exec .encEnd { encHit with pk := ⟨0x0C, 6⟩ })).readStatus 0 = 0x00074023 ∧
    (answer (exec .encEnd { encHit with pk := ⟨0x0C, 6⟩ })).byteOut = [0x8C, 0x0B] := by decide

theorem test_decByte : (answer (exec (.decByte 0x0B) decOne)).readStatus 0 = 0x0007402B ∧
    (answer (exec (.decByte 0x0B) decOne)).symOut = [1, 1, 1] := by decide

/-- V16, `C4 01`: a code above `N`. -/
theorem test_decByte_corrupt : (answer (exec (.decByte 0x01) { decOne with prev := 0, ub := ⟨3, 2⟩ })).readStatus 0 = 0x0006332C ∧
    (answer (exec (.decByte 0x01) { decOne with prev := 0, ub := ⟨3, 2⟩ })).readStatus 1 = 7 := by decide

theorem test_decEnd : (answer (exec .decEnd decOne)).readStatus 0 = 0x0006322C ∧
    (answer (exec .decEnd decOne)).readStatus 1 = 2 := by decide

theorem test_decEnd_done : (answer (exec .decEnd decDone)).readStatus 0 = 0x0006302B := by decide

theorem test_reservedOp0 : (answer (exec (.reservedOp0 0) enc2)).readStatus 0 = 0x00063424 ∧
    (answer (exec (.reservedOp0 0) enc2)).readStatus 1 = 0 := by decide

theorem test_reservedOps : (answer (exec (.reservedOps 15 0x123) State.reset)).readStatus 0 = 0x00000404 ∧
    (answer (exec (.reservedOps 15 0x123) State.reset)).readStatus 1 = 0xF123 := by decide

theorem test_lit_first : (answer (exec (.lit 0) dec2)).symOut = [0] ∧
    (answer (exec (.lit 0) dec2)).readStatus 0 = 0x0006302A ∧ (answer (exec (.lit 0) dec2)).prevV = true := by decide

theorem test_lit_later : (answer (exec (.lit 1) { decOne with prev := 0 })).dict = [(6, ⟨0, 1⟩)] ∧
    (answer (exec (.lit 1) { decOne with prev := 0 })).readStatus 0 = 0x0007402A := by decide

theorem test_clr : (answer (exec .clr decTwo)).readStatus 0 = 0x0006302A ∧ (answer (exec .clr decTwo)).prevV = false := by
  decide

theorem test_eoi : (answer (exec .eoi decTwo)).readStatus 0 = 0x0007402B ∧ (answer (exec .eoi decOne)).ub = ⟨0, 0⟩ := by
  decide

theorem test_dic : (answer (exec (.dic 6) decTwo)).symOut = [0, 1, 0, 1] ∧
    (answer (exec (.dic 6) decTwo)).dict = [(6, ⟨0, 1⟩), (7, ⟨1, 0⟩)] ∧
    (answer (exec (.dic 6) decTwo)).readStatus 0 = 0x0008402A := by decide

/-- 43_decoder R123: after codes 4, 0, 1 code 7 outputs 1, 1. -/
theorem test_kwk : (answer (exec (.kwk 7) decTwo)).symOut = [0, 1, 1, 1] ∧
    (answer (exec (.kwk 7) decTwo)).dict = [(6, ⟨0, 1⟩), (7, ⟨1, 1⟩)] := by decide

theorem test_bad : (answer (exec (.bad 7) decOne)).readStatus 0 = 0x0006332C ∧
    (answer (exec (.bad 7) decOne)).readStatus 1 = 7 := by decide

/-- 40_bit_channel R86. -/
theorem test_pair : (answer (exec (.pair 3 6) { enc2 with pk := ⟨4, 6⟩ })).byteOut = [0x84] ∧
    (answer (exec (.pair 3 6) { enc2 with pk := ⟨4, 6⟩ })).pk = ⟨1, 1⟩ := by decide

/-- V3: the split branch. -/
theorem test_pair_split : (answer (exec (.pair 3 5) { enc2 with pk := ⟨0x7FF, 11⟩ })).byteOut = [0xFF] ∧
    (answer (exec (.pair 3 5) { enc2 with pk := ⟨0x7FF, 11⟩ })).pk = ⟨0x2F, 6⟩ := by decide

/-! ### Operations and steps -/

/-- V4. -/
theorem test_flush : (flush { enc2 with pk := ⟨0x7FF, 11⟩ }).byteOut = [0xFF, 0x07] := by decide

/-- V5. -/
theorem test_unpacker : Unpacker.pushByte 0xA1 ⟨2, 2⟩ = ⟨0x286, 10⟩ ∧ Unpacker.read 3 ⟨0x286, 10⟩ = some (6, ⟨0x50, 7⟩) ∧
    Unpacker.read 4 ⟨0x50, 7⟩ = some (0, ⟨0x5, 3⟩) ∧ Unpacker.read 4 ⟨0x5, 3⟩ = none := by decide

/-- V23: a malformed START. -/
theorem test_step_malformed : (answer (step { State.reset with input := [.command 0x1012] })).readStatus 0 = 0x00000404 ∧
    (answer (step { State.reset with input := [.command 0x1012] })).readStatus 1 = 0x1012 := by decide

/-- 70 R157. -/
theorem test_step_hardReset : (answer (step { encMid with input := [.hardReset] })).readStatus 0 = 0 := by decide

/-- V23: DEC_BYTE in IDLE, as the first instruction after reset. -/
theorem test_step_fetch : (answer (step (State.reset.withFetchWord 16 0x5000))).readStatus 0 = 0x00000404 := by decide

/-- The observation of a run that does not stop. -/
def observed (ws : List CmdWord) (s : State) : Option RunObservation :=
  match observeRun ws s with
  | .next o => some o
  | .fault _ => none
  | .refused _ => none

/-- 70 R169: the output is split at each START (V7). -/
theorem test_observeRun_split : observed [0x1007, 0x1007] State.reset =
    some ⟨0x00828071, 0, ⟨[], []⟩, [⟨⟨[0x80], []⟩, .unfinished⟩, ⟨⟨[0x80], []⟩, .unfinished⟩]⟩ := by decide

/-- PG6: a command after DONE raises an error, and the session stays a success. -/
theorem test_observeRun_end : observed [0x1002, 0x4000, 0x3000] State.reset =
    some ⟨0x00063424, 0x3000, ⟨[], []⟩, [⟨⟨[0x2C], []⟩, .success⟩]⟩ := by decide

/-- V1: the pairs of `ENCODE 2, [0, 0, 0, 0]`. -/
theorem test_sessionPairs : sessionPairs 2 [0, 0, 0, 0] State.reset = [(3, 4), (3, 0), (3, 6), (4, 0), (4, 5)] := by decide

/-- 70 R158, R170: the launch premises hold where they should, and not before START_ENC has packed the Clear Code. -/
theorem test_atStreamStart : (answer (exec (.startEnc 8) State.reset)).atStreamStart .enc 8 ∧ enc2.atStreamStart .enc 2 ∧
    dec2.atStreamStart .dec 2 ∧ ¬ ({ enc2 with pk := ⟨0, 0⟩ } : State).atStreamStart .enc 2 ∧
    ¬ ({ answer (exec (.startEnc 8) State.reset) with pk := ⟨256, 9⟩, byteOut := [] } : State).atStreamStart .enc 8 :=
  ⟨by decide, by decide, by decide, by decide, by decide⟩

/-! ### Witnesses: states and operands that meet the hypotheses of the statements -/

theorem enc2_inv : enc2.Inv := by constructor <;> decide
theorem encMid_inv : encMid.Inv := by constructor <;> decide
theorem encHit_inv : encHit.Inv := by constructor <;> decide
theorem dec2_inv : dec2.Inv := by constructor <;> decide
theorem decOne_inv : decOne.Inv := by constructor <;> decide
theorem decTwo_inv : decTwo.Inv := by constructor <;> decide

theorem witness_DecodeOfEncodeReturnsInstruction :
    ∀ i ∈ ([.startEnc 15, .startDec 0, .encSym 0xFFF, .encEnd, .decByte 0xFF, .decEnd, .reservedOp0 0xFFF, .reservedOps 7 0,
      .reservedOps 15 0xFFF, .lit 0, .lit 3, .clr, .eoi, .dic 6, .dic 7, .kwk 8, .bad 9, .bad 0xFFF, .pair 1 1,
      .pair 12 0xFFF] : List Instr), i.wellFormed ctx = true := by decide

theorem witness_CommandWordIsTheWordOfItsInstruction : decodeCommand 0x3FFF = .ok (.encSym 0xFFF) := by decide

theorem witness_ReservedArgumentBitsMakeACommandMalformed : decodeCommand 0x1010 = .rejected (.malformed 0x1010) ∧
    decodeCommand 0x2FF0 = .rejected (.malformed 0x2FF0) ∧ decodeCommand 0x4001 = .rejected (.malformed 0x4001) ∧
    decodeCommand 0x6800 = .rejected (.malformed 0x6800) ∧ decodeCommand 0x5100 = .rejected (.malformed 0x5100) := by decide

theorem witness_EveryCodeIsExactlyOneInstruction : rootOk 2 ∧ rootOk 10 ∧ (Instr.kwk 8).wellFormed ctx = true ∧
    encode ctx (.kwk 8) = .code 8 := by decide

theorem witness_StepRunsTheDecodedCommand :
    ({ enc2 with input := [.command 0x3000, .hardReset] } : State).input = .command 0x3000 :: [.hardReset] ∧
    decodeCommand 0x3000 = .ok (.encSym 0) ∧
    ({ enc2 with input := [.command 0x1012] } : State).input = .command 0x1012 :: [] ∧
    decodeCommand 0x1012 = .rejected (.malformed 0x1012) ∧
    ({ enc2 with input := [.hardReset] } : State).input = .hardReset :: [] ∧ enc2.input = [] := by decide

theorem witness_HardwareResetLeavesTheResetState : ({ encMid with input := [.hardReset] } : State).input = .hardReset :: [] ∧
    ¬ isStart 0x1012 ∧ ¬ isStart 0x5000 ∧ isStart 0x1002 ∧ isStart 0x200F := by decide

theorem witness_StatusWordsShowTheRegisters : 2 ≤ 2 ∧ enc2.readStatus 2 = 0 ∧ enc2.busy = true ∧ dec2.busy = true ∧
    decDone.done = true ∧ failed.errLine = true ∧ decDone.busy = false ∧ failed.busy = false := by decide

theorem witness_StepKeepsTheInvariant : ∃ s t : State, s.Inv ∧ s.input ≠ [] ∧ step s = .next t := by
  refine ⟨{ encHit with input := [.command 0x3000] }, _, ?_, by decide, rfl⟩
  constructor <;> decide

theorem witness_StepCompletesUnderTheInvariant : encHit.Inv ∧ decOne.Inv := ⟨encHit_inv, decOne_inv⟩

theorem witness_StepOnlyAddsToTheOutput :
    ∃ t : State, step { encHit with input := [.command 0x3000] } = .next t ∧ t.byteOut = [0x84] := ⟨_, rfl, by decide⟩

theorem witness_ReservedOperationsRaiseIllegalCommand : enc2.state ≠ .error ∧ failed.state = .error := by decide

theorem witness_UnacceptedCommandsRaiseIllegalCommand :
    (enc2.state ≠ .error ∧ ¬ commandWf 0x0000 ∧ ¬ commandWf 0x7000 ∧ ¬ commandWf 0x4001) ∧
    (dec2.state ≠ .error ∧ opOf 0x3000 = 3 ∧ dec2.state ≠ .encActive) ∧
    (encDone.state ≠ .error ∧ opOf 0x5000 = 5 ∧ encDone.state ≠ .decActive ∧
      ¬ (encDone.state = .done ∧ encDone.mode = .dec)) := by decide

theorem witness_IllegalRootSizeIsRefusedInEveryState : ¬ (2 ≤ (1#4).toNat ∧ (1#4).toNat ≤ 10) ∧
    ¬ (2 ≤ (11#4).toNat ∧ (11#4).toNat ≤ 10) := by decide

theorem witness_OutOfRangeSymbolFailsFast : enc2.state = .encActive ∧ 2 ^ enc2.root.toNat ≤ (4#12).toNat := by decide

theorem witness_DecEndBeforeEoiIsTruncated : decOne.state = .decActive ∧ decDone.state = .done ∧ decDone.mode = .dec := by
  decide

theorem witness_CorruptCodeIsRecorded : (decOne.Inv ∧ decOne.state = .decActive ∧ decOne.prevV = true ∧ decOne.n < (7#12).toNat) ∧
    (dec2.Inv ∧ dec2.state = .decActive ∧ dec2.prevV = false ∧ 2 ^ dec2.root.toNat + 2 ≤ (6#12).toNat) :=
  ⟨⟨decOne_inv, by decide⟩, dec2_inv, by decide⟩

theorem witness_ErrorIsSticky : failed.state = .error ∧ ¬ isStart 0x2012 ∧ ¬ isStart 0x3001 ∧ isStart 0x1001 ∧ isStart 0x200B ∧
    ¬ (2 ≤ argOf 0x1001 % 16 ∧ argOf 0x1001 % 16 ≤ 10) ∧ ¬ (2 ≤ argOf 0x200B % 16 ∧ argOf 0x200B % 16 ≤ 10) := by decide

theorem witness_InputAfterEoiIsIgnored : decDone.state = .done ∧ decDone.mode = .dec := by decide

theorem witness_PairGoesAboveTheOpenBits : ({ enc2 with pk := ⟨0xFFF, 12⟩ } : State).pk.ok ∧ encMid.pk.ok ∧
    1 ≤ (1#4).toNat ∧ (12#4).toNat ≤ 12 := by decide

theorem witness_FlushEmitsEveryOpenBit : encDone.pk.ok ∧ encMid.pk.ok ∧ ({ enc2 with pk := ⟨0xFFF, 12⟩ } : State).pk.ok := by
  decide

theorem witness_PushByteAppendsAboveTheBufferedBits : (⟨0x7FF, 11⟩ : Unpacker).n ≤ 11 ∧
    (⟨0x7FF, 11⟩ : Unpacker).buf.toNat < 2 ^ (⟨0x7FF, 11⟩ : Unpacker).n := by decide

theorem witness_UnpackReadTakesTheOldestBits : (⟨5, 3⟩ : Unpacker).n < 4 ∧ 4 ≤ 12 ∧ 12 ≤ (⟨0xFFF, 12⟩ : Unpacker).n := by decide

theorem witness_PackerOutputIsTheLittleEndianStream : pairsLegal [] ∧ pairsLegal [(3, 4), (12, 0xABC), (12, 0xFFF), (3, 5)] ∧
    pairsLegal [(1, 1)] := by decide

theorem witness_UnpackerReadsBackWhatThePackerWrote : pairsLegal [(3, 4), (12, 0xABC), (12, 0xFFF), (3, 5)] := by decide

theorem witness_DictWriteWritesOneEntry : 4095 < 4096 ∧ 4096 ≤ 4096 ∧ decTwo.dict.wf := by decide

theorem witness_SequenceOfACode : decTwo.dictListsPresent ∧ decTwo.entriesLegal ∧
    (3#12).toNat < 2 ^ decTwo.root.toNat ∧ 2 ^ decTwo.root.toNat + 2 ≤ (6#12).toNat ∧ (6#12).toNat < min decTwo.n 4096 ∧
    2 ^ decTwo.root.toNat ≤ (4#12).toNat ∧ ¬ (2 ^ decTwo.root.toNat + 2 ≤ (4#12).toNat ∧ (4#12).toNat < min decTwo.n 4096) ∧
    2 ^ decTwo.root.toNat ≤ (7#12).toNat ∧ ¬ (2 ^ decTwo.root.toNat + 2 ≤ (7#12).toNat ∧ (7#12).toNat < min decTwo.n 4096) := by
  decide

/-- What code 6 denotes in `decTwo` (V14). -/
theorem decTwo_seq : decTwo.seq 6 = some [0, 1] := by
  rw [State.seq_present decTwo_inv.entries (e := ⟨0, 1⟩) (by decide) (by decide), State.seq_literal (by decide)]
  rfl

theorem witness_SequenceLengthIsBounded : rootOk decTwo.r ∧ decTwo.dictListsPresent ∧ decTwo.entriesLegal ∧
    decTwo.seq 6 = some [0, 1] ∧ decTwo.present (6#12).toNat ∧ decTwo.seq 3 = some [3] ∧ (3#12).toNat < 2 ^ decTwo.root.toNat :=
  ⟨by decide, by decide, by decide, decTwo_seq, by decide, State.seq_literal (by decide), by decide⟩

theorem witness_CamSearchFindsThePresentEntry : encMid.dict.wf ∧ encMid.keysUnique ∧ encMid.camSearch 0 0 = some 6 ∧
    encMid.dict.read (6#12).toNat = some ⟨0, 0⟩ ∧ enc2.dict.wf ∧ enc2.keysUnique ∧ enc2.curV = false ∧ encMid.curV = true := by
  decide

/-- What code 6 denotes in `encMid` (V1). -/
theorem encMid_seq : encMid.seq 6 = some [0, 0] := by
  rw [State.seq_present encMid_inv.entries (e := ⟨0, 0⟩) (by decide) (by decide), State.seq_literal (by decide)]
  rfl

theorem witness_EncodeDictionaryHasUniqueEntries : encMid.Inv ∧ encMid.mode = .enc ∧ encMid.dict.read 6 = some ⟨0, 0⟩ ∧
    encMid.seq 6 = some [0, 0] := ⟨encMid_inv, by decide, by decide, encMid_seq⟩

theorem witness_SearchFindsTheCodeOfTheCandidate : encMid.Inv ∧ encMid.mode = .enc ∧ encMid.n < 4096 ∧
    encMid.seq 0 = some [0] ∧ encMid.camSearch 0 0 = some 6 :=
  ⟨encMid_inv, by decide, by decide, State.seq_literal (by decide), by decide⟩

theorem witness_StartEncBeginsAnEncodeSession : 2 ≤ (2#4).toNat ∧ (10#4).toNat ≤ 10 := by decide

theorem witness_FirstSymbolFillsCurrent : enc2.state = .encActive ∧ (3#12).toNat < 2 ^ enc2.root.toNat ∧ enc2.curV = false := by
  decide

theorem witness_KnownCandidateBecomesCurrent : encMid.Inv ∧ encMid.state = .encActive ∧
    (0#12).toNat < 2 ^ encMid.root.toNat ∧ encMid.curV = true ∧
    encMid.dict.read (6#12).toNat = some ⟨encMid.cur, BitVec.ofNat 10 (0#12).toNat⟩ := ⟨encMid_inv, by decide⟩

theorem witness_MissEmitsInsertsAndAdvances : encHit.Inv ∧ encHit.state = .encActive ∧
    (0#12).toNat < 2 ^ encHit.root.toNat ∧ encHit.curV = true ∧
    (∀ j, encHit.dict.read j ≠ some ⟨encHit.cur, BitVec.ofNat 10 (0#12).toNat⟩) ∧ encHit.n + 1 ≠ 4096 :=
  ⟨encHit_inv, by decide, by decide, by decide,
    fun j h => absurd (Dict.mem_of_read h) (by simp [encHit, encMid]), by decide⟩

/-! The table before the overflow: 4089 entries, each its predecessor and a symbol 0, as 4089 runs of zeros make it (V22). -/

/-- Code `FIRST + k` is code `FIRST + k - 1` and a 0. -/
def chain (k : Nat) : Nat × DictEntry := (6 + k, ⟨BitVec.ofNat 12 (if k = 0 then 0 else 5 + k), 0⟩)

/-- The first `m` such entries. -/
def chainDict (m : Nat) : Dict := (List.range m).map chain

/-- The encoder with all but one entry of the table filled. -/
def encFull : State := { enc2 with n := 4095, w := 12, curV := true, cur := 0, pk := ⟨0, 0⟩, dict := chainDict 4089 }

theorem chain_prefix {k : Nat} (h : k < 4089) : (chain k).2.prefixCode.toNat = if k = 0 then 0 else 5 + k := by
  simp only [chain, BitVec.toNat_ofNat]
  split <;> omega

theorem chainDict_codes (m : Nat) : (chainDict m).map Prod.fst = List.range' 6 m := by
  rw [chainDict, List.map_map, List.range'_eq_map_range]
  rfl

theorem mem_chainDict {m : Nat} {p : Nat × DictEntry} (h : p ∈ chainDict m) : ∃ k, k < m ∧ chain k = p := by
  simpa [chainDict] using h

theorem chainDict_unique {m : Nat} (hm : m ≤ 4089) : ((chainDict m).map Prod.snd).Nodup := by
  rw [chainDict, List.map_map]
  refine List.Nodup.map_on (fun a ha b hb h => ?_) List.nodup_range
  have := congrArg (fun e : DictEntry => e.prefixCode.toNat) h
  have ha := List.mem_range.mp ha
  have hb := List.mem_range.mp hb
  simp only [Function.comp, chain_prefix (show a < 4089 by omega), chain_prefix (show b < 4089 by omega)] at this
  split at this <;> split at this <;> omega

theorem encFull_inv : encFull.Inv := by
  have hr : encFull.r = 2 := by decide
  have hd : encFull.dict = chainDict 4089 := by rw [encFull]
  refine ⟨.inr (by decide), by decide, by decide, by decide, by decide, ?_, fun p hp => ?_, fun _ => ?_, fun _ => ?_,
    fun h => absurd h (by decide)⟩
  · have hn : min encFull.n Config.codes - firstCode encFull.r = 4089 := by decide
    have hf : firstCode encFull.r = 6 := by decide
    unfold State.dictListsPresent
    rw [hn, hf, hd, chainDict_codes]
  · rw [hd] at hp
    obtain ⟨k, hk, rfl⟩ := mem_chainDict hp
    rw [chain_prefix hk, hr]
    have hs : (0#10).toNat < 2 ^ 2 := by decide
    replace hs : (chain k).2.suffix.toNat < 2 ^ 2 := hs
    simp only [chain, clrCode, eoiCode] at hs ⊢
    split <;> omega
  · unfold State.keysUnique
    rw [hd]
    exact chainDict_unique (Nat.le_refl _)
  · exact ⟨by decide, by decide, by decide, by decide, fun _ => by decide, fun h => absurd h (by decide)⟩

theorem witness_OverflowEmitsAClearCodeAndRestarts : encFull.Inv ∧ encFull.state = .encActive ∧
    (1#12).toNat < 2 ^ encFull.root.toNat ∧ encFull.curV = true ∧
    (∀ j, encFull.dict.read j ≠ some ⟨encFull.cur, BitVec.ofNat 10 (1#12).toNat⟩) ∧ encFull.n + 1 = 4096 := by
  refine ⟨encFull_inv, by decide, by decide, by decide, fun j h => ?_, by decide⟩
  have hm := Dict.mem_of_read h
  have hd : encFull.dict = chainDict 4089 := by rw [encFull]
  rw [hd] at hm
  obtain ⟨k, -, hk⟩ := mem_chainDict hm
  have hs := congrArg (fun p : Nat × DictEntry => p.2.suffix.toNat) hk
  simp [chain] at hs

theorem witness_EncEndEmitsTheFinalCodesAndFlushes : enc2.state = .encActive ∧ enc2.curV = false ∧ encHit.state = .encActive ∧
    encHit.curV = true ∧ encHit.n + 1 = 2 ^ encHit.w := by decide

theorem witness_EmittedCodesFitTheirWidths : encHit.Inv ∧ encHit.state = .encActive ∧ encHit.curV = true :=
  ⟨encHit_inv, by decide⟩

theorem witness_EncodeCommandsOutputFewBytes : encHit.Inv ∧ (∃ t, exec (.startEnc 8) encHit = .next t) ∧
    (∃ t, exec (.encSym 0) encHit = .next t) ∧ (∃ t, exec .encEnd encHit = .next t) :=
  ⟨encHit_inv, ⟨_, rfl⟩, ⟨_, rfl⟩, _, rfl⟩

theorem witness_EncodeCommandsLeaveTheDecodeSideAlone :
    (∃ t, exec (.encSym 0) encHit = .next t ∧ t.state = .encActive) ∧ (∃ t, exec (.encSym 4) encHit = .next t ∧ t.state = .error) ∧
    (∃ t, exec .encEnd encHit = .next t ∧ t.state = .done) ∧ (∃ t, exec .encEnd dec2 = .next t ∧ t.state = .error) :=
  ⟨⟨_, rfl, by decide⟩, ⟨_, rfl, by decide⟩, ⟨_, rfl, by decide⟩, _, rfl, by decide⟩

theorem witness_StartDecBeginsADecodeSession : 2 ≤ (2#4).toNat ∧ (10#4).toNat ≤ 10 := by decide

theorem witness_DecByteRunsTheCodesItCompletes :
    decOne.state = .decActive ∧ ∃ t, exec (.decByte 0x0B) decOne = .next t ∧ t.state = .done := ⟨by decide, _, rfl, by decide⟩

theorem witness_DecByteCompletesWithinSixCodes : decOne.Inv ∧ decOne.state = .decActive := ⟨decOne_inv, by decide⟩

theorem witness_FirstLiteralInsertsNothing : dec2.prevV = false := by decide

theorem witness_LaterLiteralInsertsAndIsOutput : decOne.prevV = true := by decide

theorem witness_PresentCodeInsertsAndIsOutput : decTwo.prevV = true ∧ decTwo.dictListsPresent ∧ decTwo.entriesLegal ∧
    decTwo.present (6#12).toNat := by decide

theorem witness_FallbackRepeatsTheFirstSymbol : decTwo.prevV = true ∧ decTwo.dictListsPresent ∧ decTwo.entriesLegal ∧
    decTwo.denotes decTwo.prev ∧ (7#12).toNat = decTwo.n := by decide

theorem witness_DictionaryCodeWithoutPreviousIsCorrupt : dec2.prevV = false := by decide

theorem witness_ClearCodeRestoresTheInitialState : dec2.root.toNat ≤ 10 ∧ (10#4).toNat ≤ 10 := by decide

theorem witness_EndOfInformationEndsTheSession : dec2.root.toNat ≤ 10 ∧ (10#4).toNat ≤ 10 := by decide

theorem witness_PreviousDenotesWhatWasOutput : (dec2.Inv ∧ dec2.state = .decActive ∧ classify dec2.codeContext (0#12).toNat = .LIT) ∧
    (decTwo.Inv ∧ decTwo.state = .decActive ∧ classify decTwo.codeContext (6#12).toNat = .DIC ∧
      classify decTwo.codeContext (7#12).toNat = .KWK) := ⟨⟨dec2_inv, by decide⟩, decTwo_inv, by decide⟩

theorem witness_DecodingLeavesTheEncodeSideAlone : (∃ t, exec (.decByte 0x0B) decOne = .next t) ∧
    (∃ t, exec .decEnd decOne = .next t) ∧ (∃ t, exec (.lit 1) decOne = .next t) ∧
    (decTwo.prevV = true ∧ exec (.dic 6) decTwo = .next (answer (exec (.dic 6) decTwo))) ∧
    (decTwo.prevV = true ∧ ∃ t, exec (.kwk 7) decTwo = .next t) :=
  ⟨⟨_, rfl⟩, ⟨_, rfl⟩, ⟨_, rfl⟩, ⟨by decide, rfl⟩, by decide, _, rfl⟩

/-- The largest symbols that are legal for `r = 2`. -/
theorem legal_symbols : ∀ x ∈ ([0, 0, 0, 0, 3] : List (BitVec 12)), x.toNat < 2 ^ (2#4).toNat := by simp

theorem witness_EncodeFailsOnlyOnAnInvalidSymbol : (2 ≤ (2#4).toNat ∧ (2#4).toNat ≤ 10) ∧
    (∀ x ∈ ([0, 0, 0, 0, 3] : List (BitVec 12)), x.toNat < 2 ^ (2#4).toNat) ∧
    (∃ x ∈ ([0, 4] : List (BitVec 12)), 2 ^ (2#4).toNat ≤ x.toNat) ∧ ¬ (2 ≤ (1#4).toNat ∧ (1#4).toNat ≤ 10) ∧
    ¬ (2 ≤ (11#4).toNat ∧ (11#4).toNat ≤ 10) :=
  ⟨by decide, legal_symbols, ⟨4, by simp, by decide⟩, by decide, by decide⟩

theorem witness_DecodeIsTotal : (2 ≤ (10#4).toNat ∧ (10#4).toNat ≤ 10) ∧ ¬ (2 ≤ (11#4).toNat ∧ (11#4).toNat ≤ 10) := by decide

theorem witness_SessionBytesAreItsPackedPairs : 2 ≤ (2#4).toNat ∧ (2#4).toNat ≤ 10 ∧
    ∀ x ∈ ([0, 0, 0, 0, 3] : List (BitVec 12)), x.toNat < 2 ^ (2#4).toNat := ⟨by decide, by decide, legal_symbols⟩

theorem witness_EmptyInputIsAClearCodeAndEoi : 2 ≤ (2#4).toNat ∧ (10#4).toNat ≤ 10 := by decide

theorem witness_DecodeOfEncodeIsTheInput : 2 ≤ (2#4).toNat ∧ (2#4).toNat ≤ 10 ∧
    ∀ x ∈ ([0, 0, 0, 0, 3] : List (BitVec 12)), x.toNat < 2 ^ (2#4).toNat := ⟨by decide, by decide, legal_symbols⟩

end Sys2Proof.Tests
end

section
/-! PROOFS. 10_state: what a step can do, said once, and the statements about the reset state, the step's invariant, the
output streams and the status port. -/

namespace Sys2Proof.Machine

/-! ### What a command can do (30_encoding R67) -/

/-- The next states that a command from the port can answer in state `s`, with what dispatch has tested before each. -/
inductive CommandEffect (s : State) : State → Prop
  | ignored (h : s.state = .error ∨ s.state = .done ∧ s.mode = .dec) : CommandEffect s s
  | raised {e : ErrCode} {info : BitVec 16} (he : e ≠ .none) : CommandEffect s (raise e info s)
  | startEnc {r : BitVec 4} (hr : rootOk r.toNat) : CommandEffect s (startEncode r s)
  | startDec {r : BitVec 4} (hr : rootOk r.toNat) : CommandEffect s (beginStream .dec .decActive r s)
  | encSym {x : BitVec 12} (hs : s.state = .encActive) (hx : x.toNat < 2 ^ s.r) : CommandEffect s (encodeSymbol x s)
  | encEnd (hs : s.state = .encActive) : CommandEffect s (encodeEnd s)
  | decByte {b : Byte} {t : State} (hs : s.state = .decActive) (h : decodeByte b s = .next t) : CommandEffect s t

theorem unlessError_eq_next {k : State → Result} {s t : State} (h : unlessError k s = .next t) :
    s.state = .error ∧ t = s ∨ s.state ≠ .error ∧ k s = .next t := by
  by_cases he : s.state = .error
  · rw [unlessError_of_error he] at h
    cases h
    exact .inl ⟨he, rfl⟩
  · rw [unlessError_of_ne he] at h
    exact .inr ⟨he, h⟩

theorem illegalCommand_effect {cmd : CmdWord} {s t : State} (h : illegalCommand cmd s = .next t) : CommandEffect s t := by
  obtain ⟨he, rfl⟩ | ⟨-, h⟩ := unlessError_eq_next h
  · exact .ignored (.inl he)
  · cases h
    exact .raised (by simp)

/-- A START either begins its stream, which is `k`'s part, or raises INVALID_ROOT_SIZE. -/
theorem startCommand_effect {cmd : CmdWord} {r : BitVec 4} {k : State → Result} {s t : State}
    (hk : rootOk r.toNat → k s = .next t → CommandEffect s t) (h : startCommand cmd r k s = .next t) :
    CommandEffect s t := by
  by_cases hr : rootOk r.toNat
  · rw [startCommand_of_legal hr] at h
    exact hk hr h
  · rw [startCommand_of_illegal hr] at h
    cases h
    exact .raised (by simp)

/-- An encode command either runs, which is `k`'s part, or is ignored or raises ILLEGAL_COMMAND. -/
theorem encCommand_effect {cmd : CmdWord} {k : State → Result} {s t : State}
    (hk : s.state = .encActive → k s = .next t → CommandEffect s t) (h : encCommand cmd k s = .next t) :
    CommandEffect s t := by
  obtain ⟨he, rfl⟩ | ⟨he, -⟩ := unlessError_eq_next h
  · exact .ignored (.inl he)
  · by_cases ha : s.state = .encActive
    · rw [encCommand_of_active ha] at h
      exact hk ha h
    · rw [encCommand_of_other ha he] at h
      cases h
      exact .raised (by simp)

/-- A decode command either runs, which is `k`'s part, or is ignored or raises ILLEGAL_COMMAND. -/
theorem decCommand_effect {cmd : CmdWord} {k : State → Result} {s t : State}
    (hk : s.state = .decActive → k s = .next t → CommandEffect s t) (h : decCommand cmd k s = .next t) :
    CommandEffect s t := by
  obtain ⟨he, rfl⟩ | ⟨he, -⟩ := unlessError_eq_next h
  · exact .ignored (.inl he)
  · by_cases hd : s.state = .done ∧ s.mode = .dec
    · rw [decCommand_of_done hd.1 hd.2] at h
      cases h
      exact .ignored (.inr hd)
    · by_cases ha : s.state = .decActive
      · rw [decCommand_of_active ha] at h
        exact hk ha h
      · rw [decCommand_of_other ha he hd] at h
        cases h
        exact .raised (by simp)

theorem execStartEnc_effect {r : BitVec 4} {s t : State} (h : execStartEnc r s = .next t) : CommandEffect s t :=
  startCommand_effect (fun hr hk => by cases hk; exact .startEnc hr) h

theorem execStartDec_effect {r : BitVec 4} {s t : State} (h : execStartDec r s = .next t) : CommandEffect s t :=
  startCommand_effect (fun hr hk => by cases hk; exact .startDec hr) h

theorem execEncSym_effect {x : BitVec 12} {s t : State} (h : execEncSym x s = .next t) : CommandEffect s t := by
  refine encCommand_effect (fun ha hk => ?_) h
  split at hk
  · cases hk
    exact .encSym ha ‹_›
  · cases hk
    exact .raised (by simp)

theorem execEncEnd_effect {s t : State} (h : execEncEnd s = .next t) : CommandEffect s t :=
  encCommand_effect (fun ha hk => by cases hk; exact .encEnd ha) h

theorem execDecByte_effect {b : Byte} {s t : State} (h : execDecByte b s = .next t) : CommandEffect s t :=
  decCommand_effect .decByte h

theorem execDecEnd_effect {s t : State} (h : execDecEnd s = .next t) : CommandEffect s t :=
  decCommand_effect (fun _ hk => by cases hk; exact .raised (by simp)) h

/-- Every instruction of the command format does what a command can do. -/
theorem exec_effect {i : Instr} {s t : State} (hi : i.isCommand = true) (h : exec i s = .next t) : CommandEffect s t := by
  cases i with
  | startEnc r => exact execStartEnc_effect h
  | startDec r => exact execStartDec_effect h
  | encSym x => exact execEncSym_effect h
  | encEnd => exact execEncEnd_effect h
  | decByte b => exact execDecByte_effect h
  | decEnd => exact execDecEnd_effect h
  | reservedOp0 arg => exact illegalCommand_effect h
  | reservedOps op arg => exact illegalCommand_effect h
  | lit | clr | eoi | dic | kwk | bad | pair => cases hi

theorem runCommand_effect {w : CmdWord} {s t : State} (h : runCommand w s = .next t) : CommandEffect s t := by
  unfold runCommand at h
  split at h
  · exact exec_effect (isCommand_of_decodeCommand ‹_›) h
  · rename_i why hw
    cases why
    exact illegalCommand_effect h

/-- What a step can do: nothing with no event pending, the effect of a command, or hardware reset. -/
theorem step_cases {s t : State} (h : step s = .next t) :
    (s.input = [] ∧ t = s) ∨
    (∃ w rest, s.input = .command w :: rest ∧ CommandEffect { s with input := rest } t) ∨
    (∃ rest, s.input = .hardReset :: rest ∧ t = hardReset { s with input := rest }) := by
  unfold step takeEvent at h
  split at h
  · cases h
    exact .inl ⟨‹_›, rfl⟩
  · rename_i e rest hin
    cases e with
    | command w => exact .inr (.inl ⟨w, rest, hin, runCommand_effect h⟩)
    | hardReset =>
      cases h
      exact .inr (.inr ⟨rest, hin, rfl⟩)

/-! ### The invariant -/

/-- The host's pending events are no part of the invariant. -/
theorem State.Inv.setInput {s : State} (h : s.Inv) (rest : List HostEvent) : ({ s with input := rest } : State).Inv :=
  ⟨h.stream, h.record, h.empty, h.packer, h.unpacker, h.listed, h.entries, h.unique, h.encoder, h.decoder⟩

/-- START_ENC establishes the invariant: a fresh stream, and the Clear Code at `W0 ≤ 12`. -/
theorem inv_startEncode (s : State) {r : BitVec 4} (hr : rootOk r.toNat) : (startEncode r s).Inv := by
  refine inv_pack (inv_beginStream s hr (.inl ⟨rfl, rfl⟩)) _ ?_
  have := hr.2
  simp only [beginStream_w, initialWidth, Config.maxRoot] at *
  omega

theorem CommandEffect.inv {s t : State} (h : CommandEffect s t) (hs : s.Inv) : t.Inv := by
  cases h with
  | ignored => exact hs
  | raised he => exact inv_raise hs he _
  | startEnc hr => exact inv_startEncode s hr
  | startDec hr => exact inv_beginStream s hr (.inr ⟨rfl, rfl⟩)
  | encSym ha hx => exact inv_encodeSymbol hs ha hx
  | encEnd ha => exact inv_encodeEnd hs ha
  | decByte ha h =>
    obtain ⟨u, hu, hinv⟩ := inv_decodeByte hs ha _
    cases h.symm.trans hu
    exact hinv

/-- Settles O11, by the cases of a step. -/
theorem stepKeepsTheInvariant : Obligations.StepKeepsTheInvariant := by
  intro s t hs h
  obtain ⟨-, rfl⟩ | ⟨w, rest, -, hc⟩ | ⟨rest, -, rfl⟩ := step_cases h
  · exact hs
  · exact hc.inv (hs.setInput rest)
  · exact inv_hardReset _

/-- Settles O10: the reset state is what hardware reset makes of itself. -/
theorem resetMeetsTheInvariant : Obligations.ResetMeetsTheInvariant :=
  inv_hardReset State.reset

/-! ### What a code can do (43_decoder R117) -/

/-- The next states that code `c` can answer in state `s`. -/
inductive CodeEffect (c : Code) (s : State) : State → Prop
  | first (hp : s.prevV = false) : CodeEffect c s (decodeEmit [symOfCode c] c s)
  | run {f : Sym} {q : List Sym} (hp : s.prevV = true) :
      CodeEffect c s (decodeEmit (f :: q) c (decodeAdvance (dictWrite s.n ⟨s.prev, f⟩ s)))
  | clr : CodeEffect c s { streamReset s with prevV := false, prev := 0 }
  | eoi : CodeEffect c s { s with ub := ⟨0, 0⟩, state := .done }
  | corrupt : CodeEffect c s (raise .corruptCode (c.setWidth 16) s)

theorem decodeRun_effect {o : Option (List Sym)} {c : Code} {s t : State} (hp : s.prevV = true)
    (h : decodeRun o c s = .next t) : CodeEffect c s t := by
  obtain ⟨f, q, -, rfl⟩ := decodeRun_eq_next h
  exact .run hp

theorem corruptCode_effect {c : Code} {s t : State} (h : corruptCode c s = .next t) : CodeEffect c s t := by
  cases h
  exact .corrupt

theorem execLit_effect {c : Code} {s t : State} (h : execLit c s = .next t) : CodeEffect c s t := by
  unfold execLit at h
  split at h
  · exact decodeRun_effect ‹_› h
  · cases h
    exact .first (by simpa using ‹¬ s.prevV = true›)

theorem execDic_effect {c : Code} {s t : State} (h : execDic c s = .next t) : CodeEffect c s t := by
  unfold execDic at h
  split at h
  · exact decodeRun_effect ‹_› h
  · exact corruptCode_effect h

theorem execKwk_effect {c : Code} {s t : State} (h : execKwk c s = .next t) : CodeEffect c s t := by
  unfold execKwk at h
  split at h
  · exact decodeRun_effect ‹_› h
  · exact corruptCode_effect h

theorem decodeOne_effect {c : Code} {s t : State} (h : decodeOne c s = .next t) : CodeEffect c s t := by
  unfold decodeOne at h
  cases hc : classify s.codeContext c.toNat <;> rw [hc] at h
  case LIT => exact execLit_effect h
  case CLR => cases h; exact .clr
  case EOI => cases h; exact .eoi
  case DIC => exact execDic_effect h
  case KWK => exact execKwk_effect h
  case BAD => exact corruptCode_effect h

/-! ### The output streams (10_state R35) -/

/-- Both streams of `t` are those of `s` with more at the end. -/
def OutputGrows (s t : State) : Prop := s.byteOut <+: t.byteOut ∧ s.symOut <+: t.symOut

theorem outputGrows_of_eq {s t : State} (hb : t.byteOut = s.byteOut) (hs : t.symOut = s.symOut) : OutputGrows s t := by
  rw [OutputGrows, hb, hs]
  exact ⟨List.prefix_rfl, List.prefix_rfl⟩

theorem OutputGrows.trans {s t u : State} (h : OutputGrows s t) (h' : OutputGrows t u) : OutputGrows s u :=
  ⟨h.1.trans h'.1, h.2.trans h'.2⟩

/-- A code outputs symbols only. -/
theorem CodeEffect.outputGrows {c : Code} {s t : State} (h : CodeEffect c s t) : OutputGrows s t := by
  cases h with
  | first | run => simp [OutputGrows]
  | clr | eoi | corrupt => exact outputGrows_of_eq rfl rfl

theorem decodeLoop_outputGrows {fuel : Nat} {s t : State} (h : decodeLoop fuel s = .next t) : OutputGrows s t :=
  (decodeLoop_induct (P := OutputGrows s)
    (fun _ _ _ _ hm _ _ hc => hm.trans (decodeOne_effect hc).outputGrows) fuel s t (outputGrows_of_eq rfl rfl) h).1

/-- DEC_BYTE outputs what its loop outputs. -/
theorem decodeByte_outputGrows {b : Byte} {s t : State} (h : decodeByte b s = .next t) : OutputGrows s t :=
  decodeLoop_outputGrows (s := pushByte b s) h

/-! The encoder outputs no symbol. -/

@[simp] theorem encodeWidthStep_symOut (x : BitVec 12) (s : State) : (encodeWidthStep x s).symOut = s.symOut := by
  unfold encodeWidthStep
  split_ifs <;> simp [overflowReset]

@[simp] theorem encodeSymbol_symOut (x : BitVec 12) (s : State) : (encodeSymbol x s).symOut = s.symOut := by
  unfold encodeSymbol
  split
  · split <;> simp
  · simp

@[simp] theorem encodeEnd_symOut (s : State) : (encodeEnd s).symOut = s.symOut := by
  unfold encodeEnd
  dsimp only
  split <;> rfl

theorem CommandEffect.outputGrows {s t : State} (h : CommandEffect s t) : OutputGrows s t := by
  cases h with
  | ignored | raised | startDec => exact outputGrows_of_eq rfl rfl
  | startEnc => exact ⟨List.prefix_append _ _, List.prefix_rfl⟩
  | encSym =>
    rw [OutputGrows, encodeSymbol_symOut, (encodeSymbol_packs _ s).2]
    exact ⟨List.prefix_append _ _, List.prefix_rfl⟩
  | encEnd =>
    rw [OutputGrows, encodeEnd_symOut, (encodeEnd_packs s).2, List.append_assoc]
    exact ⟨List.prefix_append _ _, List.prefix_rfl⟩
  | decByte _ h => exact decodeByte_outputGrows h

/-- Settles O13, by the cases of a step: hardware reset keeps both streams, and a command appends. -/
theorem stepOnlyAddsToTheOutput : Obligations.StepOnlyAddsToTheOutput := by
  intro s t h
  obtain ⟨-, rfl⟩ | ⟨w, rest, -, hc⟩ | ⟨rest, -, rfl⟩ := step_cases h
  · exact outputGrows_of_eq rfl rfl
  · exact hc.outputGrows
  · exact outputGrows_of_eq rfl rfl

/-! ### The status port (10_state R27) -/

open Sys2Proof.Statements

theorem EngineState.bits_toNat (e : EngineState) : e.bits.toNat = stateNumber e := by cases e <;> rfl

theorem Mode.bits_toNat (m : Mode) : m.bits.toNat = modeNumber m := by cases m <;> rfl

theorem ErrCode.bits_toNat (e : ErrCode) : e.bits.toNat = errNumber e := by cases e <;> rfl

/-- The fields of a word as one sum: the field in front counts `2^n`, where `n` is the width of what follows. -/
theorem toNat_append_eq_add {m n : Nat} (x : BitVec m) (y : BitVec n) : (x ++ y).toNat = 2 ^ n * x.toNat + y.toNat := by
  rw [BitVec.toNat_append, ← Nat.shiftLeft_add_eq_or_of_lt y.isLt, Nat.shiftLeft_eq, Nat.mul_comm]

theorem status_toNat (s : State) :
    s.status.toNat = stateNumber s.state + 8 * modeNumber s.mode + 16 * s.root.toNat + 256 * errNumber s.err +
      4096 * (s.w % 16) + 65536 * (s.n % 8192) := by
  simp only [State.status, toNat_append_eq_add, BitVec.toNat_ofNat, EngineState.bits_toNat, Mode.bits_toNat,
    ErrCode.bits_toNat]
  omega

/-- The high half of the ERRINFO word is zero. -/
theorem errInfoWord_toNat (s : State) : s.errInfoWord.toNat = s.errInfo.toNat := by
  simp only [State.errInfoWord, toNat_append_eq_add, BitVec.toNat_ofNat]
  omega

theorem readStatus_of_two_le {s : State} {sel : Nat} (h : 2 ≤ sel) : s.readStatus sel = 0 := by
  obtain ⟨k, rfl⟩ := Nat.exists_eq_add_of_le' h
  rfl

theorem done_iff (s : State) : s.done = true ↔ s.state = .done := beq_iff_eq

theorem errLine_iff (s : State) : s.errLine = true ↔ s.state = .error := beq_iff_eq

theorem busy_iff (s : State) : s.busy = true ↔ s.state = .encActive ∨ s.state = .decActive := by
  simp [State.busy]

/-- Settles O9, field by field. -/
theorem statusWordsShowTheRegisters : Obligations.StatusWordsShowTheRegisters := fun s =>
  ⟨status_toNat s, errInfoWord_toNat s, fun _ => readStatus_of_two_le, done_iff s, errLine_iff s, busy_iff s⟩

end Sys2Proof.Machine
end

section
/-! PROOFS. 30_encoding: the fields of a command word, the decoder and the encoder of the three formats, and the statements
about them. -/

namespace Sys2Proof

open Sys2Proof.Machine Sys2Proof.Statements

/-! ### The fields of a command word (30_encoding R59, R61, R63) -/

@[simp] theorem opField_commandWord (op : BitVec 4) (arg : BitVec 12) : opField (commandWord op arg) = op :=
  BitVec.extractLsb'_append_eq_left

@[simp] theorem argField_commandWord (op : BitVec 4) (arg : BitVec 12) : argField (commandWord op arg) = arg :=
  BitVec.extractLsb'_append_eq_right

theorem commandWord_toNat (op : BitVec 4) (arg : BitVec 12) :
    (commandWord op arg).toNat = 4096 * op.toNat + arg.toNat :=
  toNat_append_eq_add op arg

theorem opOf_lt (w : CmdWord) : opOf w < 16 := Nat.div_lt_of_lt_mul w.isLt

theorem argOf_lt (w : CmdWord) : argOf w < 4096 := Nat.mod_lt _ (by decide)

theorem opOf_argOf (w : CmdWord) : 4096 * opOf w + argOf w = w.toNat := Nat.div_add_mod _ _

theorem commandWord_eq {op : BitVec 4} {arg : BitVec 12} {w : CmdWord} (hop : op.toNat = opOf w)
    (harg : arg.toNat = argOf w) : commandWord op arg = w := by
  apply BitVec.eq_of_toNat_eq
  rw [commandWord_toNat, hop, harg, opOf_argOf]

theorem opField_toNat (w : CmdWord) : (opField w).toNat = opOf w := by
  rw [opField, BitVec.extractLsb'_toNat, Nat.shiftRight_eq_div_pow]
  exact Nat.mod_eq_of_lt (opOf_lt w)

theorem argField_toNat (w : CmdWord) : (argField w).toNat = argOf w := rfl

theorem opField_eq (w : CmdWord) : opField w = BitVec.ofNat 4 (opOf w) := by
  rw [← opField_toNat, BitVec.ofNat_toNat, BitVec.setWidth_eq]

theorem argField_eq (w : CmdWord) : argField w = BitVec.ofNat 12 (argOf w) := by
  rw [← argField_toNat, BitVec.ofNat_toNat, BitVec.setWidth_eq]

theorem rootField_argField (w : CmdWord) : rootField (argField w) = BitVec.ofNat 4 (argOf w) := rfl

theorem byteField_argField (w : CmdWord) : byteField (argField w) = BitVec.ofNat 8 (argOf w) := rfl

/-! ### Reserved bits (30_encoding R66) -/

theorem extractLsb'_high_eq_zero_iff {m n : Nat} (arg : BitVec (n + m)) :
    arg.extractLsb' n m = 0 ↔ arg.toNat / 2 ^ n = 0 := by
  rw [← BitVec.toNat_inj, BitVec.extractLsb'_toNat, Nat.shiftRight_eq_div_pow, Nat.mod_eq_of_lt]
  · rfl
  · exact Nat.div_lt_of_lt_mul (Nat.pow_add 2 n m ▸ arg.isLt)

theorem startReserved_iff (w : CmdWord) : (argField w).extractLsb' 4 8 = 0 ↔ argOf w / 16 = 0 :=
  extractLsb'_high_eq_zero_iff (n := 4) (m := 8) _

theorem byteReserved_iff (w : CmdWord) : (argField w).extractLsb' 8 4 = 0 ↔ argOf w / 256 = 0 :=
  extractLsb'_high_eq_zero_iff (n := 8) (m := 4) _

theorem noArgument_iff (w : CmdWord) : argField w = 0 ↔ argOf w = 0 := by
  rw [← BitVec.toNat_inj, argField_toNat]
  rfl

/-! An operand below its reserved bits, as the encoder puts it (30_encoding R61, R63). -/

@[simp] theorem startOperand_toNat (r : BitVec 4) : (0#8 ++ r : BitVec 12).toNat = r.toNat := by
  rw [toNat_append_eq_add]
  simp

@[simp] theorem byteOperand_toNat (b : Byte) : (0#4 ++ b : BitVec 12).toNat = b.toNat := by
  rw [toNat_append_eq_add]
  simp

@[simp] theorem startReserved_operand (r : BitVec 4) : BitVec.extractLsb' 4 8 (0#8 ++ r : BitVec 12) = 0 :=
  BitVec.extractLsb'_append_eq_left

@[simp] theorem rootField_operand (r : BitVec 4) : rootField (0#8 ++ r) = r :=
  BitVec.extractLsb'_append_eq_right

@[simp] theorem byteReserved_operand (b : Byte) : BitVec.extractLsb' 8 4 (0#4 ++ b : BitVec 12) = 0 :=
  BitVec.extractLsb'_append_eq_left

@[simp] theorem byteField_operand (b : Byte) : byteField (0#4 ++ b) = b :=
  BitVec.extractLsb'_append_eq_right

/-! ### Commands (30_encoding R60) -/

/-- The word of a command does not depend on the context of the codes. -/
theorem encode_of_isCommand {i : Instr} (h : i.isCommand = true) (x : CodeContext) : encode x i = .command (cmdWordOf i) := by
  cases i with
  | startEnc | startDec | encSym | encEnd | decByte | decEnd | reservedOp0 | reservedOps => rfl
  | lit | clr | eoi | dic | kwk | bad | pair => cases h

/-- What the decoder can answer for word `w`, with what it has tested of the word's fields before each answer: one
constructor for each operation of 30_encoding R60 and R65, and one for each reserved field of R66. -/
inductive CommandDecoding (w : CmdWord) : Decoded → Prop
  | reservedOp0 (hop : opOf w = 0) : CommandDecoding w (.ok (.reservedOp0 (BitVec.ofNat 12 (argOf w))))
  | startEnc (hop : opOf w = 1) (harg : argOf w / 16 = 0) : CommandDecoding w (.ok (.startEnc (BitVec.ofNat 4 (argOf w))))
  | startDec (hop : opOf w = 2) (harg : argOf w / 16 = 0) : CommandDecoding w (.ok (.startDec (BitVec.ofNat 4 (argOf w))))
  | encSym (hop : opOf w = 3) : CommandDecoding w (.ok (.encSym (BitVec.ofNat 12 (argOf w))))
  | encEnd (hop : opOf w = 4) (harg : argOf w = 0) : CommandDecoding w (.ok .encEnd)
  | decByte (hop : opOf w = 5) (harg : argOf w / 256 = 0) : CommandDecoding w (.ok (.decByte (BitVec.ofNat 8 (argOf w))))
  | decEnd (hop : opOf w = 6) (harg : argOf w = 0) : CommandDecoding w (.ok .decEnd)
  | reservedOps (hop : 7 ≤ opOf w) :
      CommandDecoding w (.ok (.reservedOps (BitVec.ofNat 4 (opOf w)) (BitVec.ofNat 12 (argOf w))))
  | malformedStart (hop : opOf w = 1 ∨ opOf w = 2) (harg : argOf w / 16 ≠ 0) : CommandDecoding w (.rejected (.malformed w))
  | malformedEnd (hop : opOf w = 4 ∨ opOf w = 6) (harg : argOf w ≠ 0) : CommandDecoding w (.rejected (.malformed w))
  | malformedByte (hop : opOf w = 5) (harg : argOf w / 256 ≠ 0) : CommandDecoding w (.rejected (.malformed w))

theorem decodeCommand_cases (w : CmdWord) : CommandDecoding w (decodeCommand w) := by
  unfold decodeCommand
  simp only [opField_toNat, startReserved_iff, byteReserved_iff, noArgument_iff, rootField_argField, byteField_argField]
  rw [argField_eq, opField_eq]
  split
  case h_1 hop => exact .reservedOp0 hop
  case h_2 hop => split_ifs with harg; exacts [.startEnc hop harg, .malformedStart (.inl hop) harg]
  case h_3 hop => split_ifs with harg; exacts [.startDec hop harg, .malformedStart (.inr hop) harg]
  case h_4 hop => exact .encSym hop
  case h_5 hop => split_ifs with harg; exacts [.encEnd hop harg, .malformedEnd (.inl hop) harg]
  case h_6 hop => split_ifs with harg; exacts [.decByte hop harg, .malformedByte hop harg]
  case h_7 hop => split_ifs with harg; exacts [.decEnd hop harg, .malformedEnd (.inr hop) harg]
  case h_8 =>
    simp only [imp_false] at *
    exact .reservedOps (by omega)

theorem commandDecoding_of_eq {w : CmdWord} {d : Decoded} (h : decodeCommand w = d) : CommandDecoding w d :=
  h ▸ decodeCommand_cases w

theorem CommandDecoding.wellFormed {w : CmdWord} {i : Instr} (h : CommandDecoding w (.ok i)) (x : CodeContext) :
    i.wellFormed x = true := by
  cases h with
  | reservedOps hop =>
    rw [← opField_eq]
    simpa only [Instr.wellFormed, opField_toNat, decide_eq_true_eq]
  | reservedOp0 | startEnc | startDec | encSym | encEnd | decByte | decEnd => rfl

/-- The word of what was decoded has the operation and the argument of `w`: the operand is the argument's low bits, and
the reserved bits above it were tested to be zero. -/
theorem CommandDecoding.cmdWordOf_eq {w : CmdWord} {i : Instr} (h : CommandDecoding w (.ok i)) : cmdWordOf i = w := by
  have hop := opOf_lt w
  have harg := argOf_lt w
  cases h <;> refine commandWord_eq ?_ ?_ <;>
    simp only [startOperand_toNat, byteOperand_toNat, BitVec.toNat_ofNat] <;> omega

theorem decodeCommand_cmdWordOf {i : Instr} {x : CodeContext} (h : i.isCommand = true) (hw : i.wellFormed x = true) :
    decodeCommand (cmdWordOf i) = .ok i := by
  cases i with
  | startEnc | startDec | encSym | encEnd | decByte | decEnd | reservedOp0 => simp [cmdWordOf, encode, decodeCommand]
  | reservedOps op arg =>
    have h7 : 7 ≤ op.toNat := of_decide_eq_true hw
    simp only [cmdWordOf, encode, decodeCommand, opField_commandWord, argField_commandWord]
    split
    case h_8 => rfl
    all_goals omega
  | lit | clr | eoi | dic | kwk | bad | pair => cases h

theorem decodeCommand_rejected_iff (w : CmdWord) :
    decodeCommand w = .rejected (.malformed w) ↔
      ((opOf w = 1 ∨ opOf w = 2) ∧ argOf w / 16 ≠ 0) ∨ ((opOf w = 4 ∨ opOf w = 6) ∧ argOf w ≠ 0) ∨
        (opOf w = 5 ∧ argOf w / 256 ≠ 0) := by
  constructor
  · intro h
    cases commandDecoding_of_eq h with
    | malformedStart hop harg => exact .inl ⟨hop, harg⟩
    | malformedEnd hop harg => exact .inr (.inl ⟨hop, harg⟩)
    | malformedByte hop harg => exact .inr (.inr ⟨hop, harg⟩)
  · intro h
    cases hd : decodeCommand w with
    | ok i => cases commandDecoding_of_eq hd <;> omega
    | rejected why => rw [reject_of_decodeCommand hd]

/-! ### Code words and pairs (30_encoding R55, R57) -/

theorem decodeCode_of_classify {x : CodeContext} {c : Code} {k : CodeClass} (h : classify x c.toNat = k) :
    decodeCode x c = codeInstr k c := by
  rw [decodeCode, h]

theorem decode_code_of_classify {x : CodeContext} {c : Code} {k : CodeClass} (h : classify x c.toNat = k) :
    decode x (.code c) = .ok (codeInstr k c) :=
  congrArg Decoded.ok (decodeCode_of_classify h)

/-! The row of a class that carries its code has the range of the class (30_encoding R55). -/

theorem wellFormed_lit (x : CodeContext) (c : Code) : (Instr.lit c).wellFormed x = true ↔ classify x c.toNat = .LIT :=
  decide_eq_true_iff.trans classify_lit.symm

theorem wellFormed_dic (x : CodeContext) (c : Code) : (Instr.dic c).wellFormed x = true ↔ classify x c.toNat = .DIC :=
  decide_eq_true_iff.trans classify_dic.symm

/-- At `c = N` the bound `min(N, 4096) ≤ c` of the class is met. -/
theorem wellFormed_kwk (x : CodeContext) (c : Code) : (Instr.kwk c).wellFormed x = true ↔ classify x c.toNat = .KWK := by
  rw [classify_kwk, Instr.wellFormed, Bool.and_eq_true, decide_eq_true_iff]
  constructor
  · rintro ⟨⟨hf, hn⟩, hp⟩
    exact ⟨hf, hn ▸ Nat.min_le_left _ _, hn, hp⟩
  · rintro ⟨hf, -, hn, hp⟩
    exact ⟨⟨hf, hn⟩, hp⟩

theorem wellFormed_bad (x : CodeContext) (c : Code) : (Instr.bad c).wellFormed x = true ↔ classify x c.toNat = .BAD :=
  decide_eq_true_iff.trans classify_bad.symm

theorem wellFormed_decodeCode {x : CodeContext} (h : rootOk x.r) (c : Code) : (decodeCode x c).wellFormed x = true := by
  cases hk : classify x c.toNat <;> rw [decodeCode_of_classify hk]
  case LIT => exact (wellFormed_lit x c).mpr hk
  case CLR | EOI => exact decide_eq_true h
  case DIC => exact (wellFormed_dic x c).mpr hk
  case KWK => exact (wellFormed_kwk x c).mpr hk
  case BAD => exact (wellFormed_bad x c).mpr hk

theorem encode_decodeCode (x : CodeContext) (c : Code) : encode x (decodeCode x c) = .code c := by
  cases hk : classify x c.toNat <;> rw [decodeCode_of_classify hk]
  case CLR => rw [codeInstr, encode, ← classify_clr.mp hk, BitVec.ofNat_toNat, BitVec.setWidth_eq]
  case EOI => rw [codeInstr, encode, ← classify_eoi.mp hk, BitVec.ofNat_toNat, BitVec.setWidth_eq]
  case LIT | DIC | KWK | BAD => rfl

theorem decodePair_append (width : BitVec 4) (code : Code) : decodePair (width ++ code) = .pair width code := by
  rw [decodePair, BitVec.extractLsb'_append_eq_left, BitVec.extractLsb'_append_eq_right]

/-! ### The statements about the encodings -/

/-- Settles O1: a command by its fields, a code by its class, a pair by its two fields. -/
theorem decodeOfEncodeReturnsInstruction : Obligations.DecodeOfEncodeReturnsInstruction := by
  intro x i hw
  cases i with
  | startEnc | startDec | encSym | encEnd | decByte | decEnd | reservedOp0 | reservedOps =>
    rw [encode_of_isCommand rfl, decode, decodeCommand_cmdWordOf rfl hw]
  | lit c => exact decode_code_of_classify ((wellFormed_lit x c).mp hw)
  | clr => exact decode_code_of_classify (classify_clr.mpr (Laws.TableRow.clr x hw))
  | eoi => exact decode_code_of_classify (classify_eoi.mpr (Laws.TableRow.eoi x hw))
  | dic c => exact decode_code_of_classify ((wellFormed_dic x c).mp hw)
  | kwk c => exact decode_code_of_classify ((wellFormed_kwk x c).mp hw)
  | bad c => exact decode_code_of_classify ((wellFormed_bad x c).mp hw)
  | pair width code => exact congrArg Decoded.ok (decodePair_append width code)

/-- Settles O2, by the decoder's cases. -/
theorem commandWordIsTheWordOfItsInstruction : Obligations.CommandWordIsTheWordOfItsInstruction := by
  intro w i h x
  refine ⟨(commandDecoding_of_eq h).wellFormed x, ?_⟩
  rw [encode_of_isCommand (isCommand_of_decodeCommand h), (commandDecoding_of_eq h).cmdWordOf_eq]

/-- Settles O5: another instruction of the code would be decoded from it too (O1). -/
theorem everyCodeIsExactlyOneInstruction : Obligations.EveryCodeIsExactlyOneInstruction := by
  intro x c hr
  refine ⟨wellFormed_decodeCode hr c, encode_decodeCode x c, fun i hw he => ?_⟩
  have h := decodeOfEncodeReturnsInstruction x i hw
  rw [he] at h
  exact (Decoded.ok.inj h).symm

/-- Settles O4: the words are closed terms. -/
theorem writtenOutWordsDecode : Obligations.WrittenOutWordsDecode := by
  unfold Obligations.WrittenOutWordsDecode
  decide

end Sys2Proof
end

section
/-! PROOFS. 30_encoding R65 to R67: what a command word does, the branches of the dispatch procedure, and the statements
about them. -/

namespace Sys2Proof.Machine

open Sys2Proof.Statements

/-! ### From the command port to the effect -/

theorem runCommand_of_ok {w : CmdWord} {i : Instr} (h : decodeCommand w = .ok i) (s : State) :
    runCommand w s = exec i s := by
  rw [runCommand, h]

theorem runCommand_of_rejected {w : CmdWord} (h : decodeCommand w = .rejected (.malformed w)) (s : State) :
    runCommand w s = illegalCommand w s := by
  rw [runCommand, h]
  rfl

theorem illegalCommand_of_error {w : CmdWord} {s : State} (h : s.state = .error) : illegalCommand w s = .next s :=
  unlessError_of_error h

/-- Settles O3: the decoder's rejects, and what a rejected word does. -/
theorem reservedArgumentBitsMakeACommandMalformed : Obligations.ReservedArgumentBitsMakeACommandMalformed := fun w =>
  ⟨decodeCommand_rejected_iff w, fun h s => runCommand_of_rejected h s⟩

/-- The step with a command pending runs it with the rest of the events left. -/
theorem step_of_command {s : State} {w : CmdWord} {rest : List HostEvent} (h : s.input = .command w :: rest) :
    step s = runCommand w { s with input := rest } := by
  rw [step, takeEvent, h]
  rfl

/-- Settles O6, by the host's next event. -/
theorem stepRunsTheDecodedCommand : Obligations.StepRunsTheDecodedCommand := by
  intro s
  refine ⟨fun w rest i hin hd => ?_, fun w rest hin hd => ?_, fun rest hin => ?_, fun hin => ?_⟩
  · rw [step_of_command hin, runCommand_of_ok hd]
  · rw [step_of_command hin, runCommand_of_rejected hd]
    rfl
  · rw [step, takeEvent, hin]
    rfl
  · rw [step, takeEvent, hin]

/-! ### The branches of the procedure (30_encoding R67) -/

section Dispatch

variable {w : CmdWord} (s : State)

theorem dispatch_of_not_wf (h : ¬ commandWf w) : dispatch w s = illegalCommand w s := by
  have hs : ¬ isStart w := fun hs => h (.inl hs)
  simp only [dispatch, hs, h, not_false_eq_true, and_true, if_true, illegalCommand, unlessError, ignored]

theorem dispatch_of_start (h : isStart w) :
    dispatch w s = startCommand w (BitVec.ofNat 4 (argOf w)) (fun s => .next
      (if opOf w = 1 then startEncode (BitVec.ofNat 4 (argOf w)) s
        else beginStream .dec .decActive (BitVec.ofNat 4 (argOf w)) s)) s := by
  rw [dispatch, if_neg fun he => he.2 h, if_neg fun hwf => hwf (.inl h), if_pos h.1]
  have hroot : rootOk (BitVec.ofNat 4 (argOf w)).toNat ↔ ¬ (argOf w % 16 < 2 ∨ 10 < argOf w % 16) := by
    simp only [BitVec.toNat_ofNat, rootOk, Config.minRoot, Config.maxRoot]
    omega
  by_cases hr : argOf w % 16 < 2 ∨ 10 < argOf w % 16
  · rw [if_pos hr, startCommand_of_illegal (fun h => hroot.mp h hr)]
  · rw [if_neg hr, startCommand_of_legal (hroot.mpr hr)]
    split <;> rfl

theorem dispatch_of_enc (h : opOf w = 3 ∨ opOf w = 4 ∧ argOf w = 0) :
    dispatch w s = encCommand w (fun s =>
      if opOf w = 3 then
        if 2 ^ s.r ≤ argOf w then .next (raise .invalidSymbol (BitVec.ofNat 16 (argOf w)) s)
        else .next (encodeSymbol (BitVec.ofNat 12 (argOf w)) s)
      else .next (encodeEnd s)) s := by
  have hst : ¬ (opOf w = 1 ∨ opOf w = 2) := by omega
  have hop : opOf w = 3 ∨ opOf w = 4 := by omega
  have hwf : commandWf w := by omega
  simp only [dispatch, isStart, encCommand, unlessError, hst, hop, hwf, false_and, not_false_eq_true, and_true, not_true,
    if_false, if_true, ite_not, ignored]

theorem dispatch_of_dec (h : opOf w = 5 ∧ argOf w / 256 = 0 ∨ opOf w = 6 ∧ argOf w = 0) :
    dispatch w s = decCommand w (fun s =>
      if opOf w = 5 then decodeByte (BitVec.ofNat 8 (argOf w)) s
      else .next (raise .truncatedStream (BitVec.ofNat 16 s.ub.n) s)) s := by
  have hst : ¬ (opOf w = 1 ∨ opOf w = 2) := by omega
  have hop : ¬ (opOf w = 3 ∨ opOf w = 4) := by omega
  have hwf : commandWf w := by omega
  simp only [dispatch, isStart, decCommand, unlessError, hst, hop, hwf, false_and, not_false_eq_true, and_true, not_true,
    if_false, ite_not, ignored]

end Dispatch

/-- An instruction that the decoder reads from a word does what the procedure does with the word. -/
theorem exec_eq_dispatch {w : CmdWord} {i : Instr} (h : CommandDecoding w (.ok i)) (s : State) :
    exec i s = dispatch w s := by
  have hw := h.cmdWordOf_eq
  cases h with
  | reservedOp0 hop =>
    rw [dispatch_of_not_wf s (by omega)]
    exact congrArg (illegalCommand · s) hw
  | reservedOps hop =>
    rw [dispatch_of_not_wf s (by omega)]
    exact congrArg (illegalCommand · s) hw
  | startEnc hop harg =>
    rw [dispatch_of_start s ⟨.inl hop, harg⟩]
    simp only [exec, execStartEnc, hw, hop, if_true]
  | startDec hop harg =>
    rw [dispatch_of_start s ⟨.inr hop, harg⟩]
    simp only [exec, execStartDec, hw, hop, OfNat.ofNat_ne_one, if_false]
  | encSym hop =>
    rw [dispatch_of_enc s (.inl hop)]
    have hx : (BitVec.ofNat 12 (argOf w)).toNat = argOf w := by rw [← argField_eq, argField_toNat]
    have hinfo : (BitVec.ofNat 12 (argOf w)).setWidth 16 = BitVec.ofNat 16 (argOf w) := by
      rw [← BitVec.ofNat_toNat, hx]
    simp only [exec, execEncSym, hw, hop, if_true, hx, hinfo, ← not_lt, ite_not]
  | encEnd hop harg =>
    rw [dispatch_of_enc s (.inr ⟨hop, harg⟩)]
    simp [exec, execEncEnd, hw, hop]
  | decByte hop harg =>
    rw [dispatch_of_dec s (.inl ⟨hop, harg⟩)]
    simp only [exec, execDecByte, hw, hop, if_true]
  | decEnd hop harg =>
    rw [dispatch_of_dec s (.inr ⟨hop, harg⟩)]
    simp [exec, execDecEnd, hw, hop]

/-- Settles O7: a word that decodes runs as its instruction, and any other is malformed. -/
theorem everyCommandFollowsTheDispatchProcedure : Obligations.EveryCommandFollowsTheDispatchProcedure := by
  intro w s
  cases hd : decodeCommand w with
  | ok i => rw [runCommand_of_ok hd, exec_eq_dispatch (commandDecoding_of_eq hd)]
  | rejected why =>
    cases reject_of_decodeCommand hd
    have hr := (decodeCommand_rejected_iff w).mp hd
    rw [runCommand_of_rejected hd, dispatch_of_not_wf s (by omega)]

/-! ### The reserved operations (30_encoding R65) -/

theorem commandWord_eq_ofNat (op : BitVec 4) (arg : BitVec 12) :
    commandWord op arg = BitVec.ofNat 16 (op.toNat * 4096 + arg.toNat) := by
  rw [Nat.mul_comm, ← commandWord_toNat, BitVec.ofNat_toNat, BitVec.setWidth_eq]

theorem cmdWordOf_reservedOps (op : BitVec 4) (arg : BitVec 12) :
    cmdWordOf (.reservedOps op arg) = BitVec.ofNat 16 (op.toNat * 4096 + arg.toNat) :=
  commandWord_eq_ofNat op arg

theorem cmdWordOf_reservedOp0 (arg : BitVec 12) : cmdWordOf (.reservedOp0 arg) = BitVec.ofNat 16 arg.toNat :=
  (commandWord_eq_ofNat 0 arg).trans (by simp)

/-- Settles O14: both rows are ILLEGAL_COMMAND with their word. -/
theorem reservedOperationsRaiseIllegalCommand : Obligations.ReservedOperationsRaiseIllegalCommand := by
  intro s
  refine ⟨fun h => ⟨fun arg => ?_, fun op arg => ?_⟩, fun h => ⟨fun arg => ?_, fun op arg => ?_⟩⟩
  · rw [← cmdWordOf_reservedOp0]
    exact illegalCommand_of_ne h
  · rw [← cmdWordOf_reservedOps]
    exact illegalCommand_of_ne h
  · exact illegalCommand_of_error h
  · exact illegalCommand_of_error h

end Sys2Proof.Machine
end

section
/-! PROOFS. 40_bit_channel: the packer's and the unpacker's operations, the stream of the packer as a number, the
unpacker's reads of it, and the statements about them. -/

namespace Sys2Proof.Machine

/-! ### One operation (40_bit_channel R75, R76, R79, R80) -/

theorem Packer.split_length (p : Packer) : p.split.2.length = if 8 < p.n then 1 else 0 := by
  rw [Packer.split]
  split <;> rfl

theorem Packer.split_n (p : Packer) : p.split.1.n = if 8 < p.n then p.n - 8 else p.n := by
  rw [Packer.split]
  split <;> rfl

theorem Packer.spill_length (p : Packer) : p.spill.2.length = if 8 ≤ p.n then 1 else 0 := by
  rw [Packer.spill]
  split
  · rw [if_pos (by omega)]
    rfl
  · split
    · rw [if_pos (by omega)]
      rfl
    · rw [if_neg (by omega)]
      rfl

/-- Each of the two branches of `Pack` lets one byte leave (40_bit_channel R75). -/
theorem Packer.pack_length (c : Nat) (v : Code) (p : Packer) :
    (p.pack c v).2.length = (if 8 < p.n then 1 else 0) +
      (if 8 ≤ (if 8 < p.n then p.n - 8 else p.n) + c then 1 else 0) := by
  rw [← Packer.split_n, ← Packer.split_length, Packer.pack, List.length_append, Packer.spill_length]
  rfl

/-- Settles O22, by `pack_spec` and the number of bytes of each branch. -/
theorem pairGoesAboveTheOpenBits : Obligations.PairGoesAboveTheOpenBits := by
  intro s width code hp _ hw
  obtain ⟨hok, -, hn, hv⟩ := Packer.pack_spec code hp hw
  exact ⟨_, _, rfl, hok, Packer.pack_length width.toNat code s.pk, hn, hv⟩

/-- Settles O23: up to 12 open bits are `⌈PK_N/8⌉` bytes. -/
theorem flushEmitsEveryOpenBit : Obligations.FlushEmitsEveryOpenBit := by
  intro s ⟨hn, ha⟩
  obtain ⟨-, hlen, hv⟩ := Packer.flush_spec ha
  refine ⟨s.pk.flush.2, rfl, ?_, hv⟩
  rw [hlen]
  split_ifs <;> omega

theorem Unpacker.pushByte_getLsbD_of_lt {u : Unpacker} (b : Byte) {k : Nat} (hk : k < u.n) :
    (u.pushByte b).buf.getLsbD k = u.buf.getLsbD k := by
  simp [Unpacker.pushByte, hk]

/-- The byte's bits stand where the buffer has no bit yet. -/
theorem Unpacker.pushByte_getLsbD_add {u : Unpacker} (b : Byte) {k : Nat} (hn : u.n ≤ 11)
    (ha : u.buf.toNat < 2 ^ u.n) (hk : k < 8) : (u.pushByte b).buf.getLsbD (u.n + k) = b.getLsbD k := by
  have hold : u.buf.getLsbD (u.n + k) = false :=
    Nat.testBit_lt_two_pow (ha.trans_le (Nat.pow_le_pow_right Nat.two_pos (Nat.le_add_right _ _)))
  have h19 : u.n + k < 19 ∧ k < 19 := by omega
  rw [Unpacker.pushByte, BitVec.getLsbD_or, hold]
  simp [h19]

/-- Settles O24, bit by bit; the bound is `pushByte_spec`'s. -/
theorem pushByteAppendsAboveTheBufferedBits : Obligations.PushByteAppendsAboveTheBufferedBits := by
  intro u b hn ha
  obtain ⟨hpn, -, -, hlt⟩ := Unpacker.pushByte_spec b hn ha
  exact ⟨hpn, fun _ => Unpacker.pushByte_getLsbD_of_lt b, fun _ => Unpacker.pushByte_getLsbD_add b hn ha, hpn ▸ hlt⟩

theorem Unpacker.exists_read_of_le {u : Unpacker} {w : Nat} (h : w ≤ u.n) : ∃ c v, u.read w = some (c, v) := by
  cases hr : u.read w with
  | none => exact absurd ((Unpacker.read_eq_none_iff u w).mp hr) (by omega)
  | some cv => exact ⟨cv.1, cv.2, rfl⟩

/-- Settles O25: `read_eq_none_iff` below `w` bits, `read_spec` otherwise. -/
theorem unpackReadTakesTheOldestBits : Obligations.UnpackReadTakesTheOldestBits := by
  intro u w hw
  refine ⟨(Unpacker.read_eq_none_iff u w).mpr, fun h => ?_⟩
  obtain ⟨c, v, hr⟩ := Unpacker.exists_read_of_le h
  obtain ⟨-, hvn, hc, hvb⟩ := Unpacker.read_spec hw hr
  exact ⟨c, v, hr, hc, hvb, hvn⟩

/-! ### The packer on a list of pairs (40_bit_channel R77) -/

/-- Pairs packed into open bits: no bit is lost, and the codes follow those bits at their positions. -/
theorem packAll_spec {ps : List (Nat × Code)} (hps : pairsLegal ps) {p : Packer} (hp : p.ok) :
    (packAll ps p).1.ok ∧ 8 * (packAll ps p).2.length + (packAll ps p).1.n = p.n + pairsWidth ps ∧
      bytesValue (packAll ps p).2 + 2 ^ (8 * (packAll ps p).2.length) * (packAll ps p).1.acc.toNat =
        p.acc.toNat + 2 ^ p.n * pairsValue ps := by
  induction ps generalizing p with
  | nil => exact ⟨hp, by simp [packAll, pairsWidth], by simp [packAll, pairsValue]⟩
  | cons a ps ih =>
    obtain ⟨⟨-, hw, hv⟩, hps⟩ := List.forall_mem_cons.mp hps
    obtain ⟨hq, -, hqn, hqv⟩ := Packer.pack_spec a.2 hp hw
    rw [Nat.mod_eq_of_lt hv] at hqv
    obtain ⟨hz, hzn, hzv⟩ := ih hps hq
    simp only [packAll, pairsWidth, pairsValue, List.length_append, bytesValue_append]
    set q := p.pack a.1 a.2
    set z := packAll ps q.1
    refine ⟨hz, by omega, ?_⟩
    calc bytesValue q.2 + 2 ^ (8 * q.2.length) * bytesValue z.2 + 2 ^ (8 * (q.2.length + z.2.length)) * z.1.acc.toNat
      _ = bytesValue q.2 + 2 ^ (8 * q.2.length) * (bytesValue z.2 + 2 ^ (8 * z.2.length) * z.1.acc.toNat) := by ring
      _ = (bytesValue q.2 + 2 ^ (8 * q.2.length) * q.1.acc.toNat) + 2 ^ (8 * q.2.length + q.1.n) * pairsValue ps := by
        rw [hzv]
        ring
      _ = p.acc.toNat + 2 ^ p.n * (a.2.toNat + 2 ^ a.1 * pairsValue ps) := by
        rw [hqv, hqn]
        ring

theorem pairsValue_lt {ps : List (Nat × Code)} (hps : pairsLegal ps) : pairsValue ps < 2 ^ pairsWidth ps := by
  induction ps with
  | nil => exact Nat.one_pos
  | cons a ps ih =>
    obtain ⟨⟨-, -, hv⟩, hps⟩ := List.forall_mem_cons.mp hps
    calc a.2.toNat + 2 ^ a.1 * pairsValue ps
      _ < 2 ^ a.1 * (pairsValue ps + 1) := by rw [Nat.mul_succ]; omega
      _ ≤ 2 ^ a.1 * 2 ^ pairsWidth ps := Nat.mul_le_mul_left _ (ih hps)
      _ = 2 ^ pairsWidth (a :: ps) := (pow_add _ _ _).symm

/-- Packed and flushed, the pairs are `⌈T/8⌉` bytes of value `V` (40_bit_channel R77). -/
theorem packAll_flush_spec {ps : List (Nat × Code)} (hps : pairsLegal ps) :
    bytesValue ((packAll ps ⟨0, 0⟩).2 ++ (packAll ps ⟨0, 0⟩).1.flush.2) = pairsValue ps ∧
      ((packAll ps ⟨0, 0⟩).2 ++ (packAll ps ⟨0, 0⟩).1.flush.2).length = (pairsWidth ps + 7) / 8 := by
  obtain ⟨⟨-, hlt⟩, hn, hv⟩ := packAll_spec hps (p := ⟨0, 0⟩) (by decide)
  obtain ⟨-, hfn, hfv⟩ := Packer.flush_spec hlt
  dsimp only at hn
  constructor
  · rw [bytesValue_append, hfv, hv]
    simp
  · rw [List.length_append, hfn]
    omega

/-- Settles O26: `packAll_spec` from the empty packer, and its flush. -/
theorem packerOutputIsTheLittleEndianStream : Obligations.PackerOutputIsTheLittleEndianStream := by
  intro ps hps
  obtain ⟨⟨-, hlt⟩, hn, hv⟩ := packAll_spec hps (p := ⟨0, 0⟩) (by decide)
  obtain ⟨hfv, hfn⟩ := packAll_flush_spec hps
  exact ⟨by simpa using hn, hlt, by simpa using hv, hfv, hfn, pairsValue_lt hps⟩

/-! ### The unpacker on a stream of bytes (40_bit_channel R85) -/

/-- The stream still to be read, as a number: the buffered bits, and above them the bytes not yet pushed. -/
def Unpacker.streamValue (u : Unpacker) (bs : List Byte) : Nat := u.buf.toNat + 2 ^ u.n * bytesValue bs

/-- The number of bits still to be read. -/
def Unpacker.streamWidth (u : Unpacker) (bs : List Byte) : Nat := u.n + 8 * bs.length

/-- A push moves a byte from the input into the buffer. -/
theorem Unpacker.stream_pushByte {u : Unpacker} (b : Byte) (bs : List Byte) (hn : u.n ≤ 11)
    (ha : u.buf.toNat < 2 ^ u.n) :
    (u.pushByte b).streamValue bs = u.streamValue (b :: bs) ∧ (u.pushByte b).streamWidth bs = u.streamWidth (b :: bs) := by
  obtain ⟨hpn, hpv, -⟩ := Unpacker.pushByte_spec b hn ha
  simp only [Unpacker.streamValue, Unpacker.streamWidth, hpn, hpv, bytesValue, List.length_cons]
  exact ⟨by ring, by omega⟩

/-- A read takes the code off the low end of the stream. -/
theorem Unpacker.stream_read {u v : Unpacker} {w : Nat} {c : Code} (hw : w ≤ 12) (h : u.read w = some (c, v))
    (bs : List Byte) :
    c.toNat < 2 ^ w ∧ c.toNat + 2 ^ w * v.streamValue bs = u.streamValue bs ∧ w + v.streamWidth bs = u.streamWidth bs := by
  obtain ⟨hle, hvn, hc, hvb⟩ := Unpacker.read_spec hw h
  refine ⟨hc ▸ Nat.mod_lt _ (Nat.two_pow_pos w), ?_, by simp only [Unpacker.streamWidth, hvn]; omega⟩
  have hbuf : c.toNat + 2 ^ w * v.buf.toNat = u.buf.toNat := by rw [hc, hvb, Nat.mod_add_div]
  calc c.toNat + 2 ^ w * v.streamValue bs
    _ = (c.toNat + 2 ^ w * v.buf.toNat) + 2 ^ (w + v.n) * bytesValue bs := by rw [Unpacker.streamValue]; ring
    _ = u.streamValue bs := by rw [hbuf, hvn, Nat.add_sub_cancel' hle, Unpacker.streamValue]

theorem readNext_of_read {u v : Unpacker} {w : Nat} {c : Code} (h : u.read w = some (c, v)) (bs : List Byte) :
    readNext w bs u = some (c, bs, v) := by
  unfold readNext
  simp only [h]

theorem readNext_cons_of_lt {u : Unpacker} {w : Nat} (h : u.n < w) (b : Byte) (bs : List Byte) :
    readNext w (b :: bs) u = readNext w bs (u.pushByte b) := by
  rw [readNext.eq_def]
  simp only [(Unpacker.read_eq_none_iff u w).mpr h]

/-- With `w` bits left in the stream, the next code is its lowest `w` bits, and the rest stays. Bytes are pushed only
below `w ≤ 12` bits, so the buffer holds them. -/
theorem readNext_spec {w : Nat} (hw : w ≤ 12) {bs : List Byte} {u : Unpacker} (hu : u.ok) (hl : w ≤ u.streamWidth bs) :
    ∃ c rest v, readNext w bs u = some (c, rest, v) ∧ v.ok ∧ c.toNat < 2 ^ w ∧
      c.toNat + 2 ^ w * v.streamValue rest = u.streamValue bs ∧ w + v.streamWidth rest = u.streamWidth bs := by
  induction bs generalizing u with
  | nil =>
    obtain ⟨c, v, hr⟩ := Unpacker.exists_read_of_le (u := u) (w := w) (by simpa [Unpacker.streamWidth] using hl)
    exact ⟨c, [], v, readNext_of_read hr [], Unpacker.read_ok hw hu hr, Unpacker.stream_read hw hr []⟩
  | cons b bs ih =>
    by_cases h : w ≤ u.n
    · obtain ⟨c, v, hr⟩ := Unpacker.exists_read_of_le h
      exact ⟨c, b :: bs, v, readNext_of_read hr _, Unpacker.read_ok hw hu hr, Unpacker.stream_read hw hr _⟩
    · have hn : u.n ≤ 11 := by omega
      obtain ⟨hsv, hsw⟩ := Unpacker.stream_pushByte b bs hn hu.2
      rw [readNext_cons_of_lt (by omega), ← hsv, ← hsw]
      exact ih (Unpacker.pushByte_spec b hn hu.2).2.2 (by omega)

/-- Digits at a base are unique: the low part and the high part of a sum are those of another. -/
theorem low_high_unique {b a c m n : Nat} (ha : a < b) (hc : c < b) (h : a + b * m = c + b * n) : a = c ∧ m = n := by
  have hb : 0 < b := Nat.zero_lt_of_lt ha
  obtain ⟨hm, ha'⟩ := (Nat.div_mod_unique hb).mpr ⟨h, ha⟩
  obtain ⟨hn, hc'⟩ := (Nat.div_mod_unique hb).mpr ⟨rfl, hc⟩
  exact ⟨ha'.symm.trans hc', hm.symm.trans hn⟩

/-- A stream that is the value of legal pairs, with fewer than 8 bits to spare, is read as their codes, and all its bytes
are used. -/
theorem readAll_of_streamValue {ps : List (Nat × Code)} (hps : pairsLegal ps) {bs : List Byte} {u : Unpacker} (hu : u.ok)
    (hv : u.streamValue bs = pairsValue ps) (hlo : pairsWidth ps ≤ u.streamWidth bs)
    (hhi : u.streamWidth bs ≤ pairsWidth ps + 7) :
    ∃ v : Unpacker, readAll (ps.map Prod.fst) bs u = some (ps.map Prod.snd, [], v) ∧ v.n ≤ 7 ∧ v.buf = 0 := by
  induction ps generalizing bs u with
  | nil =>
    simp only [Unpacker.streamWidth, pairsWidth] at hhi
    obtain rfl : bs = [] := List.length_eq_zero_iff.mp (by omega)
    refine ⟨u, rfl, by omega, BitVec.eq_of_toNat_eq ?_⟩
    simpa [Unpacker.streamValue, pairsValue] using hv
  | cons a ps ih =>
    obtain ⟨⟨-, hw, ha⟩, hps⟩ := List.forall_mem_cons.mp hps
    rw [pairsWidth] at hlo hhi
    rw [pairsValue] at hv
    obtain ⟨c, rest, v, hr, hvok, hc, hcv, hcw⟩ := readNext_spec (bs := bs) hw hu (by omega)
    obtain ⟨hca, hvv⟩ := low_high_unique hc ha (hcv.trans hv)
    obtain ⟨t, ht, hfin⟩ := ih hps hvok hvv (by omega) (by omega)
    refine ⟨t, ?_, hfin⟩
    rw [List.map_cons, List.map_cons, readAll, hr, BitVec.eq_of_toNat_eq hca]
    simp only [ht]

/-- Settles O27: the bytes of the packer are a stream of value `V` and of `8 * ⌈T/8⌉` bits. -/
theorem unpackerReadsBackWhatThePackerWrote : Obligations.UnpackerReadsBackWhatThePackerWrote := by
  intro ps hps
  obtain ⟨hfv, hfn⟩ := packAll_flush_spec hps
  exact readAll_of_streamValue hps (u := ⟨0, 0⟩) (by decide) (by simpa [Unpacker.streamValue] using hfv)
    (by rw [Unpacker.streamWidth, hfn]; omega) (by rw [Unpacker.streamWidth, hfn]; dsimp only; omega)

end Sys2Proof.Machine
end

section
/-! PROOFS. 41_dictionary: the dictionary's write and search, the sequence that a code denotes, the completion of every
step, and the statements about them. -/

namespace Sys2Proof.Machine

open Sys2Proof.Statements

/-! ### The write (41_dictionary R92) -/

theorem dictWrite_of_codes_le {i : Nat} (h : Config.codes ≤ i) (e : DictEntry) (s : State) : dictWrite i e s = s :=
  if_neg (not_lt.mpr h)

theorem dictWrite_of_lt {i : Nat} (h : i < Config.codes) (e : DictEntry) (s : State) :
    dictWrite i e s = { s with dict := s.dict.insert i e } :=
  if_pos h

/-- Settles O28: below 4096 the write is the map's insertion, and from 4096 it is nothing. -/
theorem dictWriteWritesOneEntry : Obligations.DictWriteWritesOneEntry := by
  intro s i e
  by_cases hi : i < 4096
  · rw [dictWrite_of_lt hi]
    exact ⟨fun _ => Dict.read_insert s.dict i e, fun h => by omega, rfl, fun hw => Dict.insert_wf e hw hi⟩
  · rw [dictWrite_of_codes_le (not_lt.mp hi)]
    exact ⟨fun h => by omega, fun _ => rfl, rfl, id⟩

/-! ### The map and the search (41_dictionary R91, R94) -/

theorem Dict.wf.nodup {d : Dict} (h : d.wf) : (d.map Prod.fst).Nodup :=
  (List.pairwise_map.mpr h.1).imp ne_of_lt

/-- With unique keys an entry stands at one code only. -/
theorem State.keysUnique.code_unique {s : State} (hu : s.keysUnique) {i j : Nat} {e : DictEntry} (hi : (i, e) ∈ s.dict)
    (hj : (j, e) ∈ s.dict) : i = j :=
  congrArg Prod.fst (List.inj_on_of_nodup_map hu hi hj rfl)

/-- With unique keys the search answers `k` exactly when `k` is in range and holds the key. -/
theorem State.camSearch_eq_some_iff {s : State} (hw : s.dict.wf) (hu : s.keysUnique) {p : Code} {x : Sym} {k : Code} :
    s.camSearch p x = some k ↔
      firstCode s.r ≤ k.toNat ∧ k.toNat < s.n ∧ s.dict.read k.toNat = some ⟨p, x⟩ := by
  constructor
  · intro h
    obtain ⟨hf, hn, hm⟩ := State.camSearch_some hw h
    exact ⟨hf, hn, Dict.read_of_mem hw.nodup hm⟩
  · rintro ⟨hf, hn, hrd⟩
    have hm := Dict.mem_of_read hrd
    cases h : s.camSearch p x with
    | none => exact absurd ⟨hf, hn, rfl⟩ (State.camSearch_none.mp h _ hm)
    | some j =>
      obtain ⟨-, -, hj⟩ := State.camSearch_some hw h
      rw [BitVec.eq_of_toNat_eq (hu.code_unique hj hm)]

/-- Settles O31, by the search's one hit, and by the branch of the lookup on `CUR_V`. -/
theorem camSearchFindsThePresentEntry : Obligations.CamSearchFindsThePresentEntry := by
  intro s hw hu
  refine ⟨fun p x k => State.camSearch_eq_some_iff hw hu, fun x hc => ?_, fun x hc => ?_⟩
  · rw [State.lookupByPrefix, hc]
    rfl
  · rw [State.lookupByPrefix, hc, BitVec.ofNat_toNat]
    rfl

/-! ### The sequence that a code denotes (41_dictionary R89) -/

/-- Code `c` denotes `q`, by the two rules of 41_dictionary R89: a literal its symbol, and a present code its prefix's
sequence and its suffix. -/
inductive State.HasSeq (s : State) : Code → List Sym → Prop
  | literal {c : Code} (hc : c.toNat < clrCode s.r) : State.HasSeq s c [symOfCode c]
  | entry {c : Code} {e : DictEntry} {q : List Sym} (hc : s.present c.toNat) (hrd : s.dict.read c.toNat = some e)
      (hp : State.HasSeq s e.prefixCode q) : State.HasSeq s c (q ++ [e.suffix])

section Seq

variable {s : State} {c : Code} {q : List Sym}

theorem State.HasSeq.seq_eq (he : s.entriesLegal) (h : s.HasSeq c q) : s.seq c = some q := by
  induction h with
  | literal hc => exact State.seq_literal hc
  | entry hc hrd _ ih => rw [State.seq_present he hc hrd, ih, Option.map_some]

/-- The function `seq` and the rules of R89 agree: with prefixes below their codes, every chain that `seq` follows ends at a
literal (41_dictionary R88). -/
theorem State.seq_eq_some_iff (hl : s.dictListsPresent) (he : s.entriesLegal) : s.seq c = some q ↔ s.HasSeq c q := by
  refine ⟨fun h => ?_, State.HasSeq.seq_eq he⟩
  generalize hk : c.toNat = k
  induction k using Nat.strong_induction_on generalizing c q with
  | _ k ih =>
    subst hk
    by_cases hlit : c.toNat < clrCode s.r
    · cases (State.seq_literal hlit).symm.trans h
      exact .literal hlit
    · by_cases hpr : s.present c.toNat
      · obtain ⟨e, hrd⟩ := Option.isSome_iff_exists.mp ((hl.isSome_iff _).mpr hpr)
        rw [State.seq_present he hpr hrd] at h
        obtain ⟨q', hq', rfl⟩ := Option.map_eq_some_iff.mp h
        exact .entry hpr hrd (ih _ (he _ (Dict.mem_of_read hrd)).1 hq' rfl)
      · cases (State.seq_absent hlit hpr).symm.trans h

theorem State.HasSeq.ne_nil (h : s.HasSeq c q) : q ≠ [] := by
  cases h with
  | literal => exact List.cons_ne_nil _ _
  | entry => exact List.concat_ne_nil _ _

/-- Only a literal denotes a single symbol. -/
theorem State.HasSeq.literal_of_singleton {x : Sym} (h : s.HasSeq c [x]) : c.toNat < clrCode s.r ∧ symOfCode c = x := by
  generalize hz : [x] = z at h
  cases h with
  | literal hc => exact ⟨hc, (List.singleton_inj.mp hz).symm⟩
  | entry _ _ hp =>
    obtain ⟨hnil, -⟩ := List.append_inj' (s₁ := []) hz rfl
    exact absurd hnil.symm hp.ne_nil

/-- Only a present code denotes a sequence and one symbol more, and its entry is that symbol after a code
that denotes the sequence. -/
theorem State.HasSeq.entry_of_concat {x : Sym} (h : s.HasSeq c (q ++ [x])) (hq : q ≠ []) :
    s.present c.toNat ∧ ∃ p, s.dict.read c.toNat = some ⟨p, x⟩ ∧ s.HasSeq p q := by
  generalize hz : q ++ [x] = z at h
  cases h with
  | literal =>
    obtain ⟨hnil, -⟩ := List.append_inj' (s₂ := []) hz rfl
    exact absurd hnil hq
  | entry hc hrd hp =>
    obtain ⟨rfl, hs⟩ := List.append_inj' hz rfl
    cases hs
    exact ⟨hc, _, hrd, hp⟩

/-- The length bound of 41_dictionary R96, for literals and present codes alike: prefixes descend, and from one code of a
chain to the next there is one symbol more. -/
theorem State.HasSeq.length_le (he : s.entriesLegal) (h : s.HasSeq c q) :
    q.length + firstCode s.r ≤ max (c.toNat + 2) (firstCode s.r + 1) := by
  induction h with
  | literal => rw [List.length_singleton]; omega
  | @entry c e _ hc hrd _ ih =>
    have hlt : e.prefixCode.toNat < c.toNat := (he _ (Dict.mem_of_read hrd)).1
    have hf := hc.1
    rw [List.length_append, List.length_singleton]
    omega

/-- With unique keys, distinct codes denote distinct sequences (41_dictionary R94): equal sequences are of equal prefixes
and suffixes, so of equal entries. -/
theorem State.HasSeq.code_unique (hr : clrCode s.r ≤ 1024) (hu : s.keysUnique) (h : s.HasSeq c q) {d : Code}
    (hd : s.HasSeq d q) : c = d := by
  induction h generalizing d with
  | literal hc =>
    obtain ⟨hd, hsym⟩ := hd.literal_of_singleton
    have hsym := congrArg BitVec.toNat hsym
    simp only [symOfCode, BitVec.toNat_setWidth] at hsym
    exact BitVec.eq_of_toNat_eq (by omega)
  | entry _ hrd hp ih =>
    obtain ⟨-, p, hrd', hp'⟩ := hd.entry_of_concat hp.ne_nil
    obtain rfl := ih hp'
    exact BitVec.eq_of_toNat_eq (hu.code_unique (Dict.mem_of_read hrd) (Dict.mem_of_read hrd'))

end Seq

/-- Settles O29: a literal, a present code, whose prefix denotes a sequence, and any other code. -/
theorem sequenceOfACode : Obligations.SequenceOfACode := by
  intro s c hl he
  refine ⟨fun hlit => ?_, fun hf hn => ?_, fun hlit hpr => State.seq_absent (not_lt.mpr hlit) hpr⟩
  · rw [BitVec.ofNat_toNat]
    exact State.seq_literal hlit
  · have hpr : s.present c.toNat := ⟨hf, hn⟩
    obtain ⟨e, hrd⟩ := Option.isSome_iff_exists.mp ((hl.isSome_iff _).mpr hpr)
    obtain ⟨f, q, hq⟩ := State.seq_nonempty hl he (State.entriesLegal.prefix_denotes hl he (Dict.mem_of_read hrd))
    exact ⟨e, f :: q, hrd, hq, by rw [State.seq_present he hpr hrd, hq, Option.map_some]⟩

/-- Settles O30, by the bound on the chain of prefixes; a present code is at most 4095, and `FIRST` at least 6. -/
theorem sequenceLengthIsBounded : Obligations.SequenceLengthIsBounded := by
  intro s c q hr hl he h
  have hlen := ((State.seq_eq_some_iff hl he).mp h).length_le he
  have hroot := (two_pow_root_bounds hr).1
  have hc := c.isLt
  refine ⟨fun hlit => ?_, fun ⟨hf, _⟩ => by omega, ?_⟩
  · cases (State.seq_literal hlit).symm.trans h
    rfl
  · unfold firstCode at hlen
    omega

/-! ### The two views of the table (41_dictionary R94, R97) -/

/-- The Clear Code is at most 1024 in every state of the invariant, before the first START too. -/
theorem State.Inv.clrCode_le {s : State} (h : s.Inv) : clrCode s.r ≤ 1024 := by
  obtain ⟨hroot, -⟩ | ⟨hroot, -⟩ := h.stream
  · simp [clrCode, State.r, hroot]
  · exact (two_pow_root_bounds hroot).2

theorem State.Inv.seq_eq_some_iff {s : State} (h : s.Inv) {c : Code} {q : List Sym} : s.seq c = some q ↔ s.HasSeq c q :=
  State.seq_eq_some_iff h.listed h.entries

theorem State.Inv.hasSeq_code_unique {s : State} (h : s.Inv) (hm : s.mode = .enc) {c d : Code} {q : List Sym}
    (hc : s.HasSeq c q) (hd : s.HasSeq d q) : c = d :=
  hc.code_unique h.clrCode_le (h.unique hm) hd

/-- Settles O32: an entry stands at one code, and so a sequence is denoted by one code. -/
theorem encodeDictionaryHasUniqueEntries : Obligations.EncodeDictionaryHasUniqueEntries := fun _ h hm =>
  ⟨fun _ _ _ hi hj => (h.unique hm).code_unique (Dict.mem_of_read hi) (Dict.mem_of_read hj),
    fun _ _ _ hc hd => h.hasSeq_code_unique hm (h.seq_eq_some_iff.mp hc) (h.seq_eq_some_iff.mp hd)⟩

/-- Settles O33: the code that the search answers denotes the candidate, and the code that denotes the candidate holds the
key, because no other prefix denotes `q`. -/
theorem searchFindsTheCodeOfTheCandidate : Obligations.SearchFindsTheCodeOfTheCandidate := by
  intro s p k x q h hm _ hp
  rw [h.seq_eq_some_iff] at hp
  rw [State.camSearch_eq_some_iff h.listed.wf (h.unique hm), h.seq_eq_some_iff]
  constructor
  · rintro ⟨hf, hn, hrd⟩
    exact .entry ⟨hf, lt_min hn k.isLt⟩ hrd hp
  · intro hk
    obtain ⟨⟨hf, hn⟩, p', hrd, hp'⟩ := hk.entry_of_concat hp.ne_nil
    obtain rfl := h.hasSeq_code_unique hm hp' hp
    exact ⟨hf, lt_of_lt_of_le hn (min_le_left _ _), hrd⟩

/-! ### Completion -/

/-- Of the branches of 30_encoding R67 only the one that runs the loop of DEC_BYTE could stop, and under the invariant it
does not (43_decoder R116). -/
theorem runCommand_completes {s : State} (h : s.Inv) (w : CmdWord) : ∃ t, runCommand w s = .next t := by
  rw [everyCommandFollowsTheDispatchProcedure]
  unfold dispatch
  split_ifs
  any_goals exact ⟨_, rfl⟩
  case pos hs _ =>
    obtain ⟨t, ht, -⟩ := inv_decodeByte h (not_not.mp hs) (BitVec.ofNat 8 (argOf w))
    exact ⟨t, ht⟩

/-- Settles O12, by the host's next event: a step is nothing, a command or hardware reset. -/
theorem stepCompletesUnderTheInvariant : Obligations.StepCompletesUnderTheInvariant := by
  intro s h
  obtain ⟨-, -, hreset, hnone⟩ := stepRunsTheDecodedCommand s
  cases hin : s.input with
  | nil => exact ⟨s, hnone hin⟩
  | cons e rest =>
    cases e with
    | command w =>
      rw [step_of_command hin]
      exact runCommand_completes (h.setInput rest) w
    | hardReset => exact ⟨_, hreset rest hin⟩

end Sys2Proof.Machine
end

section
/-! PROOFS. 42_encoder: the encode commands case by case, the codes they emit, the bytes of a session, and the statements
about them. -/

namespace Sys2Proof.Machine

open Sys2Proof.Statements

/-! ### The encode commands in the state that accepts them (30_encoding R67) -/

theorem exec_startEnc_of_legal {r : BitVec 4} (hr : rootOk r.toNat) (s : State) :
    exec (.startEnc r) s = .next (startEncode r s) := by
  rw [exec, execStartEnc, startCommand_of_legal hr]

theorem exec_encSym_of_legal {s : State} {x : BitVec 12} (hs : s.state = .encActive) (hx : x.toNat < 2 ^ s.r) :
    exec (.encSym x) s = .next (encodeSymbol x s) := by
  rw [exec, execEncSym, encCommand_of_active hs, if_pos hx]

theorem exec_encEnd_of_active {s : State} (hs : s.state = .encActive) : exec .encEnd s = .next (encodeEnd s) := by
  rw [exec, execEncEnd, encCommand_of_active hs]

theorem encCommand_eq_next {cmd : CmdWord} {k : State → Result} {s t : State} (h : encCommand cmd k s = .next t) :
    t = s ∨ s.state ≠ .error ∧ t = raise .illegalCommand cmd s ∨ s.state = .encActive ∧ k s = .next t := by
  obtain ⟨-, rfl⟩ | ⟨he, -⟩ := unlessError_eq_next h
  · exact .inl rfl
  · by_cases ha : s.state = .encActive
    · rw [encCommand_of_active ha] at h
      exact .inr (.inr ⟨ha, h⟩)
    · rw [encCommand_of_other ha he] at h
      exact .inr (.inl ⟨he, (Host.Outcome.next.inj h).symm⟩)

/-- What ENC_SYM answers: the state as it was, an error, or steps S1 to S5. -/
theorem encSym_cases {x : BitVec 12} {s t : State} (h : exec (.encSym x) s = .next t) :
    t = s ∨ s.state ≠ .error ∧ (∃ e info, t = raise e info s) ∨
      s.state = .encActive ∧ x.toNat < 2 ^ s.r ∧ t = encodeSymbol x s := by
  rw [exec, execEncSym] at h
  obtain rfl | ⟨he, rfl⟩ | ⟨ha, hk⟩ := encCommand_eq_next h
  · exact .inl rfl
  · exact .inr (.inl ⟨he, _, _, rfl⟩)
  · split at hk
    · cases hk
      exact .inr (.inr ⟨ha, ‹_›, rfl⟩)
    · cases hk
      exact .inr (.inl ⟨by simp [ha], _, _, rfl⟩)

/-- What ENC_END answers: the state as it was, an error, or the end of the session. -/
theorem encEnd_cases {s t : State} (h : exec .encEnd s = .next t) :
    t = s ∨ s.state ≠ .error ∧ (∃ e info, t = raise e info s) ∨ s.state = .encActive ∧ t = encodeEnd s := by
  rw [exec, execEncEnd] at h
  obtain rfl | ⟨he, rfl⟩ | ⟨ha, hk⟩ := encCommand_eq_next h
  · exact .inl rfl
  · exact .inr (.inl ⟨he, _, _, rfl⟩)
  · exact .inr (.inr ⟨ha, (Host.Outcome.next.inj hk).symm⟩)

/-! ### ENC_SYM and ENC_END case by case (42_encoder R102 to R109) -/

section Steps

variable {x : BitVec 12} {s : State}

theorem encodeSymbol_of_empty (hc : s.curV = false) : encodeSymbol x s = { s with cur := x, curV := true } := by
  rw [encodeSymbol, hc]
  rfl

theorem encodeSymbol_of_hit (hc : s.curV = true) {k : Code} (hk : s.camSearch s.cur (symOperand x) = some k) :
    encodeSymbol x s = { s with cur := k } := by
  rw [encodeSymbol, if_pos hc, hk]

theorem encodeSymbol_of_miss (hc : s.curV = true) (hk : s.camSearch s.cur (symOperand x) = none) :
    encodeSymbol x s = encodeWidthStep x (encodeMiss x s) := by
  rw [encodeSymbol, if_pos hc, hk]

variable (x s)

/-- Step S3. -/
theorem encodeMiss_eq : encodeMiss x s =
    { s with pk := (s.pk.pack s.w s.cur).1, byteOut := s.byteOut ++ (s.pk.pack s.w s.cur).2,
             dict := (dictWrite s.n ⟨s.cur, symOperand x⟩ s).dict, cur := x, n := s.n + 1 } := by
  unfold encodeMiss
  by_cases h : s.n < Config.codes
  · simp only [pack_n, dictWrite_of_lt h]
    rfl
  · simp only [pack_n, dictWrite_of_codes_le (not_lt.mp h)]
    rfl

/-- Step S5. -/
theorem overflowReset_eq : overflowReset x s =
    { s with pk := (s.pk.pack 12 s.clr).1, byteOut := s.byteOut ++ (s.pk.pack 12 s.clr).2,
             n := firstCode s.r, w := initialWidth s.r, dict := [], cur := x, curV := true } := rfl

variable {s}

/-- Step S4 where the table is not full. -/
theorem encodeWidthStep_of_room (h : ¬ (s.n = 2 ^ s.w ∧ s.w = 12)) :
    encodeWidthStep x s = { s with w := if s.n = 2 ^ s.w then s.w + 1 else s.w } := by
  rw [encodeWidthStep]
  split
  · rw [if_neg (by simp only [Config.maxw]; omega)]
  · rfl

/-- Step S4 where the table is full: a width of 13 is a reset instead. -/
theorem encodeWidthStep_of_full (hn : s.n = 2 ^ s.w) (hw : s.w = 12) : encodeWidthStep x s = overflowReset x s := by
  rw [encodeWidthStep, if_pos hn, if_pos (by rw [hw])]

/-- ENC_END, whole. -/
theorem encodeEnd_eq (s : State) : encodeEnd s =
    { s with pk := ⟨0, 0⟩, w := s.eoiWidth, state := .done,
             byteOut := s.byteOut ++ (packAll s.finalPairs s.pk).2 ++ (packAll s.finalPairs s.pk).1.flush.2 } := by
  rw [← (encodeEnd_packs s).2]
  unfold encodeEnd
  split <;> rfl

end Steps

/-! ### What ENC_SYM leaves alone (42_encoder R101) -/

/-- ENC_SYM writes the encoder's registers and the byte stream only. -/
theorem encodeSymbol_frame (x : BitVec 12) (s : State) : ∃ w n cur d,
    encodeSymbol x s = { s with w := w, n := n, curV := true, cur := cur, pk := (encodeSymbol x s).pk, dict := d,
                                byteOut := (encodeSymbol x s).byteOut } := by
  cases hc : s.curV with
  | false => rw [encodeSymbol_of_empty hc]; exact ⟨_, _, _, _, rfl⟩
  | true =>
    rw [← hc]
    cases hk : s.camSearch s.cur (symOperand x) with
    | some k => rw [encodeSymbol_of_hit hc hk]; exact ⟨_, _, _, _, rfl⟩
    | none =>
      rw [encodeSymbol_of_miss hc hk]
      by_cases h : (encodeMiss x s).n = 2 ^ (encodeMiss x s).w ∧ (encodeMiss x s).w = 12
      · rw [encodeWidthStep_of_full x h.1 h.2, overflowReset_eq, encodeMiss_eq, hc]
        exact ⟨_, _, _, _, rfl⟩
      · rw [encodeWidthStep_of_room x h, encodeMiss_eq]
        exact ⟨_, _, _, _, rfl⟩

theorem encodeSymbol_state (x : BitVec 12) (s : State) : (encodeSymbol x s).state = s.state := by
  obtain ⟨_, _, _, _, h⟩ := encodeSymbol_frame x s
  rw [h]

theorem encodeSymbol_r (x : BitVec 12) (s : State) : (encodeSymbol x s).r = s.r := by
  obtain ⟨_, _, _, _, h⟩ := encodeSymbol_frame x s
  rw [h, State.r, State.r]

theorem encodeSymbol_curV (x : BitVec 12) (s : State) : (encodeSymbol x s).curV = true := by
  obtain ⟨_, _, _, _, h⟩ := encodeSymbol_frame x s
  rw [h]

theorem decoderSideKept_refl (s : State) : decoderSideKept s s :=
  ⟨rfl, rfl, rfl, rfl, rfl, rfl, rfl, List.prefix_rfl⟩

/-- Settles O42: ENC_SYM writes what its frame lists, ENC_END what `encodeEnd_eq` lists, and an error only STATE and the
record. -/
theorem encodeCommandsLeaveTheDecodeSideAlone : Obligations.EncodeCommandsLeaveTheDecodeSideAlone := by
  intro s t
  refine ⟨fun x h => ?_, fun h => ?_⟩
  · obtain rfl | ⟨he, e, info, rfl⟩ | ⟨ha, -, rfl⟩ := encSym_cases h
    · exact ⟨decoderSideKept_refl _, .inl ⟨rfl, rfl⟩, .inl rfl, fun _ => ⟨rfl, rfl, rfl, rfl, rfl, rfl, rfl⟩⟩
    · exact ⟨decoderSideKept_refl s, .inr ⟨he, rfl⟩, .inr rfl, fun _ => ⟨rfl, rfl, rfl, rfl, rfl, rfl, rfl⟩⟩
    · obtain ⟨_, _, _, _, hf⟩ := encodeSymbol_frame x s
      rw [hf, (encodeSymbol_packs x s).2]
      exact ⟨⟨rfl, rfl, rfl, rfl, rfl, rfl, rfl, List.prefix_append _ _⟩, .inl ⟨rfl, rfl⟩, .inl rfl,
        fun h => nomatch ha.symm.trans h⟩
  · obtain rfl | ⟨he, e, info, rfl⟩ | ⟨-, rfl⟩ := encEnd_cases h
    · exact ⟨decoderSideKept_refl _, .inl ⟨rfl, rfl⟩, rfl, rfl, rfl, rfl, fun _ => ⟨rfl, rfl, rfl⟩⟩
    · exact ⟨decoderSideKept_refl s, .inr ⟨he, rfl⟩, rfl, rfl, rfl, rfl, fun _ => ⟨rfl, rfl, rfl⟩⟩
    · rw [encodeEnd_eq, List.append_assoc]
      exact ⟨⟨rfl, rfl, rfl, rfl, rfl, rfl, rfl, List.prefix_append _ _⟩, .inl ⟨rfl, rfl⟩, rfl, rfl, rfl, rfl,
        (nomatch ·)⟩

/-! ### START_ENC (42_encoder R100) -/

theorem cmdWordOf_startEnc (r : BitVec 4) : cmdWordOf (.startEnc r) = BitVec.ofNat 16 (0x1000 + r.toNat) :=
  (commandWord_eq_ofNat 0x1#4 _).trans (by rw [startOperand_toNat]; rfl)

/-- Settles O34: START_ENC writes every register of the stream, and the Clear Code goes into an empty packer. -/
theorem startEncBeginsAnEncodeSession : Obligations.StartEncBeginsAnEncodeSession := by
  intro s r h2 h10
  rw [← cmdWordOf_startEnc]
  have hm : r.toNat ∈ List.range' 2 9 := List.mem_range'_1.mpr ⟨h2, by omega⟩
  obtain ⟨hok, hlen, hn, hv⟩ := startBits_of_pack _ hm
  simp only [initialWidth, Nat.reduceLeDiff] at hlen
  have hdecode : decodeCommand (cmdWordOf (.startEnc r)) = .ok (.startEnc r) :=
    decodeCommand_cmdWordOf (x := ⟨0, 0, false⟩) rfl rfl
  exact ⟨hdecode, _, _, exec_startEnc_of_legal ⟨h2, h10⟩ s, hok, hlen, hn, hv⟩

/-! ### ENC_SYM (42_encoder R102 to R106) -/

theorem symOperand_eq (x : BitVec 12) : symOperand x = BitVec.ofNat 10 x.toNat :=
  (BitVec.ofNat_toNat 10 x).symm

/-- Where the map lists the present codes, the search misses exactly when no entry holds the key. -/
theorem State.dictListsPresent.camSearch_eq_none_iff {s : State} (hl : s.dictListsPresent) {p : Code} {x : Sym} :
    s.camSearch p x = none ↔ ∀ j, s.dict.read j ≠ some ⟨p, x⟩ := by
  rw [State.camSearch_none]
  constructor
  · intro h j hrd
    have hm := Dict.mem_of_read hrd
    obtain ⟨hf, hn⟩ := hl.bounds hm
    exact h _ hm ⟨hf, lt_of_lt_of_le hn (min_le_left _ _), rfl⟩
  · rintro h ⟨j, e⟩ he ⟨-, -, rfl⟩
    exact h j ((hl.read_iff j _).mpr he)

/-- While the encoder runs, the table fills up exactly at width 12 (10_state R31). -/
theorem State.Inv.full_iff {s : State} (h : s.Inv) (hs : s.state = .encActive) :
    s.n + 1 = 4096 ↔ s.n + 1 = 2 ^ s.w ∧ s.w = 12 := by
  obtain ⟨-, -, -, hlt, -, -⟩ := h.encoder hs
  obtain ⟨-, -, hw, -, -⟩ := h.active (.inl hs)
  refine ⟨fun hn => ?_, fun ⟨hn, hw⟩ => by rw [hn, hw]; rfl⟩
  have h12 : s.w = 12 := by
    by_contra hne
    have : 2 ^ s.w ≤ 2 ^ 11 := Nat.pow_le_pow_right Nat.two_pos (by omega)
    omega
  exact ⟨by rw [hn, h12]; rfl, h12⟩

/-- Settles O35: an empty `current` is step S1. -/
theorem firstSymbolFillsCurrent : Obligations.FirstSymbolFillsCurrent := by
  intro s x hs hx hc
  rw [exec_encSym_of_legal hs hx, encodeSymbol_of_empty hc]

/-- Settles O36: keys are unique while the encoder runs, so the entry that holds the key is the search's hit. -/
theorem knownCandidateBecomesCurrent : Obligations.KnownCandidateBecomesCurrent := by
  intro s x k h hs hx hc hrd
  obtain ⟨hm, -⟩ := h.encoder hs
  obtain ⟨hf, hn⟩ := h.listed.bounds (Dict.mem_of_read hrd)
  have hk : s.camSearch s.cur (symOperand x) = some k := by
    rw [State.camSearch_eq_some_iff h.listed.wf (h.unique hm), symOperand_eq]
    exact ⟨hf, lt_of_lt_of_le hn (min_le_left _ _), hrd⟩
  rw [exec_encSym_of_legal hs hx, encodeSymbol_of_hit hc hk]

/-- On a miss ENC_SYM is steps S3 and S4. -/
theorem exec_encSym_of_miss {s : State} {x : BitVec 12} (h : s.Inv) (hs : s.state = .encActive)
    (hx : x.toNat < 2 ^ s.r) (hc : s.curV = true) (hm : ∀ j, s.dict.read j ≠ some ⟨s.cur, BitVec.ofNat 10 x.toNat⟩) :
    exec (.encSym x) s = .next (encodeWidthStep x (encodeMiss x s)) := by
  rw [← symOperand_eq, ← h.listed.camSearch_eq_none_iff] at hm
  rw [exec_encSym_of_legal hs hx, encodeSymbol_of_miss hc hm]

/-- Settles O37: with room left, step S4 is the width update alone. -/
theorem missEmitsInsertsAndAdvances : Obligations.MissEmitsInsertsAndAdvances := by
  intro s x h hs hx hc hm hn
  have hroom : ¬ ((encodeMiss x s).n = 2 ^ (encodeMiss x s).w ∧ (encodeMiss x s).w = 12) := by
    rwa [encodeMiss_n, encodeMiss_w, ← h.full_iff hs]
  obtain ⟨-, hlt, -⟩ := h.encoder hs
  rw [exec_encSym_of_miss h hs hx hc hm, encodeWidthStep_of_room x hroom, encodeMiss_eq, dictWrite_of_lt hlt]
  refine ⟨_, rfl, fun j => ?_⟩
  rw [Dict.read_insert, symOperand_eq]

/-- Settles O38: a full table is at width 12, where step S4 is step S5. -/
theorem overflowEmitsAClearCodeAndRestarts : Obligations.OverflowEmitsAClearCodeAndRestarts := by
  intro s x h hs hx hc hm hn
  obtain ⟨hpow, hw⟩ := (h.full_iff hs).mp hn
  refine ⟨hw, ?_⟩
  have hpow' : (encodeMiss x s).n = 2 ^ (encodeMiss x s).w := by rw [encodeMiss_n, encodeMiss_w, hpow]
  rw [exec_encSym_of_miss h hs hx hc hm, encodeWidthStep_of_full x hpow' (by rw [encodeMiss_w, hw]), overflowReset_eq,
    encodeMiss_eq]
  simp only [packAll, List.append_nil, hw, List.append_assoc]
  rfl

/-! ### ENC_END (42_encoder R107 to R109) -/

/-- Settles O39: the pairs that ENC_END packs are its final pairs. -/
theorem encEndEmitsTheFinalCodesAndFlushes : Obligations.EncEndEmitsTheFinalCodesAndFlushes := by
  intro s hs
  rw [exec_encEnd_of_active hs, encodeEnd_eq]
  rfl

/-! ### The codes that the encoder emits (42_encoder R110) -/

/-- What the invariant says of the codes and widths that the encoder emits with. -/
theorem State.Inv.emitted_bounds {s : State} (h : s.Inv) (hs : s.state = .encActive) :
    (s.curV = true → s.cur.toNat < 2 ^ s.w) ∧ clrCode s.r < 2 ^ s.w ∧ eoiCode s.r < 2 ^ s.eoiWidth ∧
      1 ≤ s.w ∧ s.w ≤ s.eoiWidth ∧ s.eoiWidth ≤ 12 := by
  obtain ⟨-, -, -, hlt, hcur, -⟩ := h.encoder hs
  obtain ⟨-, hw0, hw, hf, -⟩ := h.active (.inl hs)
  simp only [initialWidth, firstCode] at hw0 hf
  have hle : s.w ≤ s.eoiWidth ∧ s.eoiWidth ≤ 12 := by
    rw [State.eoiWidth, Config.maxw]
    split <;> omega
  have hpow : 2 ^ s.w ≤ 2 ^ s.eoiWidth := Nat.pow_le_pow_right Nat.two_pos hle.1
  refine ⟨fun hc => lt_trans (hcur hc).1 hlt, ?_, ?_, by omega, hle⟩
  · rw [clrCode]; omega
  · rw [eoiCode]; omega

/-- A code that can be `current` is a literal or present (42_encoder R110, log 20). -/
theorem State.runCode.decodeCode_eq {s : State} {c : Code} (h : s.runCode c) (prevV : Bool) :
    decodeCode ⟨s.r, s.n, prevV⟩ c = .lit c ∨ decodeCode ⟨s.r, s.n, prevV⟩ c = .dic c := by
  obtain hl | hd := h.denotes
  · exact .inl (decodeCode_of_classify (classify_lit.mpr hl))
  · exact .inr (decodeCode_of_classify (classify_dic.mpr hd))

/-- Settles O40, by the bounds of the invariant; `current` is a literal or present. -/
theorem emittedCodesFitTheirWidths : Obligations.EmittedCodesFitTheirWidths := by
  intro s h hs
  obtain ⟨hcur, hclr, heoi, -, -, hle⟩ := h.emitted_bounds hs
  obtain ⟨-, -, -, -, hrun, -⟩ := h.encoder hs
  have h10 := h.clrCode_le
  exact ⟨fun hc => ⟨hcur hc, (hrun hc).decodeCode_eq true⟩, hclr, by omega, heoi, hle⟩

theorem State.clr_toNat {s : State} (hr : rootOk s.r) : s.clr.toNat = clrCode s.r := by
  have := (two_pow_root_bounds hr).2
  rw [State.clr, BitVec.toNat_ofNat, Nat.mod_eq_of_lt (by rw [clrCode]; omega)]

theorem State.eoi_toNat {s : State} (hr : rootOk s.r) : s.eoi.toNat = eoiCode s.r := by
  have := (two_pow_root_bounds hr).2
  rw [State.eoi, BitVec.toNat_ofNat, Nat.mod_eq_of_lt (by rw [eoiCode]; omega)]

/-! ### The pairs of one command (42_encoder R99, R110) -/

theorem State.symbolPairs_of_empty {s : State} (hc : s.curV = false) (x : BitVec 12) : s.symbolPairs x = [] := by
  rw [State.symbolPairs, State.lookupByPrefix, hc]
  rfl

theorem State.symbolPairs_cases (s : State) (x : BitVec 12) : s.symbolPairs x = [] ∨
    s.curV = true ∧ (s.symbolPairs x = [(s.w, s.cur)] ∨ s.symbolPairs x = [(s.w, s.cur), (12, s.clr)]) := by
  cases hc : s.curV with
  | false => exact .inl (State.symbolPairs_of_empty hc x)
  | true =>
    unfold State.symbolPairs
    split
    · exact .inl rfl
    · split
      · exact .inr ⟨rfl, .inr rfl⟩
      · exact .inr ⟨rfl, .inl rfl⟩

theorem State.length_symbolPairs_le (s : State) (x : BitVec 12) : (s.symbolPairs x).length ≤ 2 := by
  obtain h | ⟨-, h | h⟩ := s.symbolPairs_cases x <;> simp [h]

theorem State.length_finalPairs (s : State) : s.finalPairs.length = if s.curV then 2 else 1 := by
  rw [State.finalPairs]
  split <;> rfl

theorem pairsLegal_startPairs {r : BitVec 4} (hr : rootOk r.toNat) : pairsLegal (startPairs r) := by
  have hb := two_pow_root_bounds hr
  refine List.forall_mem_singleton.mpr ⟨Nat.le_add_left _ _, ?_, ?_⟩
  · have := hr.2
    simp only [initialWidth, Config.maxw, Config.maxRoot] at *
    omega
  · dsimp only [initialWidth, clrCode]
    rw [BitVec.toNat_ofNat, Nat.mod_eq_of_lt (by omega), pow_succ]
    omega

theorem State.Inv.pairsLegal_symbolPairs {s : State} (h : s.Inv) (hs : s.state = .encActive) (x : BitVec 12) :
    pairsLegal (s.symbolPairs x) := by
  obtain ⟨hcur, -, -, h1, hw, hE⟩ := h.emitted_bounds hs
  have hdata : s.curV = true → 1 ≤ s.w ∧ s.w ≤ Config.maxw ∧ s.cur.toNat < 2 ^ s.w := fun hc =>
    ⟨h1, hw.trans hE, hcur hc⟩
  have hclr : 1 ≤ 12 ∧ 12 ≤ Config.maxw ∧ s.clr.toNat < 2 ^ 12 := ⟨by decide, by decide, s.clr.isLt⟩
  obtain hp | ⟨hc, hp | hp⟩ := s.symbolPairs_cases x <;> rw [hp]
  · exact fun _ h => nomatch h
  · exact List.forall_mem_singleton.mpr (hdata hc)
  · exact List.forall_mem_cons.mpr ⟨hdata hc, List.forall_mem_singleton.mpr hclr⟩

theorem State.Inv.pairsLegal_finalPairs {s : State} (h : s.Inv) (hs : s.state = .encActive) :
    pairsLegal s.finalPairs := by
  obtain ⟨hcur, -, heoi, h1, hw, hE⟩ := h.emitted_bounds hs
  refine List.forall_mem_append.mpr ⟨?_, List.forall_mem_singleton.mpr ⟨h1.trans hw, hE, ?_⟩⟩
  · split
    · exact List.forall_mem_singleton.mpr ⟨h1, hw.trans hE, hcur ‹_›⟩
    · exact fun _ h => nomatch h
  · rwa [State.eoi_toNat (h.active (.inl hs)).1]

/-! ### The bytes of one command (42_encoder R112) -/

theorem pairsWidth_le {ps : List (Nat × Code)} (hps : pairsLegal ps) : pairsWidth ps ≤ 12 * ps.length := by
  induction ps with
  | nil => rfl
  | cons a ps ih =>
    obtain ⟨⟨-, (hw : a.1 ≤ 12), -⟩, hps⟩ := List.forall_mem_cons.mp hps
    have := ih hps
    rw [pairsWidth, List.length_cons]
    omega

/-- The bits that leave and the bits that stay open are those that were open and at most 12 for each pair. -/
theorem packAll_bits_le {ps : List (Nat × Code)} (hps : pairsLegal ps) {p : Packer} (hp : p.ok) :
    8 * (packAll ps p).2.length + (packAll ps p).1.n ≤ p.n + 12 * ps.length := by
  have hw := pairsWidth_le hps
  obtain ⟨-, hn, -⟩ := packAll_spec hps hp
  omega

/-- START_ENC packs fewer than 16 bits. -/
theorem length_startEncode_byteOut_le {r : BitVec 4} (hr : rootOk r.toNat) (s : State) :
    (startEncode r s).byteOut.length ≤ s.byteOut.length + 1 := by
  have h := packAll_bits_le (pairsLegal_startPairs hr) (p := ⟨0, 0⟩) (by decide)
  rw [(startEncode_packs r s).2, List.length_append]
  simp only [startPairs, List.length_singleton] at h ⊢
  omega

/-- ENC_SYM packs at most two codes above at most 12 open bits. -/
theorem State.Inv.length_encodeSymbol_byteOut_le {s : State} (h : s.Inv) (hs : s.state = .encActive) (x : BitVec 12) :
    (encodeSymbol x s).byteOut.length ≤ s.byteOut.length + 4 := by
  have hbits := packAll_bits_le (h.pairsLegal_symbolPairs hs x) h.packer
  have hlen := s.length_symbolPairs_le x
  have hopen := h.packer.1
  rw [(encodeSymbol_packs x s).2, List.length_append]
  omega

/-- ENC_END packs at most two codes above at most 12 open bits and flushes: 36 bits are 5 bytes. -/
theorem State.Inv.length_encodeEnd_byteOut_le {s : State} (h : s.Inv) (hs : s.state = .encActive) :
    (encodeEnd s).byteOut.length ≤ s.byteOut.length + 5 := by
  have hlegal := h.pairsLegal_finalPairs hs
  have hbits := packAll_bits_le hlegal h.packer
  have hlen : s.finalPairs.length ≤ 2 := by rw [s.length_finalPairs]; split <;> decide
  have hopen := h.packer.1
  obtain ⟨⟨-, hacc⟩, -⟩ := packAll_spec hlegal h.packer
  obtain ⟨-, hflush, -⟩ := Packer.flush_spec hacc
  rw [(encodeEnd_packs s).2, List.length_append, List.length_append, hflush]
  omega

/-- Settles O41; a command that is ignored or raises an error outputs nothing. -/
theorem encodeCommandsOutputFewBytes : Obligations.EncodeCommandsOutputFewBytes := by
  intro s t h
  refine ⟨fun r ht => ?_, fun x ht => ?_, fun ht => ?_⟩
  · by_cases hr : rootOk r.toNat
    · cases (exec_startEnc_of_legal hr s).symm.trans ht
      exact length_startEncode_byteOut_le hr s
    · rw [exec, execStartEnc, startCommand_of_illegal hr] at ht
      cases ht
      exact Nat.le_add_right _ _
  · obtain rfl | ⟨-, _, _, rfl⟩ | ⟨ha, -, rfl⟩ := encSym_cases ht
    · exact Nat.le_add_right _ _
    · exact Nat.le_add_right _ _
    · exact h.length_encodeSymbol_byteOut_le ha x
  · obtain rfl | ⟨-, _, _, rfl⟩ | ⟨ha, rfl⟩ := encEnd_cases ht
    · exact Nat.le_add_right _ _
    · exact Nat.le_add_right _ _
    · exact h.length_encodeEnd_byteOut_le ha

/-! ### The symbols of a session -/

section Symbols

variable {xs : List (BitVec 12)} {s : State}

theorem encodeSymbols_cons (x : BitVec 12) (xs : List (BitVec 12)) (s : State) :
    encodeSymbols (x :: xs) s = encodeSymbols xs (encodeSymbol x s) := rfl

/-- ENC_SYM for each symbol of a list keeps the encoder running, under the invariant and with its root size. -/
theorem inv_encodeSymbols (h : s.Inv) (hs : s.state = .encActive) (hx : ∀ x ∈ xs, x.toNat < 2 ^ s.r) :
    (encodeSymbols xs s).Inv ∧ (encodeSymbols xs s).state = .encActive ∧ (encodeSymbols xs s).r = s.r := by
  induction xs generalizing s with
  | nil => exact ⟨h, hs, rfl⟩
  | cons x xs ih =>
    obtain ⟨hx, hxs⟩ := List.forall_mem_cons.mp hx
    obtain ⟨hinv, hstate, hroot⟩ :=
      ih (inv_encodeSymbol h hs hx) ((encodeSymbol_state x s).trans hs) (by rwa [encodeSymbol_r])
    exact ⟨hinv, hstate, hroot.trans (encodeSymbol_r x s)⟩

theorem State.Inv.pairsLegal_symbolsPairs (h : s.Inv) (hs : s.state = .encActive) (hx : ∀ x ∈ xs, x.toNat < 2 ^ s.r) :
    pairsLegal (State.symbolsPairs xs s) := by
  induction xs generalizing s with
  | nil => exact fun _ h => nomatch h
  | cons x xs ih =>
    obtain ⟨hx, hxs⟩ := List.forall_mem_cons.mp hx
    exact List.forall_mem_append.mpr ⟨h.pairsLegal_symbolPairs hs x,
      ih (inv_encodeSymbol h hs hx) ((encodeSymbol_state x s).trans hs) (by rwa [encodeSymbol_r])⟩

variable (xs s)

theorem encodeSymbols_packs :
    (encodeSymbols xs s).pk = (packAll (State.symbolsPairs xs s) s.pk).1 ∧
      (encodeSymbols xs s).byteOut = s.byteOut ++ (packAll (State.symbolsPairs xs s) s.pk).2 := by
  induction xs generalizing s with
  | nil => exact ⟨rfl, (List.append_nil _).symm⟩
  | cons x xs ih =>
    obtain ⟨hpk, hout⟩ := encodeSymbol_packs x s
    obtain ⟨ihpk, ihout⟩ := ih (encodeSymbol x s)
    rw [hpk] at ihpk ihout
    rw [State.symbolsPairs, packAll_append, ← List.append_assoc, ← hout]
    exact ⟨ihpk, ihout⟩

/-- ENC_SYM emits at most two pairs, and none with an empty `current`. -/
theorem length_symbolsPairs_add_finalPairs_le :
    (State.symbolsPairs xs s).length + (encodeSymbols xs s).finalPairs.length ≤
      2 * xs.length + if s.curV then 2 else 1 := by
  induction xs generalizing s with
  | nil => exact (Nat.zero_add _).trans_le (by rw [State.length_finalPairs]; exact Nat.le_add_left _ _)
  | cons x xs ih =>
    have ih := ih (encodeSymbol x s)
    rw [if_pos (encodeSymbol_curV x s)] at ih
    have hx : (s.symbolPairs x).length ≤ if s.curV then 2 else 1 := by
      split
      · exact s.length_symbolPairs_le x
      · simp [State.symbolPairs_of_empty (eq_false_of_ne_true ‹_›)]
    rw [State.symbolsPairs, encodeSymbols_cons, List.length_append, List.length_cons]
    omega

end Symbols

/-! ### The commands of a session (30_encoding R72) -/

theorem runCommand_cmdWordOf {i : Instr} (hi : i.isCommand = true) (hw : i.wellFormed ⟨0, 0, false⟩ = true) (s : State) :
    runCommand (cmdWordOf i) s = exec i s :=
  runCommand_of_ok (decodeCommand_cmdWordOf hi hw) s

theorem runCommands_encSym {xs : List (BitVec 12)} {s : State} (hs : s.state = .encActive)
    (hx : ∀ x ∈ xs, x.toNat < 2 ^ s.r) :
    runCommands (xs.map fun x => cmdWordOf (.encSym x)) s = .next (encodeSymbols xs s) := by
  induction xs generalizing s with
  | nil => rfl
  | cons x xs ih =>
    obtain ⟨hx, hxs⟩ := List.forall_mem_cons.mp hx
    rw [List.map_cons, runCommands, runCommand_cmdWordOf rfl rfl, exec_encSym_of_legal hs hx, andThen_next]
    exact ih ((encodeSymbol_state x s).trans hs) (by rwa [encodeSymbol_r])

/-- A session that ends in DONE results in what it added to its stream. -/
theorem sessionResult_of_done {α : Type} (out : State → List α) (s : State) {t : State} (h : t.state = .done) :
    sessionResult out s t = .ok ((out t).drop (out s).length) := by
  rw [sessionResult, h]

section Session

variable {r : BitVec 4} {xs : List (BitVec 12)} (s : State)

/-- A session before its ENC_END. -/
theorem runCommands_startEnc_encSym (hr : rootOk r.toNat) (hx : ∀ x ∈ xs, x.toNat < 2 ^ r.toNat) :
    runCommands (cmdWordOf (.startEnc r) :: xs.map fun x => cmdWordOf (.encSym x)) s =
      .next (encodeSymbols xs (startEncode r s)) := by
  rw [runCommands, runCommand_cmdWordOf rfl rfl, exec_startEnc_of_legal hr, andThen_next]
  exact runCommands_encSym rfl hx

theorem runCommands_encodeSession (hr : rootOk r.toNat) (hx : ∀ x ∈ xs, x.toNat < 2 ^ r.toNat) :
    runCommands (encodeSession r xs) s = .next (encodeEnd (encodeSymbols xs (startEncode r s))) := by
  obtain ⟨-, hs, -⟩ := inv_encodeSymbols (xs := xs) (inv_startEncode s hr) rfl hx
  rw [encodeSession, runCommands_append, runCommands_startEnc_encSym s hr hx, andThen_next, runCommands,
    runCommand_cmdWordOf rfl rfl, exec_encEnd_of_active hs]
  rfl

theorem pairsLegal_sessionPairs (hr : rootOk r.toNat) (hx : ∀ x ∈ xs, x.toNat < 2 ^ r.toNat) :
    pairsLegal (sessionPairs r xs s) := by
  have h := inv_startEncode s hr
  obtain ⟨ht, hts, -⟩ := inv_encodeSymbols (xs := xs) h rfl hx
  exact List.forall_mem_append.mpr ⟨List.forall_mem_append.mpr
    ⟨pairsLegal_startPairs hr, h.pairsLegal_symbolsPairs rfl hx⟩, ht.pairsLegal_finalPairs hts⟩

variable (r xs)

/-- The session adds its pairs, packed and flushed, to the byte stream. -/
theorem encodeEnd_byteOut_of_session :
    (encodeEnd (encodeSymbols xs (startEncode r s))).byteOut = s.byteOut ++
      ((packAll (sessionPairs r xs s) ⟨0, 0⟩).2 ++ (packAll (sessionPairs r xs s) ⟨0, 0⟩).1.flush.2) := by
  obtain ⟨hpk, hout⟩ := startEncode_packs r s
  obtain ⟨hspk, hsout⟩ := encodeSymbols_packs xs (startEncode r s)
  rw [(encodeEnd_packs _).2, hspk, hsout, hpk, hout, sessionPairs, packAll_append, packAll_append]
  simp only [List.append_assoc]

theorem length_sessionPairs_le : (sessionPairs r xs s).length ≤ 2 * xs.length + 2 := by
  have h := length_symbolsPairs_add_finalPairs_le xs (startEncode r s)
  rw [if_neg (by simp [startEncode])] at h
  simp only [sessionPairs, startPairs, List.length_append, List.length_singleton]
  omega

variable {r xs}

/-- The result of `encode` is the pairs of its session, packed and flushed (42_encoder R99). -/
theorem encodeFn_eq_packed (hr : rootOk r.toNat) (hx : ∀ x ∈ xs, x.toNat < 2 ^ r.toNat) :
    encodeFn r xs s =
      .ok ((packAll (sessionPairs r xs s) ⟨0, 0⟩).2 ++ (packAll (sessionPairs r xs s) ⟨0, 0⟩).1.flush.2) := by
  rw [encodeFn, runCommands_encodeSession s hr hx]
  dsimp only
  rw [sessionResult_of_done State.byteOut s rfl, encodeEnd_byteOut_of_session, List.drop_left]

end Session

/-- Settles O58: each command packs its pairs, which the invariant makes legal, and the packer's law is about legal pairs. -/
theorem sessionBytesAreItsPackedPairs : Obligations.SessionBytesAreItsPackedPairs := by
  intro r xs s h2 h10 hx
  have hr : rootOk r.toNat := ⟨h2, h10⟩
  have hlegal := pairsLegal_sessionPairs s hr hx
  obtain ⟨-, -, hroot⟩ := inv_encodeSymbols (xs := xs) (inv_startEncode s hr) rfl hx
  obtain ⟨hv, hlen⟩ := packAll_flush_spec hlegal
  refine ⟨_, _, runCommands_startEnc_encSym s hr hx, ?_, encodeFn_eq_packed s hr hx, hlegal, hv, hlen,
    length_sessionPairs_le r xs s⟩
  rw [sessionPairs, State.finalPairs, State.eoi, hroot, ← List.append_assoc]
  rfl

end Sys2Proof.Machine
end

section
/-! PROOFS. 43_decoder: the loop of DEC_BYTE as a relation, the decode commands and the code words case by case, what they
leave alone, and the statements about them. -/

namespace Sys2Proof.Machine

open Sys2Proof.Statements

/-! ### The decode commands in the state that accepts them (30_encoding R67) -/

theorem exec_startDec_of_legal {r : BitVec 4} (hr : rootOk r.toNat) (s : State) :
    exec (.startDec r) s = .next (beginStream .dec .decActive r s) := by
  rw [exec, execStartDec, startCommand_of_legal hr]

theorem exec_decByte_of_active {s : State} (hs : s.state = .decActive) (b : Byte) :
    exec (.decByte b) s = decodeByte b s := by
  rw [exec, execDecByte, decCommand_of_active hs]

theorem exec_decByte_of_done {s : State} (hs : s.state = .done) (hm : s.mode = .dec) (b : Byte) :
    exec (.decByte b) s = .next s := by
  rw [exec, execDecByte, decCommand_of_done hs hm]

theorem exec_decEnd_of_active {s : State} (hs : s.state = .decActive) :
    exec .decEnd s = .next (raise .truncatedStream (BitVec.ofNat 16 s.ub.n) s) := by
  rw [exec, execDecEnd, decCommand_of_active hs]

theorem exec_decEnd_of_done {s : State} (hs : s.state = .done) (hm : s.mode = .dec) : exec .decEnd s = .next s := by
  rw [exec, execDecEnd, decCommand_of_done hs hm]

theorem decCommand_eq_next {cmd : CmdWord} {k : State → Result} {s t : State} (h : decCommand cmd k s = .next t) :
    t = s ∨ s.state ≠ .error ∧ t = raise .illegalCommand cmd s ∨ s.state = .decActive ∧ k s = .next t := by
  obtain ⟨-, rfl⟩ | ⟨he, -⟩ := unlessError_eq_next h
  · exact .inl rfl
  · by_cases hd : s.state = .done ∧ s.mode = .dec
    · rw [decCommand_of_done hd.1 hd.2] at h
      exact .inl (Host.Outcome.next.inj h).symm
    · by_cases ha : s.state = .decActive
      · rw [decCommand_of_active ha] at h
        exact .inr (.inr ⟨ha, h⟩)
      · rw [decCommand_of_other ha he hd] at h
        exact .inr (.inl ⟨he, (Host.Outcome.next.inj h).symm⟩)

/-- What DEC_BYTE answers: the state as it was, an error, or what its loop answers. -/
theorem decByte_cases {b : Byte} {s t : State} (h : exec (.decByte b) s = .next t) :
    t = s ∨ s.state ≠ .error ∧ (∃ e info, t = raise e info s) ∨ s.state = .decActive ∧ decodeByte b s = .next t := by
  rw [exec, execDecByte] at h
  obtain rfl | ⟨he, rfl⟩ | ha := decCommand_eq_next h
  · exact .inl rfl
  · exact .inr (.inl ⟨he, _, _, rfl⟩)
  · exact .inr (.inr ha)

/-- What DEC_END answers: the state as it was, or an error. -/
theorem decEnd_cases {s t : State} (h : exec .decEnd s = .next t) :
    t = s ∨ s.state ≠ .error ∧ ∃ e info, t = raise e info s := by
  rw [exec, execDecEnd] at h
  obtain rfl | ⟨he, rfl⟩ | ⟨ha, hk⟩ := decCommand_eq_next h
  · exact .inl rfl
  · exact .inr ⟨he, _, _, rfl⟩
  · exact .inr ⟨by simp [ha], _, _, (Host.Outcome.next.inj hk).symm⟩

/-! ### LIT, DIC and KWK (43_decoder R120 to R127) -/

theorem symOfCode_eq (c : Code) : symOfCode c = BitVec.ofNat 10 c.toNat :=
  (BitVec.ofNat_toNat 10 c).symm

section Run

variable {s : State} (c : Code)

theorem exec_lit_of_first (hp : s.prevV = false) : exec (.lit c) s = .next (decodeEmit [symOfCode c] c s) := by
  rw [exec, execLit, hp]
  rfl

theorem exec_lit_of_later (hp : s.prevV = true) : exec (.lit c) s = decodeRun (some [symOfCode c]) c s := by
  rw [exec, execLit, if_pos hp]

theorem exec_dic_of_prev (hp : s.prevV = true) : exec (.dic c) s = decodeRun (s.seq c) c s := by
  rw [exec, execDic, if_pos hp, State.lookupByCode]

theorem exec_kwk_of_prev (hp : s.prevV = true) : exec (.kwk c) s = decodeRun s.fallback c s := by
  rw [exec, execKwk, if_pos hp]

theorem exec_dic_of_empty (hp : s.prevV = false) : exec (.dic c) s = corruptCode c s := by
  rw [exec, execDic, hp]
  rfl

theorem exec_kwk_of_empty (hp : s.prevV = false) : exec (.kwk c) s = corruptCode c s := by
  rw [exec, execKwk, hp]
  rfl

theorem State.fallback_of_seq {f : Sym} {q : List Sym} (h : s.seq s.prev = some (f :: q)) :
    s.fallback = some (f :: q ++ [f]) := by
  rw [State.fallback, h]

end Run

theorem corruptCode_eq (c : Code) (s : State) : corruptCode c s =
    .next { s with state := .error, err := .corruptCode, errInfo := BitVec.ofNat 16 c.toNat } := by
  rw [corruptCode, ← BitVec.ofNat_toNat]
  rfl

theorem dictWrite_eq (i : Nat) (e : DictEntry) (s : State) :
    dictWrite i e s = { s with dict := (dictWrite i e s).dict } := by
  unfold dictWrite
  split <;> rfl

theorem decodeAdvance_eq (s : State) : decodeAdvance s =
    { s with n := min (s.n + 1) 4096,
             w := if min (s.n + 1) 4096 = 2 ^ s.w - 1 then min 12 (s.w + 1) else s.w } := by
  unfold decodeAdvance
  split
  · rw [if_pos ‹_›]
  · rw [if_neg ‹_›]

/-- Insertion, increment, width update, output and `previous`, whole. -/
theorem decodeRun_cons_eq (f : Sym) (q : List Sym) (c : Code) (s : State) : decodeRun (some (f :: q)) c s = .next
    { s with dict := (dictWrite s.n ⟨s.prev, f⟩ s).dict, n := min (s.n + 1) 4096,
             w := if min (s.n + 1) 4096 = 2 ^ s.w - 1 then min 12 (s.w + 1) else s.w,
             symOut := s.symOut ++ f :: q, prev := c, prevV := true } := by
  rw [decodeRun_cons, decodeAdvance_eq, dictWrite_eq]
  rfl

/-- What the write leaves to be read: the new entry at its code, when that is inside the code space, and every other entry
as it was. -/
theorem dictWrite_read (i : Nat) (e : DictEntry) (s : State) (j : Nat) :
    (dictWrite i e s).dict.read j = if j = i ∧ i < 4096 then some e else s.dict.read j := by
  rw [dictWrite_dict]
  split
  · simp [Dict.read_insert, *]
  · simp [*]

/-! ### The loop of DEC_BYTE (43_decoder R116) -/

/-- A read of any width takes that many bits. -/
theorem Unpacker.read_n {u v : Unpacker} {w : Nat} {c : Code} (h : u.read w = some (c, v)) :
    w ≤ u.n ∧ v.n = u.n - w := by
  unfold Unpacker.read at h
  split at h
  · cases h
  · cases h
    exact ⟨not_lt.mp ‹_›, rfl⟩

/-! In the inductions on `DecodesTo` the case of a stream that is over is the last alternative, without its name: `over` is
a keyword of Mathlib. -/

section Loop

variable {s t m : State} {c : Code} {u : Unpacker} {k : Nat}

theorem decodeLoop_of_over (h : s.state ≠ .decActive) (fuel : Nat) : decodeLoop (fuel + 1) s = .next s := by
  rw [decodeLoop, if_neg h]

theorem decodeLoop_of_wait (h : s.state = .decActive) (hr : s.ub.read s.w = none) (fuel : Nat) :
    decodeLoop (fuel + 1) s = .next s := by
  rw [decodeLoop, if_pos h, hr]

theorem decodeLoop_of_code (h : s.state = .decActive) (hr : s.ub.read s.w = some (c, u)) (fuel : Nat) :
    decodeLoop (fuel + 1) s = andThen (decodeOne c { s with ub := u }) (decodeLoop fuel) := by
  rw [decodeLoop, if_pos h, hr]

/-- The decoder reads a code in the context that the state had before its bits were taken. -/
theorem decodeOne_setUb (c : Code) (u : Unpacker) (s : State) :
    decodeOne c { s with ub := u } = exec (decodeCode s.codeContext c) { s with ub := u } :=
  decodeOne_eq_exec c _

/-- Where the fuelled loop ends, it has run the loop of R116. -/
theorem decodesTo_of_decodeLoop {fuel : Nat} (h : decodeLoop fuel s = .next t) : ∃ k, DecodesTo k s t := by
  induction fuel generalizing s with
  | zero => cases h
  | succ fuel ih =>
    by_cases hs : s.state = .decActive
    · cases hr : s.ub.read s.w with
      | none =>
        cases (decodeLoop_of_wait hs hr fuel).symm.trans h
        exact ⟨0, .wait hs ((Unpacker.read_eq_none_iff _ _).mp hr)⟩
      | some cu =>
        rw [decodeLoop_of_code hs hr] at h
        obtain ⟨m, hm, hk⟩ := andThen_eq_next.mp h
        obtain ⟨k, hk⟩ := ih hk
        rw [decodeOne_setUb] at hm
        exact ⟨k + 1, .code hs hr hm hk⟩
    · cases (decodeLoop_of_over hs fuel).symm.trans h
      exact ⟨0, .over hs⟩

/-- After a literal at width 0 the stream goes on at width 0: no `N` after an increment is `2^0 - 1`. -/
theorem exec_lit_of_width_zero (hw : s.w = 0) (h : exec (.lit c) s = .next m) : m.state = s.state ∧ m.w = 0 := by
  cases hp : s.prevV with
  | false =>
    cases (exec_lit_of_first c hp).symm.trans h
    exact ⟨rfl, hw⟩
  | true =>
    rw [exec_lit_of_later c hp, decodeRun_cons_eq] at h
    cases h
    exact ⟨rfl, by simp [hw]⟩

/-- A code of width 0 is the literal 0. -/
theorem decodeCode_of_width_zero (hw : s.w = 0) (hr : s.ub.read s.w = some (c, u)) :
    decodeCode s.codeContext c = .lit c := by
  obtain ⟨-, -, hc, -⟩ := Unpacker.read_spec (by omega) hr
  rw [hw, pow_zero, Nat.mod_one] at hc
  exact decodeCode_of_classify (classify_lit.mpr (hc ▸ Nat.two_pow_pos _))

/-- At width 0 the loop of R116 has no end (log 7). -/
theorem width_pos_of_decodesTo (h : DecodesTo k s t) (hs : s.state = .decActive) : 0 < s.w := by
  induction h with
  | wait _ hn => exact Nat.zero_lt_of_lt hn
  | @code s m t c u k _ hr he _ ih =>
    refine Nat.pos_of_ne_zero fun hw => ?_
    rw [decodeCode_of_width_zero hw hr] at he
    obtain ⟨hms, hmw⟩ := exec_lit_of_width_zero (s := { s with ub := u }) hw he
    exact absurd (ih (hms.trans hs)) (by omega)
  | _ hover => exact absurd hs hover

/-- A code of the loop takes its width from the buffer. -/
theorem ub_le_of_code (hr : s.ub.read s.w = some (c, u))
    (he : exec (decodeCode s.codeContext c) { s with ub := u } = .next m) : m.ub.n + s.w ≤ s.ub.n := by
  obtain ⟨hle, hn⟩ := Unpacker.read_n hr
  have hm : m.ub.n ≤ u.n := ub_le_of_decodeOne ((decodeOne_setUb c u s).trans he)
  omega

/-- More depth than buffered bits is enough for the loop of R116: every code takes a bit or more. -/
theorem decodeLoop_of_decodesTo (h : DecodesTo k s t) {fuel : Nat} (hf : s.ub.n < fuel) :
    decodeLoop fuel s = .next t := by
  induction h generalizing fuel with
  | wait h hn =>
    obtain ⟨fuel, rfl⟩ := Nat.exists_eq_add_of_lt hf
    exact decodeLoop_of_wait h ((Unpacker.read_eq_none_iff _ _).mpr hn) _
  | code h hr he hk ih =>
    obtain ⟨fuel, rfl⟩ := Nat.exists_eq_add_of_lt hf
    have hw := width_pos_of_decodesTo (.code h hr he hk) h
    have hle := ub_le_of_code hr he
    rw [decodeLoop_of_code h hr, decodeOne_setUb]
    exact andThen_eq_next.mpr ⟨_, he, ih (by omega)⟩
  | _ hover =>
    obtain ⟨fuel, rfl⟩ := Nat.exists_eq_add_of_lt hf
    exact decodeLoop_of_over hover _

theorem decodeByte_eq_next_iff {b : Byte} : decodeByte b s = .next t ↔ ∃ k, DecodesTo k (pushed b s) t :=
  ⟨decodesTo_of_decodeLoop, fun ⟨_, h⟩ => decodeLoop_of_decodesTo h (Nat.lt_succ_self _)⟩

/-- The buffer is no part of the loop invariant but for its own bounds. -/
theorem LoopInv.setUb (h : LoopInv s) (hu : u.ok) : LoopInv { s with ub := u } :=
  ⟨h.stream, h.record, h.empty, h.packer, hu, h.listed, h.entries, h.unique, h.encoder, h.mode, h.small, h.big, h.none,
    h.prev⟩

/-- Under the loop invariant a code is at least `W0 ≥ 3` bits wide. -/
theorem codes_le_of_decodesTo (hk : DecodesTo k s t) (h : LoopInv s) : 3 * k ≤ s.ub.n := by
  induction hk with
  | @code s m t c u k hs hr he _ ih =>
    obtain ⟨⟨h2, -⟩, hw0, hw, -, -⟩ := h.active hs
    obtain ⟨m', hm', hinv⟩ := loopInv_decodeOne (h.setUb (Unpacker.read_ok hw h.unpacker hr)) hs c
    rw [decodeOne_setUb, he] at hm'
    cases hm'
    have hle := ub_le_of_code hr he
    have hrest := ih hinv
    simp only [Config.minRoot, initialWidth] at h2 hw0
    omega
  | _ => exact Nat.zero_le _

end Loop

/-- Settles O44: the depth of the model's loop is enough wherever the loop of R116 ends. -/
theorem decByteRunsTheCodesItCompletes : Obligations.DecByteRunsTheCodesItCompletes := by
  intro s t b hs
  rw [exec_decByte_of_active hs]
  exact decodeByte_eq_next_iff

/-- Settles O45: after the push at most 19 bits are buffered, and each code takes at least 3. -/
theorem decByteCompletesWithinSixCodes : Obligations.DecByteCompletesWithinSixCodes := by
  intro s b h hs
  obtain ⟨t, ht, -⟩ := inv_decodeByte h hs b
  obtain ⟨k, hk⟩ := decodeByte_eq_next_iff.mp ht
  refine ⟨t, k, (exec_decByte_of_active hs b).trans ht, hk, ?_⟩
  obtain ⟨-, -, -, -, -, hub⟩ := h.decoder hs
  obtain ⟨-, -, hw, -, -⟩ := h.active (.inr hs)
  obtain ⟨-, -, hpush⟩ := Unpacker.pushByte_spec b (show s.ub.n ≤ 11 by omega) h.unpacker.2
  have hbits : 3 * k ≤ s.ub.n + 8 := codes_le_of_decodesTo hk (h.loopInv.setUb hpush)
  omega

/-! ### The code words with an output (43_decoder R120 to R127) -/

/-- Settles O46: the first literal is output and becomes `previous`. -/
theorem firstLiteralInsertsNothing : Obligations.FirstLiteralInsertsNothing := by
  intro s c hp
  rw [exec_lit_of_first c hp, symOfCode_eq]
  rfl

/-- Settles O47: a literal denotes its one symbol. -/
theorem laterLiteralInsertsAndIsOutput : Obligations.LaterLiteralInsertsAndIsOutput := by
  intro s c hp
  refine ⟨_, _, rfl, ?_, dictWrite_read s.n ⟨s.prev, BitVec.ofNat 10 c.toNat⟩ s⟩
  rw [exec_lit_of_later c hp, symOfCode_eq, decodeRun_cons_eq]

/-- Settles O48: a present code denotes a sequence that is not empty. -/
theorem presentCodeInsertsAndIsOutput : Obligations.PresentCodeInsertsAndIsOutput := by
  intro s c hp hl he hc
  obtain ⟨f, q, hq⟩ := State.seq_nonempty hl he (.inr hc)
  refine ⟨f, q, _, _, hq, rfl, ?_, dictWrite_read s.n ⟨s.prev, f⟩ s⟩
  rw [exec_dic_of_prev c hp, hq, decodeRun_cons_eq]

/-- Settles O49: `c = N` is a code, so the table has room for the entry. -/
theorem fallbackRepeatsTheFirstSymbol : Obligations.FallbackRepeatsTheFirstSymbol := by
  intro s c hp hl he hd hc
  obtain ⟨f, q, hq⟩ := State.seq_nonempty hl he hd
  have hn : s.n < 4096 := hc ▸ c.isLt
  refine ⟨f, q, (dictWrite s.n ⟨s.prev, f⟩ s).dict, hq, ?_, fun j => ?_⟩
  · rw [exec_kwk_of_prev c hp, State.fallback_of_seq hq, List.cons_append, decodeRun_cons_eq,
      Nat.min_eq_left (Nat.succ_le_of_lt hn)]
  · simp only [dictWrite_read, hn, and_true]

/-- Settles O50: CORRUPT_CODE with the code. -/
theorem dictionaryCodeWithoutPreviousIsCorrupt : Obligations.DictionaryCodeWithoutPreviousIsCorrupt := fun s c hp =>
  ⟨(exec_dic_of_empty c hp).trans (corruptCode_eq c s), (exec_kwk_of_empty c hp).trans (corruptCode_eq c s)⟩

/-! ### `previous` (43_decoder R127, 10_state R22) -/

theorem State.fallback_eq_some {s : State} {f : Sym} {q : List Sym} (h : s.fallback = some (f :: q)) :
    ∃ p, s.seq s.prev = some p ∧ p ++ [f] = f :: q := by
  unfold State.fallback at h
  split at h
  · rename_i g p hp
    cases h
    exact ⟨_, hp, rfl⟩
  · cases h
  · cases h

/-- After an insertion the code that was run denotes what it put out: an old code denotes what it did before, and the
newest what its entry says, which is the fallback's run. -/
theorem prev_denotes_after_decodeRun {s t : State} {c : Code} {o : Option (List Sym)} (h : s.Inv)
    (hs : s.state = .decActive) (hp : s.prevV = true) (hrun : decodeRun o c s = .next t) (ht : t.entriesLegal)
    (hc : s.denotes c ∧ s.seq c = o ∨ c.toNat = s.n ∧ s.fallback = o) :
    ∃ q, t.prevV = true ∧ t.prev = c ∧ t.symOut = s.symOut ++ q ∧ t.seq t.prev = some q ∧ q ≠ [] := by
  obtain ⟨f, q, rfl, rfl⟩ := decodeRun_eq_next hrun
  set t := decodeEmit (f :: q) c (decodeAdvance (dictWrite s.n ⟨s.prev, f⟩ s))
  have hr : t.r = s.r := by simp [t]
  have hd : t.dict = (dictWrite s.n ⟨s.prev, f⟩ s).dict := by simp [t]
  have hn : min t.n Config.codes = min (s.n + 1) Config.codes := by simp [t]
  obtain ⟨-, -, -, hf, -⟩ := h.active (.inr hs)
  obtain ⟨-, -, -, -, hprev, -⟩ := h.decoder hs
  refine ⟨f :: q, rfl, rfl, by simp [t], ?_, List.cons_ne_nil _ _⟩
  change t.seq c = _
  obtain ⟨hden, hq⟩ | ⟨hcn, hfb⟩ := hc
  · rw [seq_after_insert h.listed hr hd hn hf h.entries ht hden, hq]
  · obtain ⟨p, hseq, hpf⟩ := State.fallback_eq_some hfb
    have hlt : s.n < Config.codes := hcn ▸ c.isLt
    have hcode : c = BitVec.ofNat 12 s.n := by rw [← hcn, BitVec.ofNat_toNat, BitVec.setWidth_eq]
    rw [hcode, seq_inserted h.listed hr hd hn hf hlt h.entries ht (hprev hp).denotes, hseq, Option.map_some, hpf]

/-- Without a `previous` the decoder's dictionary is empty (10_state R32), so a present code has one. -/
theorem State.Inv.prevV_of_dic {s : State} (h : s.Inv) (hs : s.state = .decActive) {c : Code}
    (hc : classify s.codeContext c.toNat = .DIC) : s.prevV = true := by
  obtain ⟨-, -, -, hempty, -, -⟩ := h.decoder hs
  obtain ⟨(hlo : firstCode s.r ≤ c.toNat), (hhi : c.toNat < min s.n Config.codes)⟩ := classify_dic.mp hc
  by_contra hp
  have := hempty (eq_false_of_ne_true hp)
  omega

/-- Settles O53, by the class of the code and, for a literal, by whether it is the first. -/
theorem previousDenotesWhatWasOutput : Obligations.PreviousDenotesWhatWasOutput := by
  intro s c h hs hc
  obtain ⟨t, ht, hinv⟩ := loopInv_decodeOne h.loopInv hs c
  rw [decodeOne_eq_exec] at ht
  suffices ∃ q, t.prevV = true ∧ t.prev = c ∧ t.symOut = s.symOut ++ q ∧ t.seq t.prev = some q ∧ q ≠ [] by
    obtain ⟨q, hq⟩ := this
    exact ⟨t, q, ht, hq⟩
  obtain hk | hk | hk := hc <;> rw [decodeCode_of_classify hk, codeInstr] at ht
  · have hlit : c.toNat < clrCode s.r := classify_lit.mp hk
    cases hp : s.prevV with
    | false =>
      cases (exec_lit_of_first c hp).symm.trans ht
      exact ⟨[symOfCode c], rfl, rfl, rfl, State.seq_literal hlit, List.cons_ne_nil _ _⟩
    | true =>
      rw [exec_lit_of_later c hp] at ht
      exact prev_denotes_after_decodeRun h hs hp ht hinv.entries (.inl ⟨.inl hlit, State.seq_literal hlit⟩)
  · have hp := h.prevV_of_dic hs hk
    rw [exec_dic_of_prev c hp] at ht
    exact prev_denotes_after_decodeRun h hs hp ht hinv.entries (.inl ⟨.inr (classify_dic.mp hk), rfl⟩)
  · obtain ⟨-, -, hcn, hp⟩ := classify_kwk.mp hk
    rw [exec_kwk_of_prev c hp] at ht
    exact prev_denotes_after_decodeRun h hs hp ht hinv.entries (.inr ⟨hcn, rfl⟩)

/-! ### What the decode side leaves alone (43_decoder R117, 60_exceptions R142) -/

theorem encoderSideKept_refl (s : State) : encoderSideKept s s :=
  ⟨rfl, rfl, rfl, rfl, rfl, rfl, rfl, List.prefix_rfl⟩

theorem encoderSideKept_trans {s t u : State} (h : encoderSideKept s t) (h' : encoderSideKept t u) :
    encoderSideKept s u := by
  obtain ⟨hm, hr, hcv, hc, hpk, hb, hi, hq⟩ := h
  obtain ⟨hm', hr', hcv', hc', hpk', hb', hi', hq'⟩ := h'
  exact ⟨hm'.trans hm, hr'.trans hr, hcv'.trans hcv, hc'.trans hc, hpk'.trans hpk, hb'.trans hb, hi'.trans hi,
    hq.trans hq'⟩

/-- A code leaves the encode side alone, and the record too unless it is corrupt. -/
theorem CodeEffect.frame {c : Code} {s t : State} (h : CodeEffect c s t) :
    encoderSideKept s t ∧ ((t.err = s.err ∧ t.errInfo = s.errInfo) ∨ t.state = .error) := by
  cases h with
  | first => exact ⟨⟨rfl, rfl, rfl, rfl, rfl, rfl, rfl, List.prefix_append _ _⟩, .inl ⟨rfl, rfl⟩⟩
  | run => exact ⟨by simp [encoderSideKept], by simp⟩
  | clr | eoi => exact ⟨encoderSideKept_refl s, .inl ⟨rfl, rfl⟩⟩
  | corrupt => exact ⟨encoderSideKept_refl s, .inr rfl⟩

/-- The frame of one code, for each code of the loop. -/
theorem decodeByte_frame {b : Byte} {s t : State} (hs : s.state = .decActive) (h : decodeByte b s = .next t) :
    encoderSideKept s t ∧ recordKeptUnlessRaised s t := by
  refine (decodeLoop_induct (P := fun m => encoderSideKept s m ∧ recordKeptUnlessRaised s m)
    (fun m c u n hm ha _ hc => ?_) _ (pushByte b s) t ⟨encoderSideKept_refl s, .inl ⟨rfl, rfl⟩⟩ h).1
  obtain ⟨hkept, hrec⟩ := hm
  obtain ⟨hkept', hrec'⟩ := (decodeOne_effect hc).frame
  refine ⟨encoderSideKept_trans hkept hkept', ?_⟩
  obtain ⟨he, hi⟩ | ⟨-, herr⟩ := hrec
  · exact hrec'.imp (fun ⟨he', hi'⟩ => ⟨he'.trans he, hi'.trans hi⟩) fun herr => ⟨by simp [hs], herr⟩
  · exact nomatch ha.symm.trans herr

/-- What a code with an output writes: the dictionary and its counters, the symbols and `previous`. -/
def CodeFrame (c : Code) (s t : State) : Prop := ∃ d n w q,
  t = { s with dict := d, n := n, w := w, symOut := s.symOut ++ q, prev := c, prevV := true }

theorem CodeFrame.kept {c : Code} {s t : State} (h : CodeFrame c s t) :
    encoderSideKept s t ∧ t.state = s.state ∧ t.ub = s.ub ∧ t.err = s.err ∧ t.errInfo = s.errInfo := by
  obtain ⟨_, _, _, _, rfl⟩ := h
  exact ⟨⟨rfl, rfl, rfl, rfl, rfl, rfl, rfl, List.prefix_append _ _⟩, rfl, rfl, rfl, rfl⟩

theorem decodeRun_frame {o : Option (List Sym)} {c : Code} {s t : State} (h : decodeRun o c s = .next t) :
    CodeFrame c s t := by
  obtain ⟨f, q, rfl, -⟩ := decodeRun_eq_next h
  cases (decodeRun_cons_eq f q c s).symm.trans h
  exact ⟨_, _, _, _, rfl⟩

theorem exec_lit_frame {c : Code} {s t : State} (h : exec (.lit c) s = .next t) : CodeFrame c s t := by
  cases hp : s.prevV with
  | false =>
    cases (exec_lit_of_first c hp).symm.trans h
    exact ⟨s.dict, s.n, s.w, _, rfl⟩
  | true =>
    rw [exec_lit_of_later c hp] at h
    exact decodeRun_frame h

/-- DIC and KWK either insert, with a `previous`, or raise CORRUPT_CODE, without one. -/
theorem dictionaryCode_cases {c : Code} {s t : State} (h : exec (.dic c) s = .next t ∨ exec (.kwk c) s = .next t) :
    s.prevV = true ∧ CodeFrame c s t ∨ s.prevV = false ∧ t = raise .corruptCode (c.setWidth 16) s := by
  cases hp : s.prevV with
  | false =>
    rw [exec_dic_of_empty c hp, exec_kwk_of_empty c hp, or_self] at h
    exact .inr ⟨rfl, (Host.Outcome.next.inj h).symm⟩
  | true =>
    rw [exec_dic_of_prev c hp, exec_kwk_of_prev c hp] at h
    exact .inl ⟨rfl, h.elim decodeRun_frame decodeRun_frame⟩

/-- Settles O54: DEC_BYTE keeps what each code keeps, DEC_END writes STATE and the record only, and LIT, DIC and KWK write
what their frame lists. -/
theorem decodingLeavesTheEncodeSideAlone : Obligations.DecodingLeavesTheEncodeSideAlone := by
  intro s t
  refine ⟨fun b h => ?_, fun h => ?_, fun c h => ?_, fun c h => ?_⟩
  · obtain rfl | ⟨he, e, info, rfl⟩ | ⟨hs, hb⟩ := decByte_cases h
    · exact ⟨encoderSideKept_refl _, .inl ⟨rfl, rfl⟩⟩
    · exact ⟨encoderSideKept_refl s, .inr ⟨he, rfl⟩⟩
    · exact decodeByte_frame hs hb
  · obtain rfl | ⟨he, e, info, rfl⟩ := decEnd_cases h
    · exact ⟨encoderSideKept_refl _, .inl ⟨rfl, rfl⟩, rfl, rfl, rfl, rfl, rfl, rfl, rfl⟩
    · exact ⟨encoderSideKept_refl s, .inr ⟨he, rfl⟩, rfl, rfl, rfl, rfl, rfl, rfl, rfl⟩
  · exact (exec_lit_frame h).kept
  · obtain ⟨-, hf⟩ | ⟨hp, rfl⟩ := dictionaryCode_cases h
    · obtain ⟨hkept, hstate, hub, hrec⟩ := hf.kept
      exact ⟨hkept, hub, fun _ => ⟨hstate, hrec⟩⟩
    · exact ⟨encoderSideKept_refl s, rfl, fun hp' => nomatch hp.symm.trans hp'⟩

/-! ### START_DEC, DEC_END, and the input after EOI (43_decoder R115, R129, R130) -/

theorem cmdWordOf_startDec (r : BitVec 4) : cmdWordOf (.startDec r) = BitVec.ofNat 16 (0x2000 + r.toNat) :=
  (commandWord_eq_ofNat 0x2#4 _).trans (by rw [startOperand_toNat]; rfl)

/-- Settles O43: START_DEC writes every register and outputs nothing. -/
theorem startDecBeginsADecodeSession : Obligations.StartDecBeginsADecodeSession := by
  intro s r h2 h10
  rw [← cmdWordOf_startDec]
  exact ⟨decodeCommand_cmdWordOf (x := ⟨0, 0, false⟩) rfl rfl, exec_startDec_of_legal ⟨h2, h10⟩ s⟩

/-- Settles O18: in DEC_ACTIVE the stream is truncated, in DONE the command is ignored. -/
theorem decEndBeforeEoiIsTruncated : Obligations.DecEndBeforeEoiIsTruncated :=
  ⟨by decide, fun _ => ⟨exec_decEnd_of_active, exec_decEnd_of_done⟩⟩

/-- Settles O21: DONE with MODE = DEC ignores both commands. -/
theorem inputAfterEoiIsIgnored : Obligations.InputAfterEoiIsIgnored := fun _ hs hm =>
  ⟨exec_decByte_of_done hs hm, exec_decEnd_of_done hs hm⟩

/-! ### CLR and EOI (43_decoder R118, R119) -/

theorem toNat_ofNat_two_pow_add {r : Nat} (hr : r ≤ 10) {i : Nat} (hi : i ≤ 1) :
    (BitVec.ofNat 12 (2 ^ r + i)).toNat = 2 ^ r + i := by
  have : 2 ^ r ≤ 2 ^ 10 := Nat.pow_le_pow_right Nat.two_pos hr
  rw [BitVec.toNat_ofNat, Nat.mod_eq_of_lt (by omega)]

/-- Settles O51: the code `2^r` is inside the code space, and CLR is the stream reset without a `previous`. -/
theorem clearCodeRestoresTheInitialState : Obligations.ClearCodeRestoresTheInitialState := fun _ =>
  ⟨rfl, fun hr => decodeCode_of_classify (classify_clr.mpr (toNat_ofNat_two_pow_add hr (Nat.zero_le 1)))⟩

/-- Settles O52: the code `2^r + 1` is inside the code space. -/
theorem endOfInformationEndsTheSession : Obligations.EndOfInformationEndsTheSession := fun _ =>
  ⟨rfl, fun hr => decodeCode_of_classify (classify_eoi.mpr (toNat_ofNat_two_pow_add hr le_rfl))⟩

end Sys2Proof.Machine
end

section
/-! PROOFS. 44_external_interface: the decoder in step with the encoder, code by code and then byte by byte, the results of
`encode` and `decode`, and the statements about them. -/

namespace Sys2Proof.Machine

/-! ### The decoder on a list of codes (43_decoder R116, 30_encoding R58) -/

/-- Read one after another from state `s`, each at the width that the decoder holds then and whatever else is buffered, the
codes of a list of pairs lead to a state of `Q`. -/
def DecodesPairs (Q : State → Prop) : List (Nat × Code) → State → Prop
  | [], s => Q s
  | p :: ps, s => s.state = .decActive ∧ s.w = p.1 ∧ ∀ u : Unpacker, u.ok →
      ∃ m, decodeOne p.2 { s with ub := u } = .next m ∧ (m.state = .decActive → m.ub = u) ∧ DecodesPairs Q ps m

/-- The decoder on the bytes `bs`: the codes that are buffered already, and then one DEC_BYTE for each byte. -/
def decodeStream (bs : List Byte) (s : State) : Result :=
  andThen (decodeLoop (s.ub.n + 1) s) (runCommands (bs.map fun b => cmdWordOf (.decByte b)))

section Stream

variable {s m t : State} {c : Code} {u v : Unpacker} {bs rest : List Byte}

theorem decodeStream_nil_of_over (h : s.state ≠ .decActive) : decodeStream [] s = .next s := by
  rw [decodeStream, decodeLoop_of_over h, andThen_next]
  rfl

theorem decodeStream_of_wait (hs : s.state = .decActive) (hn : s.ub.n < s.w) (bs : List Byte) :
    decodeStream bs s = runCommands (bs.map fun b => cmdWordOf (.decByte b)) s := by
  rw [decodeStream, decodeLoop_of_wait hs ((Unpacker.read_eq_none_iff _ _).mpr hn), andThen_next]

theorem decodeStream_cons_of_wait (hs : s.state = .decActive) (hn : s.ub.n < s.w) (b : Byte) (bs : List Byte) :
    decodeStream (b :: bs) s = decodeStream bs (pushByte b s) := by
  rw [decodeStream_of_wait hs hn, List.map_cons, runCommands, runCommand_cmdWordOf rfl rfl, exec_decByte_of_active hs]
  rfl

/-- A buffered code is decoded first; the depth that is left is enough for the rest. -/
theorem decodeStream_of_code (hs : s.state = .decActive) (hw : 0 < s.w) (hr : s.ub.read s.w = some (c, u))
    (hm : decodeOne c { s with ub := u } = .next m) (h : decodeStream bs m = .next t) : decodeStream bs s = .next t := by
  obtain ⟨p, hp, hbs⟩ := andThen_eq_next.mp h
  obtain ⟨k, hk⟩ := decodesTo_of_decodeLoop hp
  obtain ⟨hle, hn⟩ := Unpacker.read_n hr
  have hub : m.ub.n ≤ u.n := ub_le_of_decodeOne hm
  refine andThen_eq_next.mpr ⟨p, ?_, hbs⟩
  rw [decodeLoop_of_code hs hr, hm, andThen_next]
  exact decodeLoop_of_decodesTo hk (by omega)

/-- The next code is buffered already, or a byte is pushed first. -/
theorem readNext_cases {w : Nat} (hr : readNext w bs u = some (c, rest, v)) :
    u.read w = some (c, v) ∧ rest = bs ∨
      u.n < w ∧ ∃ b bs', bs = b :: bs' ∧ readNext w bs' (u.pushByte b) = some (c, rest, v) := by
  by_cases hn : u.n < w
  · cases bs with
    | nil =>
      unfold readNext at hr
      simp [(Unpacker.read_eq_none_iff u w).mpr hn] at hr
    | cons b bs => exact .inr ⟨hn, b, bs, rfl, by rwa [readNext_cons_of_lt hn] at hr⟩
  · obtain ⟨c', v', hr'⟩ := Unpacker.exists_read_of_le (not_lt.mp hn)
    cases (readNext_of_read hr' bs).symm.trans hr
    exact .inl ⟨hr', rfl⟩

theorem readNext_ok {w : Nat} (hw : w ≤ 12) (hu : u.ok) (hr : readNext w bs u = some (c, rest, v)) : v.ok := by
  induction bs generalizing u with
  | nil =>
    obtain ⟨hread, -⟩ | ⟨-, _, _, hcons, -⟩ := readNext_cases hr
    · exact Unpacker.read_ok hw hu hread
    · cases hcons
  | cons b bs ih =>
    obtain ⟨hread, -⟩ | ⟨hn, _, _, hcons, hnext⟩ := readNext_cases hr
    · exact Unpacker.read_ok hw hu hread
    · cases hcons
      obtain ⟨-, -, hpush⟩ := Unpacker.pushByte_spec b (show u.n ≤ 11 by omega) hu.2
      exact ih hpush hnext

/-- The next code of the stream is decoded as soon as its bytes are there. -/
theorem decodeStream_of_readNext (hs : s.state = .decActive) (hw : 0 < s.w)
    (hr : readNext s.w bs s.ub = some (c, rest, v)) (hm : decodeOne c { s with ub := v } = .next m)
    (h : decodeStream rest m = .next t) : decodeStream bs s = .next t := by
  induction bs generalizing s with
  | nil =>
    obtain ⟨hread, rfl⟩ | ⟨-, _, _, hcons, -⟩ := readNext_cases hr
    · exact decodeStream_of_code hs hw hread hm h
    · cases hcons
  | cons b bs ih =>
    obtain ⟨hread, rfl⟩ | ⟨hn, _, _, hcons, hnext⟩ := readNext_cases hr
    · exact decodeStream_of_code hs hw hread hm h
    · cases hcons
      rw [decodeStream_cons_of_wait hs hn]
      exact ih (s := pushByte b s) hs hw hnext hm

/-- Where the unpacker reads the codes of the pairs off the bytes, DEC_BYTE for each byte decodes those codes. -/
theorem decodeStream_of_decodesPairs {Q : State → Prop} (hQ : ∀ t, Q t → t.state ≠ .decActive)
    {ps : List (Nat × Code)} (hps : pairsLegal ps) (h : DecodesPairs Q ps s) (hu : u.ok)
    (hsu : s.state = .decActive → s.ub = u) (hr : readAll (ps.map Prod.fst) bs u = some (ps.map Prod.snd, [], v)) :
    ∃ t, decodeStream bs s = .next t ∧ Q t := by
  induction ps generalizing s bs u with
  | nil =>
    cases hr
    exact ⟨s, decodeStream_nil_of_over (hQ s h), h⟩
  | cons p ps ih =>
    obtain ⟨⟨hw1, hw, -⟩, hps⟩ := List.forall_mem_cons.mp hps
    obtain ⟨hs, hsw, hcode⟩ := h
    rw [List.map_cons, List.map_cons, readAll] at hr
    split at hr
    · cases hr
    · rename_i c rest z hz
      split at hr
      · cases hr
      · rename_i hall
        cases hr
        have hzok := readNext_ok hw hu hz
        obtain ⟨m, hm, hmu, hnext⟩ := hcode z hzok
        obtain ⟨t, ht, hQt⟩ := ih hps hnext hzok hmu hall
        rw [← hsu hs, ← hsw] at hz
        exact ⟨t, decodeStream_of_readNext hs (hsw ▸ hw1) hz hm ht, hQt⟩

end Stream

/-! ### The decoder in step with the encoder (43_decoder R131) -/

/-- The symbols `q` are those that `current` stands for: none when it is empty. -/
def State.Holds (e : State) (q : List Sym) : Prop := if e.curV then e.seq e.cur = some q else q = []

/-- Between two commands of the encoder `e`, the decoder `d` has read every code that was emitted; `current` stands for the
symbols `q`, which it has not put out yet. Its table is the encoder's without the newest entry: `previous` and the first
symbol of `q`. Without a `previous` both tables are empty. -/
structure InStep (e d : State) (q : List Sym) : Prop where
  enc : e.Inv
  encActive : e.state = .encActive
  dec : LoopInv d
  decActive : d.state = .decActive
  root : d.r = e.r
  width : d.w = e.w
  holds : e.Holds q
  table : d.prevV = false ∧ e.n = firstCode e.r ∨
    d.prevV = true ∧ e.n = d.n + 1 ∧ ∃ f p, q = f :: p ∧ e.dict = d.dict.insert d.n ⟨d.prev, f⟩

/-- The decoder `d` has read the code of `current`, which the encoder `e` has not replaced yet: the tables are the same, and
the widths are when the encoder updates its own. -/
structure CaughtUp (e d : State) : Prop where
  enc : e.Inv
  encActive : e.state = .encActive
  curV : e.curV = true
  dec : LoopInv d
  decActive : d.state = .decActive
  root : d.r = e.r
  width : d.w = e.eoiWidth
  next : d.n = e.n
  dict : d.dict = e.dict
  prevV : d.prevV = true
  prev : d.prev = e.cur

theorem State.holds_iff_of_cur {e : State} (hc : e.curV = true) (q : List Sym) : e.Holds q ↔ e.seq e.cur = some q := by
  rw [State.Holds, if_pos hc]

theorem State.holds_iff_of_empty {e : State} (hc : e.curV = false) (q : List Sym) : e.Holds q ↔ q = [] := by
  rw [State.Holds, hc]
  rfl

/-- A state with the literal `x` as `current` stands for that symbol. -/
theorem State.holds_literal {e : State} {x : BitVec 12} (hc : e.curV = true) (hcur : e.cur = x) (hx : x.toNat < 2 ^ e.r) :
    e.Holds [symOperand x] := by
  rw [State.holds_iff_of_cur hc, hcur]
  exact State.seq_literal hx

section InStep

variable {e d : State} {q : List Sym}

theorem InStep.setUb (h : InStep e d q) {u : Unpacker} (hu : u.ok) : InStep e { d with ub := u } q :=
  ⟨h.enc, h.encActive, h.dec.setUb hu, h.decActive, h.root, h.width, h.holds, h.table⟩

theorem CaughtUp.setUb (h : CaughtUp e d) {u : Unpacker} (hu : u.ok) : CaughtUp e { d with ub := u } :=
  ⟨h.enc, h.encActive, h.curV, h.dec.setUb hu, h.decActive, h.root, h.width, h.next, h.dict, h.prevV, h.prev⟩

/-- With a `previous`, the encoder's table is the decoder's after the insertion that it is behind by. -/
theorem InStep.table_of_prev (h : InStep e d q) (hp : d.prevV = true) : e.n = d.n + 1 ∧ e.n < 4096 ∧
    ∃ f p, q = f :: p ∧ e.dict = (dictWrite d.n ⟨d.prev, f⟩ d).dict := by
  obtain ⟨hpf, -⟩ | ⟨-, hn, f, p, hq, hdict⟩ := h.table
  · exact nomatch hp.symm.trans hpf
  · obtain ⟨-, (hlt : e.n < 4096), -⟩ := h.enc.encoder h.encActive
    refine ⟨hn, hlt, f, p, hq, ?_⟩
    rw [hdict, dictWrite_of_lt (by simp only [Config.codes]; omega)]

theorem InStep.table_of_first (h : InStep e d q) (hp : d.prevV = false) :
    e.n = firstCode e.r ∧ d.n = firstCode d.r := by
  obtain ⟨-, hn⟩ | ⟨hpt, -⟩ := h.table
  · exact ⟨hn, h.dec.none h.decActive hp⟩
  · exact nomatch hp.symm.trans hpt

/-- While the decoder has a `previous`, the code of `current` runs with the sequence that it denotes for the encoder: an
older code denotes the same on both sides, and the newest is the fallback's (43_decoder R123, R131). -/
theorem InStep.decodeOne_cur_of_prev (h : InStep e d q) (hc : e.curV = true) (hp : d.prevV = true) :
    decodeOne e.cur d = decodeRun (some q) e.cur d := by
  obtain ⟨hn, hlt, f, p, rfl, hdict⟩ := h.table_of_prev hp
  obtain ⟨-, -, -, -, hrun, -⟩ := h.enc.encoder h.encActive
  obtain ⟨-, -, -, hfirst, -⟩ := h.dec.active h.decActive
  have hmin : min e.n Config.codes = min (d.n + 1) Config.codes := by rw [hn]
  have hseq := (State.holds_iff_of_cur hc _).mp h.holds
  have hprev := (h.dec.prev h.decActive hp).denotes
  obtain ⟨hkwk, hold⟩ := runCode_at_decoder (hrun hc) (by rw [hn, ← h.root]; omega) hlt.le
  have hctx : (⟨e.r, e.n - 1, true⟩ : CodeContext) = d.codeContext := by
    rw [State.codeContext, h.root, hp, hn, Nat.add_sub_cancel]
  rw [hctx] at hkwk hold
  rw [decodeOne_eq_exec]
  by_cases hnew : e.cur.toNat = e.n - 1
  · obtain ⟨g, p', hg⟩ := State.seq_nonempty h.dec.listed h.dec.entries hprev
    have hcur : e.cur = BitVec.ofNat 12 d.n := by
      rw [show d.n = e.cur.toNat by omega, BitVec.ofNat_toNat, BitVec.setWidth_eq]
    have hroom : d.n < Config.codes := by simp only [Config.codes]; omega
    rw [hcur, seq_inserted h.dec.listed h.root.symm hdict hmin hfirst hroom h.dec.entries h.enc.entries hprev, hg] at hseq
    cases hseq
    rw [decodeCode_of_classify (hkwk hnew), codeInstr, exec_kwk_of_prev _ hp, State.fallback_of_seq hg]
    rfl
  · have hsame : d.denotes e.cur → d.seq e.cur = some (f :: p) := fun hden =>
      (seq_after_insert h.dec.listed h.root.symm hdict hmin hfirst h.dec.entries h.enc.entries hden).symm.trans hseq
    obtain hlit | hdic := hold hnew
    · have hlt : e.cur.toNat < clrCode d.r := classify_lit.mp hlit
      rw [decodeCode_of_classify hlit, codeInstr, exec_lit_of_later _ hp, ← State.seq_literal hlt, hsame (.inl hlt)]
    · rw [decodeCode_of_classify hdic, codeInstr, exec_dic_of_prev _ hp, hsame (.inr (classify_dic.mp hdic))]

/-- The first code of an epoch is a literal, which the decoder puts out (43_decoder R120, R131). -/
theorem InStep.decodeOne_cur_of_first (h : InStep e d q) (hc : e.curV = true) (hp : d.prevV = false) :
    decodeOne e.cur d = .next (decodeEmit q e.cur d) := by
  obtain ⟨hn, hdn⟩ := h.table_of_first hp
  obtain ⟨-, -, -, -, hrun, -⟩ := h.enc.encoder h.encActive
  have hlit := runCode_first (hrun hc) hn false
  have hq := (State.holds_iff_of_cur hc q).mp h.holds
  rw [State.seq_literal (classify_lit.mp hlit)] at hq
  cases hq
  have hctx : d.codeContext = ⟨e.r, e.n, false⟩ := by rw [State.codeContext, hp, hdn, h.root, hn]
  rw [decodeOne_eq_exec, hctx, decodeCode_of_classify hlit, codeInstr, exec_lit_of_first _ hp]

/-- At the start of an epoch `N` is below the next width's first code, so EOI is as wide as the codes. -/
theorem State.Inv.eoiWidth_of_first (h : e.Inv) (hs : e.state = .encActive) (hn : e.n = firstCode e.r) :
    e.eoiWidth = e.w := by
  obtain ⟨hr, hw, -⟩ := h.active (.inl hs)
  have hpow : 2 ^ initialWidth e.r ≤ 2 ^ e.w := Nat.pow_le_pow_right Nat.two_pos hw
  have hroot := two_pow_root_bounds hr
  rw [initialWidth, pow_succ] at hpow
  rw [State.eoiWidth, if_neg (by rw [hn, firstCode]; omega)]

/-- A map that lists the codes below `FIRST` lists nothing. -/
theorem State.dictListsPresent.dict_of_first (hl : e.dictListsPresent) (hn : e.n = firstCode e.r) : e.dict = [] := by
  rw [State.dictListsPresent, hn, Nat.sub_eq_zero_of_le (min_le_left _ _)] at hl
  exact List.map_eq_nil_iff.mp hl

/-- The code of `current`: the decoder puts out the symbols that it stands for, and catches up with the encoder. -/
theorem InStep.decodeOne_cur (h : InStep e d q) (hc : e.curV = true) :
    ∃ m, decodeOne e.cur d = .next m ∧ CaughtUp e m ∧ m.ub = d.ub ∧ m.symOut = d.symOut ++ q := by
  obtain ⟨m, hm, hinv⟩ := loopInv_decodeOne h.dec h.decActive e.cur
  refine ⟨m, hm, ?_⟩
  cases hp : d.prevV with
  | false =>
    obtain ⟨hn, hdn⟩ := h.table_of_first hp
    cases (h.decodeOne_cur_of_first hc hp).symm.trans hm
    have hw : d.w = e.eoiWidth := by rw [h.enc.eoiWidth_of_first h.encActive hn, h.width]
    have hnext : d.n = e.n := by rw [hdn, h.root, hn]
    have hdict : d.dict = e.dict := by rw [h.enc.listed.dict_of_first hn, h.dec.listed.dict_of_first hdn]
    exact ⟨⟨h.enc, h.encActive, hc, hinv, h.decActive, h.root, hw, hnext, hdict, rfl, rfl⟩, rfl, rfl⟩
  | true =>
    obtain ⟨hn, hlt, f, p, rfl, hdict⟩ := h.table_of_prev hp
    rw [h.decodeOne_cur_of_prev hc hp, decodeRun_cons_eq, Nat.min_eq_left (show d.n + 1 ≤ 4096 by omega), ← hn] at hm
    cases hm
    have hpos := Nat.two_pow_pos e.w
    have hw : (if e.n = 2 ^ d.w - 1 then min 12 (d.w + 1) else d.w) = e.eoiWidth := by
      rw [h.width, State.eoiWidth]
      exact if_congr (by omega) rfl rfl
    exact ⟨⟨h.enc, h.encActive, hc, hinv, h.decActive, h.root, hw, rfl, hdict.symm, rfl, rfl⟩, rfl, rfl⟩

/-- ENC_SYM with an empty `current` emits nothing. -/
theorem InStep.encSym_of_empty (h : InStep e d q) (hc : e.curV = false) {x : BitVec 12} (hx : x.toNat < 2 ^ e.r) :
    InStep (encodeSymbol x e) d (q ++ [symOperand x]) := by
  have hinv := inv_encodeSymbol h.enc h.encActive hx
  obtain rfl := (State.holds_iff_of_empty hc q).mp h.holds
  rw [encodeSymbol_of_empty hc] at hinv ⊢
  obtain ⟨hp, hn⟩ | ⟨-, -, f, p, hfp, -⟩ := h.table
  · exact ⟨hinv, h.encActive, h.dec, h.decActive, h.root, h.width, State.holds_literal rfl rfl hx, .inl ⟨hp, hn⟩⟩
  · exact nomatch hfp

/-- ENC_SYM with a known candidate emits nothing, and the candidate's code denotes one symbol more (41_dictionary R97). -/
theorem InStep.encSym_of_hit (h : InStep e d q) (hc : e.curV = true) {x : BitVec 12} (hx : x.toNat < 2 ^ e.r) {k : Code}
    (hk : e.camSearch e.cur (symOperand x) = some k) : InStep (encodeSymbol x e) d (q ++ [symOperand x]) := by
  have hinv := inv_encodeSymbol h.enc h.encActive hx
  obtain ⟨hm, hlt, -⟩ := h.enc.encoder h.encActive
  have hseq := (State.holds_iff_of_cur hc q).mp h.holds
  rw [encodeSymbol_of_hit hc hk] at hinv ⊢
  refine ⟨hinv, h.encActive, h.dec, h.decActive, h.root, h.width, ?_, ?_⟩
  · have hsame := State.seq_congr (s := { e with cur := k }) (t := e) rfl rfl rfl k
    have hkseq := (searchFindsTheCodeOfTheCandidate e e.cur k _ q h.enc hm hlt hseq).mp hk
    exact (State.holds_iff_of_cur (e := { e with cur := k }) hc _).mpr (hsame.trans hkseq)
  · obtain hfirst | ⟨hp, hn, f, p, rfl, hdict⟩ := h.table
    · exact .inl hfirst
    · exact .inr ⟨hp, hn, f, p ++ [symOperand x], rfl, hdict⟩

/-- ENC_SYM that misses with room in the table inserts the entry that the decoder is behind by, at the width that the
decoder has gone to. -/
theorem CaughtUp.encSym_of_room (h : CaughtUp e d) {x : BitVec 12} (hx : x.toNat < 2 ^ e.r)
    (hk : e.camSearch e.cur (symOperand x) = none) (hroom : ¬ (e.n + 1 = 2 ^ e.w ∧ e.w = 12)) :
    InStep (encodeSymbol x e) d [symOperand x] := by
  have hinv := inv_encodeSymbol h.enc h.encActive hx
  obtain ⟨-, hlt, -⟩ := h.enc.encoder h.encActive
  obtain ⟨-, -, hw, -⟩ := h.enc.active (.inl h.encActive)
  rw [encodeSymbol_of_miss h.curV hk, encodeWidthStep_of_room x (by rwa [encodeMiss_n, encodeMiss_w]), encodeMiss_eq,
    dictWrite_of_lt hlt] at hinv ⊢
  refine ⟨hinv, h.encActive, h.dec, h.decActive, h.root, ?_, State.holds_literal h.curV rfl hx,
    .inr ⟨h.prevV, ?_, symOperand x, [], rfl, ?_⟩⟩
  · have hwidth : e.eoiWidth = if e.n + 1 = 2 ^ e.w then e.w + 1 else e.w := by
      rw [State.eoiWidth]
      split
      · exact Nat.min_eq_right (by simp only [Config.maxw]; omega)
      · rfl
    exact h.width.trans hwidth
  · rw [h.next]
  · rw [h.next, h.prev, h.dict]

/-- The Clear Code resets the decoder's stream (43_decoder R118). -/
theorem decodeOne_clr (hr : rootOk e.r) (hroot : d.r = e.r) :
    decodeOne e.clr d = .next { streamReset d with prevV := false, prev := 0 } := by
  have hclr : classify d.codeContext e.clr.toNat = .CLR := by
    rw [classify_clr, State.clr_toNat hr]
    exact congrArg clrCode hroot.symm
  rw [decodeOne_eq_exec, decodeCode_of_classify hclr]
  rfl

/-- EOI ends the decoder's session (43_decoder R119). -/
theorem decodeOne_eoi (hr : rootOk e.r) (hroot : d.r = e.r) :
    decodeOne e.eoi d = .next { d with ub := ⟨0, 0⟩, state := .done } := by
  have heoi : classify d.codeContext e.eoi.toNat = .EOI := by
    rw [classify_eoi, State.eoi_toNat hr]
    exact congrArg eoiCode hroot.symm
  rw [decodeOne_eq_exec, decodeCode_of_classify heoi]
  rfl

/-- ENC_SYM that fills the table emits a Clear Code after the code of `current`, and both sides begin an epoch
(42_encoder R106). -/
theorem CaughtUp.encSym_of_full (h : CaughtUp e d) {x : BitVec 12} (hx : x.toNat < 2 ^ e.r)
    (hk : e.camSearch e.cur (symOperand x) = none) (hn : e.n + 1 = 2 ^ e.w) (hw : e.w = 12) :
    InStep (encodeSymbol x e) { streamReset d with prevV := false, prev := 0 } [symOperand x] := by
  have hinv := inv_encodeSymbol h.enc h.encActive hx
  obtain ⟨m, hm, hdinv⟩ := loopInv_decodeOne h.dec h.decActive e.clr
  rw [decodeOne_clr (h.enc.active (.inl h.encActive)).1 h.root] at hm
  cases hm
  rw [encodeSymbol_of_miss h.curV hk, encodeWidthStep_of_full x (by rwa [encodeMiss_n, encodeMiss_w])
    (by rwa [encodeMiss_w]), overflowReset_eq, encodeMiss_eq] at hinv ⊢
  exact ⟨hinv, h.encActive, hdinv, h.decActive, h.root, congrArg initialWidth h.root, State.holds_literal rfl rfl hx,
    .inl ⟨rfl, rfl⟩⟩

/-! ### The pairs of a session (44_external_interface R135) -/

/-- A decode session that has ended with the symbols `out` in its stream. -/
def Delivered (out : List Sym) (t : State) : Prop := t.state = .done ∧ t.mode = .dec ∧ t.symOut = out

variable {Q : State → Prop} {ps : List (Nat × Code)} {x : BitVec 12}

theorem InStep.decodesPairs_cur (h : InStep e d q) (hc : e.curV = true)
    (hnext : ∀ m, CaughtUp e m → m.symOut = d.symOut ++ q → DecodesPairs Q ps m) :
    DecodesPairs Q ((e.w, e.cur) :: ps) d := by
  refine ⟨h.decActive, h.width, fun u hu => ?_⟩
  obtain ⟨m, hm, hcaught, hub, hout⟩ := (h.setUb hu).decodeOne_cur hc
  exact ⟨m, hm, fun _ => hub, hnext m hcaught hout⟩

theorem decodesPairs_eoi (hr : rootOk e.r) (hs : d.state = .decActive) (hm : d.mode = .dec) (hroot : d.r = e.r)
    (hw : d.w = e.eoiWidth) : DecodesPairs (Delivered d.symOut) [(e.eoiWidth, e.eoi)] d :=
  ⟨hs, hw, fun u _ => ⟨_, decodeOne_eoi (d := { d with ub := u }) hr hroot, (nomatch ·), rfl, hm, rfl⟩⟩

theorem State.symbolPairs_of_hit (hc : e.curV = true) {k : Code} (hk : e.camSearch e.cur (symOperand x) = some k) :
    e.symbolPairs x = [] := by
  rw [State.symbolPairs, State.lookupByPrefix, if_pos hc, hk]

theorem State.symbolPairs_of_miss (hc : e.curV = true) (hk : e.camSearch e.cur (symOperand x) = none) :
    e.symbolPairs x = (e.w, e.cur) :: if e.n + 1 = 2 ^ e.w ∧ e.w = 12 then [(12, e.clr)] else [] := by
  rw [State.symbolPairs, State.lookupByPrefix, if_pos hc, hk]

/-- One ENC_SYM: the decoder reads the pairs that it emits and is in step again, one symbol later. -/
theorem InStep.decodesPairs_symbol (h : InStep e d q) (hx : x.toNat < 2 ^ e.r)
    (hnext : ∀ m p, InStep (encodeSymbol x e) m p → m.symOut ++ p = d.symOut ++ (q ++ [symOperand x]) →
      DecodesPairs Q ps m) :
    DecodesPairs Q (e.symbolPairs x ++ ps) d := by
  cases hc : e.curV with
  | false =>
    rw [State.symbolPairs_of_empty hc]
    exact hnext d _ (h.encSym_of_empty hc hx) rfl
  | true =>
    cases hk : e.camSearch e.cur (symOperand x) with
    | some k =>
      rw [State.symbolPairs_of_hit hc hk]
      exact hnext d _ (h.encSym_of_hit hc hx hk) rfl
    | none =>
      rw [State.symbolPairs_of_miss hc hk]
      refine h.decodesPairs_cur hc fun m hm hout => ?_
      rw [← List.append_assoc, ← hout] at hnext
      split
      · rename_i hfull
        obtain ⟨hn, hw⟩ := hfull
        obtain ⟨hr, -⟩ := h.enc.active (.inl h.encActive)
        have hmw : m.w = 12 := by rw [hm.width, State.eoiWidth, if_pos hn, hw]; rfl
        refine ⟨hm.decActive, hmw, fun u hu => ?_⟩
        exact ⟨_, decodeOne_clr (d := { m with ub := u }) hr hm.root, fun _ => rfl,
          hnext _ _ ((hm.setUb hu).encSym_of_full hx hk hn hw) rfl⟩
      · exact hnext m _ (hm.encSym_of_room hx hk ‹_›) rfl

/-- ENC_END: the decoder reads the last code, whose insertion takes it to the width of EOI (42_encoder R108). -/
theorem InStep.decodesPairs_finalPairs (h : InStep e d q) : DecodesPairs (Delivered (d.symOut ++ q)) e.finalPairs d := by
  obtain ⟨hr, -⟩ := h.enc.active (.inl h.encActive)
  rw [State.finalPairs]
  split
  · refine h.decodesPairs_cur ‹_› fun m hm hout => ?_
    rw [← hout]
    exact decodesPairs_eoi hr hm.decActive (hm.dec.mode hm.decActive) hm.root hm.width
  · have hc : e.curV = false := eq_false_of_ne_true ‹_›
    obtain ⟨-, -, -, -, -, hempty⟩ := h.enc.encoder h.encActive
    rw [(State.holds_iff_of_empty hc q).mp h.holds, List.append_nil]
    exact decodesPairs_eoi hr h.decActive (h.dec.mode h.decActive) h.root
      (h.width.trans (h.enc.eoiWidth_of_first h.encActive (hempty hc)).symm)

theorem InStep.decodesPairs_symbols {xs : List (BitVec 12)} (h : InStep e d q) (hx : ∀ x ∈ xs, x.toNat < 2 ^ e.r) :
    DecodesPairs (Delivered (d.symOut ++ q ++ xs.map symOperand))
      (State.symbolsPairs xs e ++ (encodeSymbols xs e).finalPairs) d := by
  induction xs generalizing e d q with
  | nil =>
    rw [List.map_nil, List.append_nil]
    exact h.decodesPairs_finalPairs
  | cons x xs ih =>
    obtain ⟨hx, hxs⟩ := List.forall_mem_cons.mp hx
    rw [State.symbolsPairs, List.append_assoc (e.symbolPairs x)]
    refine h.decodesPairs_symbol hx fun m p hm hout => ?_
    have hrest := ih hm (by rwa [encodeSymbol_r])
    rwa [hout, ← List.append_assoc, List.append_assoc _ [_]] at hrest

end InStep

/-- Both sides of a session begin an epoch: after the first Clear Code the decoder is in step. -/
theorem inStep_start {r : BitVec 4} (hr : rootOk r.toNat) (s t : State) {u : Unpacker} (hu : u.ok) :
    InStep (startEncode r s)
      { streamReset { beginStream .dec .decActive r t with ub := u } with prevV := false, prev := 0 } [] := by
  have hd := inv_beginStream t hr (.inr ⟨rfl, rfl⟩)
  exact ⟨inv_startEncode s hr, rfl, hd.loopInv.setUb hu, rfl, rfl, rfl, rfl, .inl ⟨rfl, rfl⟩⟩

/-- A decode session reads the pairs of an encode session as its symbols. -/
theorem decodesPairs_session {r : BitVec 4} (hr : rootOk r.toNat) {xs : List (BitVec 12)}
    (hx : ∀ x ∈ xs, x.toNat < 2 ^ r.toNat) (s t : State) :
    DecodesPairs (Delivered (t.symOut ++ xs.map symOperand)) (sessionPairs r xs s) (beginStream .dec .decActive r t) := by
  rw [sessionPairs, List.append_assoc]
  refine ⟨rfl, rfl, fun u hu => ?_⟩
  have hstart := (inStep_start hr s t hu).decodesPairs_symbols hx
  rw [List.append_nil] at hstart
  exact ⟨_, decodeOne_clr (e := startEncode r s) (d := { beginStream .dec .decActive r t with ub := u }) hr rfl,
    fun _ => rfl, hstart⟩

/-! ### The result of `decode` (44_external_interface R133, R135) -/

section Session

variable {r : BitVec 4} {bs : List Byte}

theorem runCommands_decodeSession (hr : rootOk r.toNat) (bs : List Byte) (s : State) :
    runCommands (decodeSession r bs) s =
      andThen (runCommands (bs.map fun b => cmdWordOf (.decByte b)) (beginStream .dec .decActive r s)) (exec .decEnd) := by
  rw [decodeSession, List.cons_append, runCommands, runCommand_cmdWordOf rfl rfl, exec_startDec_of_legal hr, andThen_next,
    runCommands_append]
  congr 1
  funext t
  rw [runCommands, runCommand_cmdWordOf rfl rfl]
  cases exec .decEnd t <;> rfl

/-- Where the unpacker reads the codes of the pairs off the bytes and the decoder delivers `out` for those codes, `decode`
answers `out`. -/
theorem decodeFn_of_decodesPairs (hr : rootOk r.toNat) (s : State) {ps : List (Nat × Code)} (hps : pairsLegal ps)
    {v : Unpacker} (hread : readAll (ps.map Prod.fst) bs ⟨0, 0⟩ = some (ps.map Prod.snd, [], v)) {out : List Sym}
    (h : DecodesPairs (Delivered (s.symOut ++ out)) ps (beginStream .dec .decActive r s)) : decodeFn r bs s = .ok out := by
  have hover : ∀ t, Delivered (s.symOut ++ out) t → t.state ≠ .decActive := fun t ht => by simp [ht.1]
  obtain ⟨t, ht, hdone, hmode, hout⟩ :=
    decodeStream_of_decodesPairs (u := ⟨0, 0⟩) hover hps h (by decide) (fun _ => rfl) hread
  rw [decodeStream_of_wait rfl (Nat.succ_pos _)] at ht
  rw [decodeFn, runCommands_decodeSession hr, ht, andThen_next, exec_decEnd_of_done hdone hmode]
  dsimp only
  rw [sessionResult_of_done State.symOut s hdone, hout, List.drop_left]

end Session

/-- Settles O60: the unpacker reads the packed pairs back, and the decoder, in step with the encoder, delivers for their
codes the symbols that were encoded. -/
theorem decodeOfEncodeIsTheInput : Obligations.DecodeOfEncodeIsTheInput := by
  intro r xs s t h2 h10 hx
  have hr : rootOk r.toNat := ⟨h2, h10⟩
  have hlegal := pairsLegal_sessionPairs s hr hx
  obtain ⟨v, hread, -⟩ := unpackerReadsBackWhatThePackerWrote _ hlegal
  have hdecode := decodeFn_of_decodesPairs hr t hlegal hread (decodesPairs_session hr hx s t)
  simp only [← symOperand_eq]
  exact ⟨_, encodeFn_eq_packed s hr hx, hdecode⟩

/-- The empty session emits a Clear Code and EOI, both at `W0`. -/
theorem sessionPairs_nil {r : BitVec 4} (hr : rootOk r.toNat) (s : State) : sessionPairs r [] s =
    [(r.toNat + 1, BitVec.ofNat 12 (2 ^ r.toNat)), (r.toNat + 1, BitVec.ofNat 12 (2 ^ r.toNat + 1))] := by
  have hw : (startEncode r s).eoiWidth = r.toNat + 1 := (inv_startEncode s hr).eoiWidth_of_first rfl rfl
  calc sessionPairs r [] s
    _ = [(r.toNat + 1, BitVec.ofNat 12 (2 ^ r.toNat)),
          ((startEncode r s).eoiWidth, BitVec.ofNat 12 (2 ^ r.toNat + 1))] := rfl
    _ = _ := by rw [hw]

/-- Settles O59: the bytes are the two pairs packed (O58), and decoding them is the round trip (O60). -/
theorem emptyInputIsAClearCodeAndEoi : Obligations.EmptyInputIsAClearCodeAndEoi := by
  intro r s t h2 h10
  obtain ⟨bs, henc, hdec⟩ := decodeOfEncodeIsTheInput r [] s t h2 h10 (fun _ h => nomatch h)
  obtain ⟨_, bs', -, -, henc', -, hvalue, hlen, -⟩ := sessionBytesAreItsPackedPairs r [] s h2 h10 (fun _ h => nomatch h)
  cases henc.symm.trans henc'
  rw [sessionPairs_nil ⟨h2, h10⟩] at hvalue hlen
  have hclr : (BitVec.ofNat 12 (2 ^ r.toNat)).toNat = 2 ^ r.toNat := toNat_ofNat_two_pow_add h10 (Nat.zero_le 1)
  have heoi : (BitVec.ofNat 12 (2 ^ r.toNat + 1)).toNat = 2 ^ r.toNat + 1 := toNat_ofNat_two_pow_add h10 le_rfl
  refine ⟨bs, henc, ?_, ?_, hdec⟩
  · rw [hlen]
    simp only [pairsWidth]
    omega
  · rw [hvalue]
    simp only [pairsValue, hclr, heoi]
    ring

/-! ### Sessions that fail (44_external_interface R132, R133, 60_exceptions R148, R149) -/

theorem runCommands_of_ignored {ws : List CmdWord} {s : State} (h : ∀ w ∈ ws, runCommand w s = .next s) :
    runCommands ws s = .next s := by
  induction ws with
  | nil => rfl
  | cons w ws ih =>
    obtain ⟨hw, hws⟩ := List.forall_mem_cons.mp h
    rw [runCommands, hw, andThen_next, ih hws]

theorem sessionResult_of_error {α : Type} (out : State → List α) (s : State) {t : State} (h : t.state = .error) :
    sessionResult out s t = .err t.err := by
  rw [sessionResult, h]

section Fail

variable {s : State} {r : BitVec 4}

/-- In ERROR the commands of a session after its START are ignored (60_exceptions R149). -/
theorem encCommand_of_error (h : s.state = .error) (cmd : CmdWord) (k : State → Result) :
    encCommand cmd k s = .next s :=
  unlessError_of_error h

theorem decCommand_of_error (h : s.state = .error) (cmd : CmdWord) (k : State → Result) :
    decCommand cmd k s = .next s :=
  unlessError_of_error h

theorem runCommands_encode_of_error (h : s.state = .error) (xs : List (BitVec 12)) :
    runCommands ((xs.map fun x => cmdWordOf (.encSym x)) ++ [cmdWordOf .encEnd]) s = .next s := by
  refine runCommands_of_ignored (List.forall_mem_append.mpr ⟨List.forall_mem_map.mpr fun x _ => ?_,
    List.forall_mem_singleton.mpr ?_⟩)
  · rw [runCommand_cmdWordOf rfl rfl, exec, execEncSym, encCommand_of_error h]
  · rw [runCommand_cmdWordOf rfl rfl, exec, execEncEnd, encCommand_of_error h]

theorem exec_decByte_of_error (h : s.state = .error) (b : Byte) : exec (.decByte b) s = .next s := by
  rw [exec, execDecByte, decCommand_of_error h]

theorem exec_decEnd_of_error (h : s.state = .error) : exec .decEnd s = .next s := by
  rw [exec, execDecEnd, decCommand_of_error h]

theorem runCommands_decode_of_error (h : s.state = .error) (bs : List Byte) :
    runCommands ((bs.map fun b => cmdWordOf (.decByte b)) ++ [cmdWordOf .decEnd]) s = .next s := by
  refine runCommands_of_ignored (List.forall_mem_append.mpr ⟨List.forall_mem_map.mpr fun b _ => ?_,
    List.forall_mem_singleton.mpr ?_⟩)
  · rw [runCommand_cmdWordOf rfl rfl, exec_decByte_of_error h]
  · rw [runCommand_cmdWordOf rfl rfl, exec_decEnd_of_error h]

/-- A START with an illegal root size fails, and the session with it. -/
theorem encodeFn_of_illegal (hr : ¬ rootOk r.toNat) (xs : List (BitVec 12)) (s : State) :
    encodeFn r xs s = .err .invalidRootSize := by
  rw [encodeFn, encodeSession, List.cons_append, runCommands, runCommand_cmdWordOf rfl rfl, exec, execStartEnc,
    startCommand_of_illegal hr, andThen_next, runCommands_encode_of_error rfl]
  rfl

theorem decodeFn_of_illegal (hr : ¬ rootOk r.toNat) (bs : List Byte) (s : State) :
    decodeFn r bs s = .err .invalidRootSize := by
  rw [decodeFn, decodeSession, List.cons_append, runCommands, runCommand_cmdWordOf rfl rfl, exec, execStartDec,
    startCommand_of_illegal hr, andThen_next, runCommands_decode_of_error rfl]
  rfl

theorem exec_encSym_of_invalid (hs : s.state = .encActive) {x : BitVec 12} (hx : ¬ x.toNat < 2 ^ s.r) :
    exec (.encSym x) s = .next (raise .invalidSymbol (x.setWidth 16) s) := by
  rw [exec, execEncSym, encCommand_of_active hs, if_neg hx]

/-- The first symbol out of range stops the session, and what follows is ignored (60_exceptions R144). -/
theorem runCommands_encode_of_invalid {xs : List (BitVec 12)} (hs : s.state = .encActive)
    (hx : ∃ x ∈ xs, 2 ^ s.r ≤ x.toNat) :
    ∃ t, runCommands ((xs.map fun x => cmdWordOf (.encSym x)) ++ [cmdWordOf .encEnd]) s = .next t ∧
      t.state = .error ∧ t.err = .invalidSymbol := by
  induction xs generalizing s with
  | nil =>
    obtain ⟨_, h, -⟩ := hx
    exact nomatch h
  | cons y ys ih =>
    rw [List.map_cons, List.cons_append, runCommands, runCommand_cmdWordOf rfl rfl]
    by_cases hy : y.toNat < 2 ^ s.r
    · rw [exec_encSym_of_legal hs hy, andThen_next]
      refine ih ((encodeSymbol_state y s).trans hs) ?_
      obtain ⟨x, hmem, hle⟩ := hx
      have hne : x ≠ y := fun h => hy.not_ge (h ▸ hle)
      rw [encodeSymbol_r]
      exact ⟨x, (List.mem_cons.mp hmem).resolve_left hne, hle⟩
    · rw [exec_encSym_of_invalid hs hy, andThen_next, runCommands_encode_of_error rfl]
      exact ⟨_, rfl, rfl, rfl⟩

theorem encodeFn_of_invalid (hr : rootOk r.toNat) {xs : List (BitVec 12)} (hx : ∃ x ∈ xs, 2 ^ r.toNat ≤ x.toNat)
    (s : State) : encodeFn r xs s = .err .invalidSymbol := by
  obtain ⟨t, ht, hstate, herr⟩ := runCommands_encode_of_invalid (s := startEncode r s) rfl hx
  rw [encodeFn, encodeSession, List.cons_append, runCommands, runCommand_cmdWordOf rfl rfl, exec_startEnc_of_legal hr,
    andThen_next, ht]
  dsimp only
  rw [sessionResult_of_error _ _ hstate, herr]

end Fail

/-- Settles O56: by the root size and the first symbol out of range. -/
theorem encodeFailsOnlyOnAnInvalidSymbol : Obligations.EncodeFailsOnlyOnAnInvalidSymbol := fun _ xs s =>
  ⟨fun h2 h10 => ⟨fun hx => ⟨_, encodeFn_eq_packed s ⟨h2, h10⟩ hx⟩, fun hx => encodeFn_of_invalid ⟨h2, h10⟩ hx s⟩,
    fun hr => encodeFn_of_illegal hr xs s⟩

/-! ### `decode` is total (44_external_interface R133) -/

/-- What a decode session can have come to before DEC_END: it goes on, EOI was read, or a code was corrupt. -/
def DecodeUnderway (s : State) : Prop :=
  s.mode = .dec ∧ (s.state = .decActive ∨ s.state = .done ∨ s.state = .error ∧ s.err = .corruptCode)

theorem CodeEffect.decodeUnderway {c : Code} {s t : State} (h : CodeEffect c s t) (hs : s.state = .decActive)
    (hm : s.mode = .dec) : DecodeUnderway t := by
  cases h with
  | first => exact ⟨hm, .inl hs⟩
  | run => exact ⟨by simpa using hm, .inl (by simpa using hs)⟩
  | clr => exact ⟨hm, .inl hs⟩
  | eoi => exact ⟨hm, .inr (.inl rfl)⟩
  | corrupt => exact ⟨hm, .inr (.inr ⟨rfl, rfl⟩)⟩

theorem decodeByte_decodeUnderway {b : Byte} {s t : State} (hs : s.state = .decActive) (hm : s.mode = .dec)
    (h : decodeByte b s = .next t) : DecodeUnderway t :=
  (decodeLoop_induct (P := DecodeUnderway)
    (fun _ _ _ _ hp ha _ hc => (decodeOne_effect hc).decodeUnderway ha hp.1) _ (pushByte b s) t ⟨hm, .inl hs⟩ h).1

section Total

variable {s : State}

/-- DEC_BYTE completes in every state that a decode session can have come to. -/
theorem exec_decByte_completes (h : s.Inv) (hu : DecodeUnderway s) (b : Byte) :
    ∃ t, exec (.decByte b) s = .next t ∧ t.Inv ∧ DecodeUnderway t := by
  have ⟨hm, hstate⟩ := hu
  obtain hs | hs | ⟨hs, -⟩ := hstate
  · obtain ⟨t, ht, hinv⟩ := inv_decodeByte h hs b
    exact ⟨t, (exec_decByte_of_active hs b).trans ht, hinv, decodeByte_decodeUnderway hs hm ht⟩
  · exact ⟨s, exec_decByte_of_done hs hm b, h, hu⟩
  · exact ⟨s, exec_decByte_of_error hs b, h, hu⟩

theorem runCommands_decByte_completes (h : s.Inv) (hu : DecodeUnderway s) (bs : List Byte) :
    ∃ t, runCommands (bs.map fun b => cmdWordOf (.decByte b)) s = .next t ∧ DecodeUnderway t := by
  induction bs generalizing s with
  | nil => exact ⟨s, rfl, hu⟩
  | cons b bs ih =>
    obtain ⟨m, hm, hinv, hmu⟩ := exec_decByte_completes h hu b
    rw [List.map_cons, runCommands, runCommand_cmdWordOf rfl rfl, hm, andThen_next]
    exact ih hinv hmu

/-- DEC_END leaves the session in DONE or in ERROR. -/
theorem exec_decEnd_completes (hu : DecodeUnderway s) :
    ∃ t, exec .decEnd s = .next t ∧
      (t.state = .done ∨ t.state = .error ∧ (t.err = .corruptCode ∨ t.err = .truncatedStream)) := by
  obtain ⟨hm, hs | hs | ⟨hs, he⟩⟩ := hu
  · exact ⟨_, exec_decEnd_of_active hs, .inr ⟨rfl, .inr rfl⟩⟩
  · exact ⟨s, exec_decEnd_of_done hs hm, .inl hs⟩
  · exact ⟨s, exec_decEnd_of_error hs, .inr ⟨hs, .inl he⟩⟩

end Total

/-- Settles O57: every byte completes under the invariant, and DEC_END ends the session. -/
theorem decodeIsTotal : Obligations.DecodeIsTotal := by
  intro r bs s
  refine ⟨fun h2 h10 => ?_, fun hr => decodeFn_of_illegal hr bs s⟩
  have hr : rootOk r.toNat := ⟨h2, h10⟩
  obtain ⟨m, hm, hu⟩ := runCommands_decByte_completes (inv_beginStream s hr (.inr ⟨rfl, rfl⟩)) ⟨rfl, .inl rfl⟩ bs
  obtain ⟨t, ht, hend⟩ := exec_decEnd_completes hu
  rw [decodeFn, runCommands_decodeSession hr, hm, andThen_next, ht]
  dsimp only
  obtain hs | ⟨hs, he | he⟩ := hend
  · exact .inl ⟨_, sessionResult_of_done State.symOut s hs⟩
  · exact .inr (.inl (he ▸ sessionResult_of_error State.symOut s hs))
  · exact .inr (.inr (he ▸ sessionResult_of_error State.symOut s hs))

end Sys2Proof.Machine
end

section
/-! PROOFS. 60_exceptions R144 to R149: the statements about the errors that a command or a code raises, and about ERROR. -/

namespace Sys2Proof.Machine

open Sys2Proof.Statements

/-! ### Commands that are not accepted (60_exceptions R147, R149) -/

/-- Settles O15: a word that is not well formed raises the error before the state is asked, any other where its pipeline is
not active. -/
theorem unacceptedCommandsRaiseIllegalCommand : Obligations.UnacceptedCommandsRaiseIllegalCommand := by
  intro s w he h
  rw [everyCommandFollowsTheDispatchProcedure w s]
  by_cases hwf : commandWf w
  · obtain h | ⟨hop, hs⟩ | ⟨hop, hs, hd⟩ := h
    · exact absurd hwf h
    · rw [dispatch_of_enc s (by omega)]
      exact encCommand_of_other hs he
    · rw [dispatch_of_dec s (by omega)]
      exact decCommand_of_other hs he hd
  · rw [dispatch_of_not_wf s hwf]
    exact illegalCommand_of_ne he

theorem dispatch_of_error {s : State} {w : CmdWord} (hs : s.state = .error) (h : ¬ isStart w) : dispatch w s = .next s :=
  if_pos ⟨hs, h⟩

theorem raise_of_error {s : State} (hs : s.state = .error) (e : ErrCode) (info : BitVec 16) :
    raise e info s = { s with err := e, errInfo := info } := by
  rw [raise, ← hs]

/-- Settles O20, by the procedure's filter and its branch for a START. -/
theorem errorIsSticky : Obligations.ErrorIsSticky := by
  intro s w hs
  rw [everyCommandFollowsTheDispatchProcedure w s]
  refine ⟨dispatch_of_error hs, fun hst hr => ?_⟩
  have hroot : ¬ rootOk (BitVec.ofNat 4 (argOf w)).toNat := by rwa [BitVec.toNat_ofNat]
  rw [dispatch_of_start s hst, startCommand_of_illegal hroot, raise_of_error hs]

/-! ### Operands out of range (60_exceptions R144, R148) -/

theorem exec_startEnc_of_illegal {r : BitVec 4} (hr : ¬ rootOk r.toNat) (s : State) :
    exec (.startEnc r) s = .next (raise .invalidRootSize (cmdWordOf (.startEnc r)) s) := by
  rw [exec, execStartEnc, startCommand_of_illegal hr]

theorem exec_startDec_of_illegal {r : BitVec 4} (hr : ¬ rootOk r.toNat) (s : State) :
    exec (.startDec r) s = .next (raise .invalidRootSize (cmdWordOf (.startDec r)) s) := by
  rw [exec, execStartDec, startCommand_of_illegal hr]

/-- Settles O16: both STARTs test the root size before the state. -/
theorem illegalRootSizeIsRefusedInEveryState : Obligations.IllegalRootSizeIsRefusedInEveryState := by
  intro s r hr
  rw [← cmdWordOf_startEnc, ← cmdWordOf_startDec]
  exact ⟨exec_startEnc_of_illegal hr s, exec_startDec_of_illegal hr s⟩

/-- Settles O17: the symbol is tested before the encoder runs. -/
theorem outOfRangeSymbolFailsFast : Obligations.OutOfRangeSymbolFailsFast := by
  intro s x hs hx
  rw [exec_encSym_of_invalid hs hx.not_gt, BitVec.ofNat_toNat]
  rfl

/-! ### Corrupt codes (60_exceptions R146) -/

theorem classify_eq_bad_of_decodeCode {x : CodeContext} {c : Code} (h : decodeCode x c = .bad c) :
    classify x c.toNat = .BAD := by
  cases hk : classify x c.toNat with
  | BAD => rfl
  | LIT | CLR | EOI | DIC | KWK => cases (decodeCode_of_classify hk).symm.trans h

/-- A code is below 4096, so the class's bound `min(N, 4096)` is `N`. -/
theorem decodeCode_eq_bad_iff {x : CodeContext} {c : Code} : decodeCode x c = .bad c ↔
    firstCode x.r ≤ c.toNat ∧ x.n ≤ c.toNat ∧ ¬ (c.toNat = x.n ∧ x.prevV = true) := by
  have hmin : min x.n Config.codes ≤ c.toNat ↔ x.n ≤ c.toNat := by
    have : c.toNat < Config.codes := c.isLt
    omega
  rw [← hmin, ← classify_bad]
  exact ⟨classify_eq_bad_of_decodeCode, decodeCode_of_classify⟩

/-- Settles O19: with a `previous` the fallback `c = N` is no BAD and `FIRST ≤ N`, without one `N` is `FIRST` (10_state
R32). -/
theorem corruptCodeIsRecorded : Obligations.CorruptCodeIsRecorded := by
  refine fun s c => ⟨corruptCode_eq c s, fun h hs => decodeCode_eq_bad_iff.trans ?_⟩
  obtain ⟨-, -, -, hn, -⟩ := h.active (.inr hs)
  obtain ⟨-, -, -, hfirst, -⟩ := h.decoder hs
  change firstCode s.r ≤ c.toNat ∧ s.n ≤ c.toNat ∧ ¬ (c.toNat = s.n ∧ s.prevV = true) ↔
    s.prevV = true ∧ s.n < c.toNat ∨ s.prevV = false ∧ firstCode s.r ≤ c.toNat
  cases hp : s.prevV with
  | true =>
    simp only [reduceCtorEq, and_true, true_and, false_and, or_false]
    omega
  | false =>
    simp only [hfirst hp, Bool.false_eq_true, and_false, not_false_eq_true, and_true, and_self, true_and, false_and,
      false_or]

end Sys2Proof.Machine
end

section
/-! PROOFS. 70_reset_and_hazards R157, R158: what a session's commands do does not depend on the output that was delivered
before them, and the statements about hardware reset and about the state that a session starts from. -/

namespace Sys2Proof.Machine

open Sys2Proof.Statements

/-! ### Output delivered earlier (10_state R35)

No rule reads the two output streams or the host's later events, so whatever runs from `u` runs in the same way where `p`
has already output something. -/

/-- `u` on a CORE that has delivered the output of `p` before, with the events of `p` still to come. -/
def State.behind (u p : State) : State :=
  { u with byteOut := p.byteOut ++ u.byteOut, symOut := p.symOut ++ u.symOut, input := p.input }

section Behind

variable (p u : State)

/-! The operations that append to a stream. -/

theorem outBytes_behind (bs : List Byte) : outBytes bs (u.behind p) = (outBytes bs u).behind p := by
  simp only [outBytes, State.behind, List.append_assoc]

theorem pack_behind (c : Nat) (v : Code) : pack c v (u.behind p) = (pack c v u).behind p :=
  outBytes_behind p { u with pk := (u.pk.pack c v).1 } _

theorem decodeEmit_behind (q : List Sym) (c : Code) : decodeEmit q c (u.behind p) = (decodeEmit q c u).behind p := by
  simp only [decodeEmit, outSyms, State.behind, List.append_assoc]

/-! The write and the reads of the dictionary. -/

theorem dictWrite_behind (i : Nat) (e : DictEntry) : dictWrite i e (u.behind p) = (dictWrite i e u).behind p := by
  unfold dictWrite
  split <;> rfl

theorem seq_behind (c : Code) : (u.behind p).seq c = u.seq c :=
  State.seq_congr (s := u.behind p) (t := u) rfl rfl rfl c

theorem fallback_behind : (u.behind p).fallback = u.fallback := by
  rw [State.fallback, seq_behind]
  rfl

/-! The encoder's steps (42_encoder R101 to R109). -/

theorem encodeMiss_behind (x : BitVec 12) : encodeMiss x (u.behind p) = (encodeMiss x u).behind p := by
  rw [encodeMiss_eq, encodeMiss_eq, dictWrite_behind]
  simp only [State.behind, List.append_assoc]

theorem overflowReset_behind (x : BitVec 12) : overflowReset x (u.behind p) = (overflowReset x u).behind p := by
  rw [overflowReset_eq, overflowReset_eq]
  simp only [State.behind, List.append_assoc]
  rfl

theorem encodeWidthStep_behind (x : BitVec 12) : encodeWidthStep x (u.behind p) = (encodeWidthStep x u).behind p := by
  rw [encodeWidthStep, overflowReset_behind, encodeWidthStep, apply_ite (State.behind · p), apply_ite (State.behind · p)]
  rfl

theorem encodeSymbol_behind (x : BitVec 12) : encodeSymbol x (u.behind p) = (encodeSymbol x u).behind p := by
  cases hc : u.curV with
  | false => rw [encodeSymbol_of_empty hc, encodeSymbol_of_empty (s := u.behind p) hc]; rfl
  | true =>
    cases hk : u.camSearch u.cur (symOperand x) with
    | some k => rw [encodeSymbol_of_hit hc hk, encodeSymbol_of_hit (s := u.behind p) hc hk]; rfl
    | none =>
      rw [encodeSymbol_of_miss hc hk, encodeSymbol_of_miss (s := u.behind p) hc hk, encodeMiss_behind,
        encodeWidthStep_behind]

theorem encodeEnd_behind : encodeEnd (u.behind p) = (encodeEnd u).behind p := by
  rw [encodeEnd_eq, encodeEnd_eq]
  simp only [State.behind, List.append_assoc]
  rfl

/-- A START writes every register, so nothing of the earlier state is left but what it has delivered (70 R158). -/
theorem beginStream_eq_behind (m : Mode) (a : EngineState) (r : BitVec 4) :
    beginStream m a r p = (beginStream m a r State.reset).behind p := by
  simp only [State.behind, beginStream, streamReset, State.reset, List.append_nil]
  rfl

theorem startEncode_behind (r : BitVec 4) : startEncode r (u.behind p) = (startEncode r u).behind p :=
  pack_behind p (beginStream .enc .encActive r u) _ _

theorem startEncode_eq_behind (r : BitVec 4) : startEncode r p = (startEncode r State.reset).behind p := by
  rw [startEncode, beginStream_eq_behind, pack_behind]
  rfl

end Behind

/-! ### Commands and codes (30_encoding R67, 43_decoder R117) -/

/-- `o` with the output of `p` delivered before. -/
def resultBehind (p : State) (o : Result) : Result := andThen o fun t => .next (t.behind p)

/-- `k` does the same whatever was delivered before. -/
def OutputBlind (k : State → Result) : Prop := ∀ p u : State, k (u.behind p) = resultBehind p (k u)

/-- A stage after one that answers behind `p` answers behind `p` too. -/
theorem OutputBlind.andThen {k : State → Result} (h : OutputBlind k) (p : State) (o : Result) :
    andThen (resultBehind p o) k = resultBehind p (andThen o k) := by
  cases o with
  | next t => exact h p t
  | fault | refused => rfl

theorem outputBlind_next {f : State → State} (h : ∀ p u : State, f (u.behind p) = (f u).behind p) :
    OutputBlind fun s => .next (f s) := fun p u => congrArg Host.Outcome.next (h p u)

theorem outputBlind_raise (e : ErrCode) (info : BitVec 16) : OutputBlind fun s => .next (raise e info s) :=
  outputBlind_next fun _ _ => rfl

theorem outputBlind_ite {c : State → Prop} [DecidablePred c] (hc : ∀ p u : State, c (u.behind p) ↔ c u)
    {k l : State → Result} (hk : OutputBlind k) (hl : OutputBlind l) : OutputBlind fun s => if c s then k s else l s := by
  intro p u
  dsimp only
  rw [apply_ite (resultBehind p), hk p u, hl p u]
  exact if_congr (hc p u) rfl rfl

theorem outputBlind_unlessError {k : State → Result} (h : OutputBlind k) : OutputBlind (unlessError k) :=
  outputBlind_ite (fun _ _ => Iff.rfl) (outputBlind_next fun _ _ => rfl) h

theorem outputBlind_illegalCommand (cmd : CmdWord) : OutputBlind (illegalCommand cmd) :=
  outputBlind_unlessError (outputBlind_raise _ _)

theorem outputBlind_startCommand (cmd : CmdWord) (r : BitVec 4) {k : State → Result} (h : OutputBlind k) :
    OutputBlind (startCommand cmd r k) :=
  outputBlind_ite (fun _ _ => Iff.rfl) h (outputBlind_raise _ _)

theorem outputBlind_encCommand (cmd : CmdWord) {k : State → Result} (h : OutputBlind k) :
    OutputBlind (encCommand cmd k) :=
  outputBlind_unlessError (outputBlind_ite (fun _ _ => Iff.rfl) h (outputBlind_raise _ _))

theorem outputBlind_decCommand (cmd : CmdWord) {k : State → Result} (h : OutputBlind k) :
    OutputBlind (decCommand cmd k) :=
  outputBlind_unlessError (outputBlind_ite (fun _ _ => Iff.rfl) (outputBlind_next fun _ _ => rfl)
    (outputBlind_ite (fun _ _ => Iff.rfl) h (outputBlind_raise _ _)))

theorem outputBlind_decodeRun (o : Option (List Sym)) (c : Code) : OutputBlind (decodeRun o c) := by
  intro p u
  match o with
  | some (f :: q) =>
    rw [decodeRun_cons_eq, decodeRun_cons_eq, dictWrite_behind]
    simp only [resultBehind, andThen_next, State.behind, List.append_assoc]
    rfl
  | some [] => rfl
  | none => rfl

theorem outputBlind_execLit (c : Code) : OutputBlind (execLit c) :=
  outputBlind_ite (fun _ _ => Iff.rfl) (outputBlind_decodeRun _ c) (outputBlind_next fun p u => decodeEmit_behind p u _ c)

theorem outputBlind_execDic (c : Code) : OutputBlind (execDic c) := by
  refine outputBlind_ite (fun _ _ => Iff.rfl) (fun p u => ?_) (outputBlind_raise _ _)
  rw [State.lookupByCode, seq_behind]
  exact outputBlind_decodeRun _ c p u

theorem outputBlind_execKwk (c : Code) : OutputBlind (execKwk c) := by
  refine outputBlind_ite (fun _ _ => Iff.rfl) (fun p u => ?_) (outputBlind_raise _ _)
  rw [fallback_behind]
  exact outputBlind_decodeRun _ c p u

theorem outputBlind_decodeOne (c : Code) : OutputBlind (decodeOne c) := by
  intro p u
  have hctx : (u.behind p).codeContext = u.codeContext := rfl
  rw [decodeOne, decodeOne, hctx]
  cases classify u.codeContext c.toNat with
  | LIT => exact outputBlind_execLit c p u
  | CLR | EOI | BAD => rfl
  | DIC => exact outputBlind_execDic c p u
  | KWK => exact outputBlind_execKwk c p u

/-- The loop of DEC_BYTE reads its codes from the unpacker (43_decoder R116). -/
theorem outputBlind_decodeLoop (fuel : Nat) : OutputBlind (decodeLoop fuel) := by
  induction fuel with
  | zero => exact fun _ _ => rfl
  | succ fuel ih =>
    intro p u
    by_cases hs : u.state = .decActive
    · cases hr : u.ub.read u.w with
      | none =>
        rw [decodeLoop_of_wait hs hr, decodeLoop_of_wait (s := u.behind p) hs hr]
        rfl
      | some cv =>
        rw [decodeLoop_of_code hs hr, decodeLoop_of_code (s := u.behind p) hs hr, ← ih.andThen]
        exact congrArg (andThen · _) (outputBlind_decodeOne cv.1 p { u with ub := cv.2 })
    · rw [decodeLoop_of_over hs, decodeLoop_of_over (s := u.behind p) hs]
      rfl

theorem outputBlind_decodeByte (b : Byte) : OutputBlind (decodeByte b) := fun p u =>
  outputBlind_decodeLoop _ p (pushByte b u)

theorem outputBlind_execEncSym (x : BitVec 12) : OutputBlind (execEncSym x) :=
  outputBlind_encCommand _ (outputBlind_ite (fun _ _ => Iff.rfl)
    (outputBlind_next fun p u => encodeSymbol_behind p u x) (outputBlind_raise _ _))

/-- Every instruction does the same whatever was delivered before it. -/
theorem outputBlind_exec (i : Instr) : OutputBlind (exec i) := by
  cases i with
  | startEnc r => exact outputBlind_startCommand _ r (outputBlind_next fun p u => startEncode_behind p u r)
  | startDec r => exact outputBlind_startCommand _ r (outputBlind_next fun _ _ => rfl)
  | encSym x => exact outputBlind_execEncSym x
  | encEnd => exact outputBlind_encCommand _ (outputBlind_next encodeEnd_behind)
  | decByte b => exact outputBlind_decCommand _ (outputBlind_decodeByte b)
  | decEnd => exact outputBlind_decCommand _ fun _ _ => rfl
  | reservedOp0 | reservedOps => exact outputBlind_illegalCommand _
  | lit c => exact outputBlind_execLit c
  | dic c => exact outputBlind_execDic c
  | kwk c => exact outputBlind_execKwk c
  | clr | eoi | bad => exact fun _ _ => rfl
  | pair width code => exact outputBlind_next fun p u => pack_behind p u width.toNat code

theorem outputBlind_runCommand (w : CmdWord) : OutputBlind (runCommand w) := by
  intro p u
  rw [runCommand, runCommand]
  cases decodeCommand w with
  | ok i => exact outputBlind_exec i p u
  | rejected why =>
    cases why
    exact outputBlind_illegalCommand _ p u

theorem outputBlind_runCommands (ws : List CmdWord) : OutputBlind (runCommands ws) := by
  induction ws with
  | nil => exact fun _ _ => rfl
  | cons w ws ih =>
    intro p u
    rw [runCommands, runCommands, outputBlind_runCommand w p u, ih.andThen]

/-! ### The result of a session (70_reset_and_hazards R158) -/

/-- Commands after a START that leaves `u`, behind what was delivered, do what they do from `u`. -/
theorem runCommands_cons_behind {w : CmdWord} {u : State} (h : ∀ p, runCommand w p = .next (u.behind p))
    (ws : List CmdWord) (p : State) : runCommands (w :: ws) p = resultBehind p (runCommands ws u) := by
  rw [runCommands, h, andThen_next, outputBlind_runCommands]

/-- What a session added to a stream does not depend on what the stream held before. -/
theorem sessionResult_behind {α : Type} {out : State → List α} {v : State}
    (hout : ∀ p, out (v.behind p) = out p ++ out v) (s t : State) :
    sessionResult out s (v.behind s) = sessionResult out t (v.behind t) := by
  rw [sessionResult, sessionResult, hout, hout, List.drop_left, List.drop_left]
  rfl

section Session

variable {r : BitVec 4} (hr : rootOk r.toNat) (s t : State)

include hr

theorem encodeFn_congr (xs : List (BitVec 12)) : encodeFn r xs s = encodeFn r xs t := by
  have hstart : ∀ p, runCommand (cmdWordOf (.startEnc r)) p = .next ((startEncode r State.reset).behind p) := fun p => by
    rw [runCommand_cmdWordOf rfl rfl, exec_startEnc_of_legal hr, startEncode_eq_behind]
  simp only [encodeFn, encodeSession, List.cons_append, runCommands_cons_behind hstart]
  cases runCommands _ (startEncode r State.reset) with
  | next v => exact sessionResult_behind (fun _ => rfl) s t
  | fault | refused => rfl

theorem decodeFn_congr (bs : List Byte) : decodeFn r bs s = decodeFn r bs t := by
  have hstart : ∀ p, runCommand (cmdWordOf (.startDec r)) p =
      .next ((beginStream .dec .decActive r State.reset).behind p) := fun p => by
    rw [runCommand_cmdWordOf rfl rfl, exec_startDec_of_legal hr, ← beginStream_eq_behind]
  simp only [decodeFn, decodeSession, List.cons_append, runCommands_cons_behind hstart]
  cases runCommands _ (beginStream .dec .decActive r State.reset) with
  | next v => exact sessionResult_behind (fun _ => rfl) s t
  | fault | refused => rfl

end Session

/-- Settles O55: a legal START leaves the state of a START after reset behind the output delivered before, and the commands
after it do not read that output; with an illegal root size the session is that error in every state. -/
theorem sessionResultIgnoresTheEarlierState : Obligations.SessionResultIgnoresTheEarlierState := by
  intro r s t
  by_cases hr : rootOk r.toNat
  · exact ⟨encodeFn_congr hr s t, decodeFn_congr hr s t⟩
  · exact ⟨fun xs => (encodeFn_of_illegal hr xs s).trans (encodeFn_of_illegal hr xs t).symm,
      fun bs => (decodeFn_of_illegal hr bs s).trans (decodeFn_of_illegal hr bs t).symm⟩

/-! ### Hardware reset (70_reset_and_hazards R157) -/

/-- Both status words of the reset state are zero. -/
theorem readStatus_reset : State.reset.readStatus 0 = 0 ∧ State.reset.readStatus 1 = 0 := by decide

/-- In IDLE neither pipeline is active, so only a START is accepted. -/
theorem runCommand_of_idle {s : State} (hs : s.state = .idle) {w : CmdWord} (h : ¬ isStart w) :
    runCommand w s = .next { s with state := .error, err := .illegalCommand, errInfo := w } := by
  refine unacceptedCommandsRaiseIllegalCommand s w (by simp [hs]) ?_
  simp only [hs, ne_eq, reduceCtorEq, not_false_eq_true, and_true, false_and]
  by_cases hwf : commandWf w
  · omega
  · exact .inl hwf

/-- A well-formed START begins its stream or raises INVALID_ROOT_SIZE. -/
theorem runCommand_of_start {w : CmdWord} (h : isStart w) (s : State) :
    ∃ t, runCommand w s = .next t ∧ t.err ≠ .illegalCommand := by
  rw [everyCommandFollowsTheDispatchProcedure w s, dispatch_of_start s h]
  by_cases hr : rootOk (BitVec.ofNat 4 (argOf w)).toNat
  · rw [startCommand_of_legal hr]
    refine ⟨_, rfl, ?_⟩
    split <;> simp [startEncode]
  · rw [startCommand_of_illegal hr]
    exact ⟨_, rfl, by simp⟩

/-- Settles O8: the reset state is IDLE with no error recorded. -/
theorem hardwareResetLeavesTheResetState : Obligations.HardwareResetLeavesTheResetState := by
  intro s rest hin
  obtain ⟨-, -, hreset, -⟩ := stepRunsTheDecodedCommand s
  obtain ⟨hstatus, hinfo⟩ := readStatus_reset
  exact ⟨_, hreset rest hin, rfl, hstatus, hinfo, rfl, rfl, fun _ => runCommand_of_idle rfl,
    fun _ hw => runCommand_of_start hw _⟩

end Sys2Proof.Machine
end
